-- ==== Sys2Proof/Word.lean ====
section
/-! DEFINITION. The word types of the block (00_scope R10): bytes, 16-bit addresses and counters, 32-bit bus words,
and the values a line or the indicator can take. -/

namespace Sys2Proof

/-- `u8` (00 R10). -/
abbrev Byte := BitVec 8

/-- `u16` (00 R10): addresses, lengths, `error_count`. -/
abbrev Half := BitVec 16

/-- `u32` (00 R10): a bus transaction as one pattern (30 R95), `flash_size`. -/
abbrev Word := BitVec 32

/-- The driven level of a line (10 R28). -/
inductive Level where
  | low
  | high
  deriving DecidableEq, Repr, Inhabited

/-- The direction of a line (10 R28). -/
inductive Dir where
  | input
  | output
  deriving DecidableEq, Repr, Inhabited

/-- The four lines (10 R28, 60 R315). -/
inductive Pin where
  | reset
  | sck
  | mosi
  | miso
  deriving DecidableEq, Repr, Inhabited

/-- The other level (43 R210). -/
def Level.flip : Level → Level
  | .low => .high
  | .high => .low

end Sys2Proof
end

