-- ==== Sys2Proof/Config.lean ====
section
/-! DEFINITION. The parameters of 00_scope R8 that a model takes as arguments, and the free values.
The default of every parameter is `defaultConfig` in Sys2Proof/Decode.lean. -/

namespace Sys2Proof

/-- The fourteen `OPC_*` parameters (30 R97, D1). -/
structure Opcodes where
  signOn : Byte
  getSync : Byte
  getParam : Byte
  setParams : Byte
  setExt : Byte
  enter : Byte
  leave : Byte
  setAddr : Byte
  universal : Byte
  progFlash : Byte
  progData : Byte
  progPage : Byte
  readPage : Byte
  readSig : Byte
  deriving DecidableEq, Repr

/-- The `BUS_*` parameters (30 R96, D3). -/
structure BusBytes where
  /-- The whole fixed transaction of the entry sequence (41 R175). -/
  progEnable : Word
  loadLo : Byte
  loadHi : Byte
  writePage : Byte
  readLo : Byte
  readHi : Byte
  eeWrite : Byte
  eeRead : Byte
  readSig : Byte
  /-- `BUS_EE_READ_FILL` (41 R182). -/
  eeReadFill : Byte
  deriving DecidableEq, Repr

/-- `EOP_ORDER` (40 R132, D9): does a simple command act after its EOP check, or before it. -/
inductive EopOrder where
  | checkFirst
  | legacy
  deriving DecidableEq, Repr

/-- `PAGE_MASK_MODE` (44 R230, R231, D15). -/
inductive PageMaskMode where
  | docMask
  | byteSizedPage
  deriving DecidableEq, Repr

/-- `BUS_BIT_ORDER` (93 U20, 41 R173, D5): which bit of a byte goes first on the bus. -/
inductive BitOrder where
  | msbFirst
  | lsbFirst
  deriving DecidableEq, Repr

/-- An edge of the bus clock. -/
inductive Edge where
  | rising
  | falling
  deriving DecidableEq, Repr

/-- `BUS_MODE` (93 U20, 41 R173, D5): the level at which `SCK` idles, and the edge of `SCK` at which data is sampled; data
is changed on the other edge. -/
structure BusMode where
  idle : Level
  sampleOn : Edge
  deriving DecidableEq, Repr

/-- The levels of `SCK` and `MOSI` over one half of a clock period (41 R173). -/
structure HalfPeriod where
  sck : Level
  mosi : Level
  deriving DecidableEq, Repr

/-- The parameters of 00 R8 and 93 that a model takes as arguments. Fixed for a machine: no step writes them. -/
structure Config where
  opcodes : Opcodes
  /-- `MEMTAG_FLASH` (30 R101, D2). -/
  memtagFlash : Byte
  /-- `MEMTAG_EEPROM` (30 R101, D2). -/
  memtagEeprom : Byte
  bus : BusBytes
  /-- `LEGACY_FLASH_LEN` (D6). -/
  legacyFlashLen : Nat
  /-- `LEGACY_DATA_LEN` (D6). -/
  legacyDataLen : Nat
  /-- `ID_STRING` (D7). -/
  idString : List Byte
  /-- The `GETPARAM` table: sub-code and value (30 R102, D8). -/
  getParam : List (Byte × Byte)
  /-- `GETPARAM_DEFAULT` (30 R102, D8). -/
  getParamDefault : Byte
  eopOrder : EopOrder
  pageMaskMode : PageMaskMode
  /-- `CAPACITY_FAIL_CONSUMES` (45 R266, D13). -/
  capacityFailConsumes : Bool
  /-- `RX_FIFO_DEPTH`, OPEN (70 R338, D28): `none` where the depth is not given. Read by `State.HostMaySend` only. -/
  rxFifoDepth : Option Nat
  /-- `BUS_BIT_ORDER` (D5). -/
  bitOrder : BitOrder
  /-- `BUS_MODE` (D5). -/
  busMode : BusMode
  /-- `BUS_CLOCK_HZ`, OPEN (D5): `none` where it is not given. Read by `Config.shiftMicros` only; no rule depends on how
  long a transaction takes (41 R185). -/
  busClockHz : Option Nat
  /-- `TICK_HZ`, OPEN (D33). No rule reads the tick counter but through `Delay`, in microseconds here (60 R314). -/
  tickHz : Option Nat
  /-- `TICK_BITS`, OPEN (D33), as `tickHz`. -/
  tickBits : Option Nat
  /-- `F_TARGET_MIN` in Hz (43 R214). Read by `Config.PulseLaw` only; the default is log entry 30's. -/
  fTargetMin : Nat
  deriving DecidableEq, Repr

/-! ### The free values

Each is applied to the parameters, to the number of the draw, and to every event so far, so that it may depend on all that
was sent; nothing constrains what it is. -/

namespace Machine

/-- The observed events (00 R12, 60 R320). `bus` holds the four bytes out and the four bytes in as words (30 R95);
`delay` its minimum in microseconds. -/
inductive Event where
  | hostRead (b : Byte)
  | hostWrite (b : Byte)
  | bus (out inp : Word)
  | setDir (p : Pin) (d : Dir)
  | drive (p : Pin) (l : Level)
  | delay (micros : Nat)
  deriving DecidableEq, Repr

end Machine

open Machine

/-- FREE VALUE (41 R172, D24): what the target answers to a transaction where no answer is listed in `State.targetIn`;
bits 31:24 are `r0`, bits 7:0 `r3`. The events are those before the transaction, the last argument is the word being sent.
Log entry 11. -/
opaque Config.targetWord : Config → Nat → List Event → Word → Word

/-- FREE VALUE (43 R211, U7; 91 N20): the level of `MOSI` where the spec leaves it open: in the entry sequence before its
transaction, and after a transaction, which is then the last of the events. Log entry 12. -/
opaque Config.freeMosi : Config → Nat → List Event → Level

/-- FREE VALUE (41 R174, U4): the level of `SCK` after a transaction with the bus off, the last of the events. Log entry
13. -/
opaque Config.freeSck : Config → Nat → List Event → Level

/-- FREE VALUE (41 R174, U4): what reaches the lines in a transaction with the bus off, the last of the events. Log entry
13. -/
opaque Config.freeWave : Config → Nat → List Event → List HalfPeriod

/-- FREE VALUE (10 R27, U16): the progress counter after the indicator is set to the last argument, from the counter before
it. Log entry 19. -/
opaque Config.freeProgress : Config → Nat → List Event → Nat → Bool → Nat

end Sys2Proof
end

