-- ==== Sys2Proof/Syntax.lean ====
section
/-! DEFINITION. The instructions: one constructor per row of spec/opcode_table.json. A host command carries the bytes of
its frame after the opcode, the byte at the EOP position included (30 R90); a bus transaction carries its fields. -/

namespace Sys2Proof

/-- Every host command (30 R92) and every bus transaction kind (30 R96). `eop` is the byte found at the EOP position,
whatever it is. -/
inductive Instr where
  /-- SIGN_ON (40 R133). -/
  | signOn (eop : Byte)
  /-- GET_SYNC (40 R134). -/
  | getSync (eop : Byte)
  /-- GET_PARAM (40 R135). -/
  | getParam (sub eop : Byte)
  /-- SET_PARAMS (40 R136): the 20-byte parameter block. -/
  | setParams (p : List Byte) (eop : Byte)
  /-- SET_EXT (40 R137): five reserved bytes. -/
  | setExt (x : List Byte) (eop : Byte)
  /-- ENTER_PMODE (40 R138). -/
  | enterPmode (eop : Byte)
  /-- LEAVE_PMODE (40 R139). -/
  | leavePmode (eop : Byte)
  /-- SET_ADDR (40 R140): low byte, then high byte. -/
  | setAddr (lo hi eop : Byte)
  /-- UNIVERSAL (40 R145). -/
  | universal (b0 b1 b2 b3 eop : Byte)
  /-- PROG_FLASH (40 R141): `LEGACY_FLASH_LEN` ignored bytes. -/
  | progFlash (payload : List Byte) (eop : Byte)
  /-- PROG_DATA (40 R142): `LEGACY_DATA_LEN` ignored bytes. -/
  | progData (payload : List Byte) (eop : Byte)
  /-- PROG_PAGE (40 R143), the rule that reads the header and dispatches on the tag. `body` is what follows the header:
  `none` where nothing after the tag has been read. -/
  | progPage (len : Half) (tag : Byte) (body : Option (List Byte × Byte))
  /-- PROG_PAGE_F (44 R238). -/
  | progPageF (len : Half) (data : List Byte) (eop : Byte)
  /-- PROG_PAGE_E (45 R260). -/
  | progPageE (len : Half) (data : List Byte) (eop : Byte)
  /-- READ_PAGE (40 R144), the rule that checks the EOP and dispatches on the tag. -/
  | readPage (len : Half) (tag eop : Byte)
  /-- READ_PAGE_F (46 R280). -/
  | readPageF (len : Half) (eop : Byte)
  /-- READ_PAGE_E (46 R281). -/
  | readPageE (len : Half) (eop : Byte)
  /-- READ_SIG (46 R283). -/
  | readSig (eop : Byte)
  /-- BARE_EOP (40 R147). -/
  | bareEop
  /-- UNKNOWN_OPCODE (40 R148): the opcode byte and the one byte read after it. -/
  | unknownOpcode (op b : Byte)
  /-- BUS_PROG_ENABLE (41 R175). -/
  | busProgEnable
  /-- BUS_LOAD_LO (41 R176). -/
  | busLoadLo (a : Half) (d : Byte)
  /-- BUS_LOAD_HI (41 R177). -/
  | busLoadHi (a : Half) (d : Byte)
  /-- BUS_WRITE_PAGE (41 R178). -/
  | busWritePage (p : Half)
  /-- BUS_READ_LO (41 R179). -/
  | busReadLo (a : Half)
  /-- BUS_READ_HI (41 R180). -/
  | busReadHi (a : Half)
  /-- BUS_EE_WRITE (41 R181). -/
  | busEeWrite (e : Half) (d : Byte)
  /-- BUS_EE_READ (41 R182). -/
  | busEeRead (e : Half)
  /-- BUS_READ_SIG (41 R183): the signature index. -/
  | busReadSig (i : Byte)
  /-- BUS_UNIVERSAL (41 R184): any four bytes. -/
  | busUniversal (b0 b1 b2 b3 : Byte)
  deriving DecidableEq, Repr

/-- The dispatch classes of an opcode byte (40 R130). -/
inductive Command where
  | signOn
  | getSync
  | getParam
  | setParams
  | setExt
  | enter
  | leave
  | setAddr
  | progFlash
  | progData
  | progPage
  | readPage
  | universal
  | readSig
  | bareEop
  | unknown
  deriving DecidableEq, Repr

/-- Why a program-page header is refused at the tag byte (60 R306). -/
inductive HeaderStop where
  | unknownTag
  | lengthOverBuffer
  | oddLength
  deriving DecidableEq, Repr

end Sys2Proof
end

