-- ==== Sys2Proof/Decode.lean ====
section
/-! DEFINITION. The wire constants and default parameters, the byte-order helpers, the decoder of host frames and of bus
words, and after them the encoder. -/

namespace Sys2Proof

/-! ### Wire constants and defaults (00 R8) -/

/-- `EOP` (00 R8, 30 R90). -/
def eopByte : Byte := 0x20
/-- `INSYNC` (30 R91). -/
def insync : Byte := 0x14
/-- `OK` (30 R91). -/
def okByte : Byte := 0x10
/-- `FAILED` (30 R91). -/
def failedByte : Byte := 0x11
/-- `UNKNOWN` (30 R91). -/
def unknownByte : Byte := 0x12
/-- `NOSYNC` (30 R91). -/
def nosync : Byte := 0x15

/-- `BUF_SIZE` (00 R8). -/
def bufSize : Nat := 256
/-- `EECHUNK` (00 R8, 45 R262). -/
def eeChunk : Nat := 32
/-- `PARAM_LEN` (00 R8). -/
def paramLen : Nat := 20
/-- `EXT_PARAM_LEN` (00 R8). -/
def extParamLen : Nat := 5

/-- The opcode defaults of 30 R97. PRESUMED by the spec itself (D1, D36): log entry 1. -/
def defaultOpcodes : Opcodes where
  signOn := 0x30
  getSync := 0x31
  getParam := 0x41
  setParams := 0x42
  setExt := 0x45
  enter := 0x50
  leave := 0x51
  setAddr := 0x55
  universal := 0x56
  progFlash := 0x60
  progData := 0x61
  progPage := 0x64
  readPage := 0x74
  readSig := 0x75

/-- The bus byte defaults of 30 R96. PRESUMED by the spec itself (D3): log entry 3. -/
def defaultBusBytes : BusBytes where
  progEnable := 0xAC530000
  loadLo := 0x40
  loadHi := 0x48
  writePage := 0x4C
  readLo := 0x20
  readHi := 0x28
  eeWrite := 0xC0
  eeRead := 0xA0
  readSig := 0x30
  eeReadFill := 0xFF

/-- The default parameters of 00 R8: log entries 1 to 6, 20, 21, 25, 30. -/
def defaultConfig : Config where
  opcodes := defaultOpcodes
  memtagFlash := 0x46
  memtagEeprom := 0x45
  bus := defaultBusBytes
  legacyFlashLen := 2
  legacyDataLen := 1
  idString := [0x41, 0x56, 0x52, 0x20, 0x49, 0x53, 0x50]
  getParam := [(0x80, 2), (0x81, 1), (0x82, 18), (0x93, 0x53)]
  getParamDefault := 0x00
  eopOrder := .checkFirst
  pageMaskMode := .docMask
  capacityFailConsumes := true
  rxFifoDepth := none
  bitOrder := .msbFirst
  busMode := ⟨.low, .rising⟩
  busClockHz := none
  tickHz := none
  tickBits := none
  fTargetMin := 20000

/-! ### Byte order -/

/-- `hi8(v)` (00 R10). -/
def hi8 (v : Half) : Byte := v.extractLsb' 8 8

/-- `lo8(v)` (00 R10). -/
def lo8 (v : Half) : Byte := v.extractLsb' 0 8

/-- Two bytes as a `u16`, the more significant first (30 R94, 42 R191). -/
def half (hi lo : Byte) : Half := hi ++ lo

/-- Four bytes as one pattern, the first byte in bits 31:24 (30 R95, 42 R191). -/
def word4 (b0 b1 b2 b3 : Byte) : Word := b0 ++ b1 ++ b2 ++ b3

/-- The `k`-th byte of a transaction, `k` from 0 (30 R95). -/
def byteOf (w : Word) (k : Nat) : Byte := w.extractLsb' (8 * (3 - k)) 8

/-- The two address bytes of a transaction as an address, high byte first (20 R61). -/
def addrOf (w : Word) : Half := half (byteOf w 1) (byteOf w 2)

/-- The transaction `[c, hi8(a), lo8(a), d]` (30 R96, 20 R61). -/
def busWord (c : Byte) (a : Half) (d : Byte) : Word := word4 c (hi8 a) (lo8 a) d

/-! ### Decoding host frames -/

/-- The dispatch class of an opcode byte (40 R130). -/
def classify (cfg : Config) (b : Byte) : Command :=
  if b = eopByte then .bareEop
  else if b = cfg.opcodes.signOn then .signOn
  else if b = cfg.opcodes.getSync then .getSync
  else if b = cfg.opcodes.getParam then .getParam
  else if b = cfg.opcodes.setParams then .setParams
  else if b = cfg.opcodes.setExt then .setExt
  else if b = cfg.opcodes.enter then .enter
  else if b = cfg.opcodes.leave then .leave
  else if b = cfg.opcodes.setAddr then .setAddr
  else if b = cfg.opcodes.progFlash then .progFlash
  else if b = cfg.opcodes.progData then .progData
  else if b = cfg.opcodes.progPage then .progPage
  else if b = cfg.opcodes.readPage then .readPage
  else if b = cfg.opcodes.universal then .universal
  else if b = cfg.opcodes.readSig then .readSig
  else .unknown

/-- What reading a byte list as one host frame gives: the instruction and the bytes after its frame, or the rejection
`incomplete`: the frame needs more bytes than there are (70 R341). No byte list is rejected otherwise (30 R99). -/
inductive Decoded where
  | frame (i : Instr) (rest : List Byte)
  | incomplete
  deriving DecidableEq, Repr

/-- A payload of `n` bytes and the byte at the EOP position (30 R90). -/
def splitFrame (n : Nat) (bs : List Byte) (k : List Byte → Byte → Instr) : Decoded :=
  match bs.drop n with
  | eop :: rest => .frame (k (bs.take n) eop) rest
  | [] => .incomplete

/-- The refusals decided at the tag byte of program-page (40 R143, 44 R239, 60 R307). -/
def headerStop (cfg : Config) (len : Half) (tag : Byte) : Option HeaderStop :=
  if tag = cfg.memtagFlash then
    if bufSize < len.toNat then some .lengthOverBuffer
    else if len.toNat % 2 = 1 then some .oddLength
    else none
  else if tag = cfg.memtagEeprom then none
  else some .unknownTag

/-- The payload bytes of an EEPROM program-page: `L`, or none where a capacity failure consumes none (45 R266).
`ee` is the negotiated EEPROM size. -/
def eepromPayloadLen (cfg : Config) (ee len : Half) : Nat :=
  if ee < len ∧ cfg.capacityFailConsumes = false then 0 else len.toNat

/-- The body of a program-page frame, after its header (40 R143). -/
def decodeProgPage (cfg : Config) (ee len : Half) (tag : Byte) (bs : List Byte) : Decoded :=
  match headerStop cfg len tag with
  | some _ => .frame (.progPage len tag none) bs
  | none =>
    if tag = cfg.memtagFlash then splitFrame len.toNat bs (.progPageF len)
    else splitFrame (eepromPayloadLen cfg ee len) bs (.progPageE len)

/-- The instruction of a read-page frame (40 R144). -/
def decodeReadPage (cfg : Config) (len : Half) (tag eop : Byte) : Instr :=
  if tag = cfg.memtagFlash then .readPageF len eop
  else if tag = cfg.memtagEeprom then .readPageE len eop
  else .readPage len tag eop

/-- One host frame from the front of a byte list (30 R92, R93). `ee` is the negotiated EEPROM size, on which the length
of a capacity-failed frame depends where `CAPACITY_FAIL_CONSUMES` is false. -/
def decode (cfg : Config) (ee : Half) : List Byte → Decoded
  | [] => .incomplete
  | op :: bs =>
    match classify cfg op with
    | .bareEop => .frame .bareEop bs
    | .unknown => splitFrame 0 bs fun _ b => .unknownOpcode op b
    | .signOn => splitFrame 0 bs fun _ e => .signOn e
    | .getSync => splitFrame 0 bs fun _ e => .getSync e
    | .getParam =>
      match bs with
      | sub :: e :: r => .frame (.getParam sub e) r
      | _ => .incomplete
    | .setParams => splitFrame paramLen bs .setParams
    | .setExt => splitFrame extParamLen bs .setExt
    | .enter => splitFrame 0 bs fun _ e => .enterPmode e
    | .leave => splitFrame 0 bs fun _ e => .leavePmode e
    | .setAddr =>
      match bs with
      | lo :: hi :: e :: r => .frame (.setAddr lo hi e) r
      | _ => .incomplete
    | .progFlash => splitFrame cfg.legacyFlashLen bs .progFlash
    | .progData => splitFrame cfg.legacyDataLen bs .progData
    | .progPage =>
      match bs with
      | lh :: ll :: tag :: r => decodeProgPage cfg ee (half lh ll) tag r
      | _ => .incomplete
    | .readPage =>
      match bs with
      | lh :: ll :: tag :: e :: r => .frame (decodeReadPage cfg (half lh ll) tag e) r
      | _ => .incomplete
    | .universal =>
      match bs with
      | b0 :: b1 :: b2 :: b3 :: e :: r => .frame (.universal b0 b1 b2 b3 e) r
      | _ => .incomplete
    | .readSig => splitFrame 0 bs fun _ e => .readSig e

/-! ### Decoding bus words -/

/-- The kind of a transaction, by the rows of 30 R96 in order; four bytes that fit no other row are raw (41 R184). -/
def decodeBus (cfg : Config) (w : Word) : Instr :=
  if w = cfg.bus.progEnable then .busProgEnable
  else if byteOf w 0 = cfg.bus.loadLo then .busLoadLo (addrOf w) (byteOf w 3)
  else if byteOf w 0 = cfg.bus.loadHi then .busLoadHi (addrOf w) (byteOf w 3)
  else if byteOf w 0 = cfg.bus.writePage ∧ byteOf w 3 = 0 then .busWritePage (addrOf w)
  else if byteOf w 0 = cfg.bus.readLo ∧ byteOf w 3 = 0 then .busReadLo (addrOf w)
  else if byteOf w 0 = cfg.bus.readHi ∧ byteOf w 3 = 0 then .busReadHi (addrOf w)
  else if byteOf w 0 = cfg.bus.eeWrite then .busEeWrite (addrOf w) (byteOf w 3)
  else if byteOf w 0 = cfg.bus.eeRead ∧ byteOf w 3 = cfg.bus.eeReadFill then .busEeRead (addrOf w)
  else if byteOf w 0 = cfg.bus.readSig ∧ byteOf w 1 = 0 ∧ byteOf w 2 ≤ 2 ∧ byteOf w 3 = 0 then .busReadSig (byteOf w 2)
  else .busUniversal (byteOf w 0) (byteOf w 1) (byteOf w 2) (byteOf w 3)

/-! ### The table's numbering of bits -/

/-- The bytes of a host frame numbered as spec/opcode_table.json numbers them: byte `k` is bits `8k+7 .. 8k`, and zeros
follow, enough for the longest frame those bits can begin. -/
def tableBytes (nbits w : Nat) : List Byte :=
  let v := w % 2 ^ nbits
  let lead := (List.range (nbits / 8)).map fun k => BitVec.ofNat 8 (v >>> (8 * k))
  let announced := if v % 256 = defaultOpcodes.progPage.toNat then (v >>> 8) % 256 * 256 + (v >>> 16) % 256 else 0
  lead ++ List.replicate (announced + 24) 0

/-- The instruction this decoder reads from a row's bits. A row of 32 bits is a bus transaction, `c` in bits 31:24
(30 R95); any other row is a host frame. -/
def decodeTableWord (nbits w : Nat) : Option Instr :=
  if nbits = 32 then some (decodeBus defaultConfig (BitVec.ofNat 32 w))
  else
    match decode defaultConfig 0 (tableBytes nbits w) with
    | .frame i _ => some i
    | .incomplete => none

/-! ### Encoding -/

/-- The four header bytes of a page command (30 R92): the length is big-endian (30 R94). -/
def pageHeader (op : Byte) (len : Half) (tag : Byte) : List Byte := [op, hi8 len, lo8 len, tag]

/-- What follows a program-page header (30 R92). -/
def bodyBytes : Option (List Byte × Byte) → List Byte
  | none => []
  | some (d, e) => d ++ [e]

/-- The word of a bus transaction (30 R96); 0 for a host command, which has none. -/
def encodeBus (cfg : Config) : Instr → Word
  | .busProgEnable => cfg.bus.progEnable
  | .busLoadLo a d => busWord cfg.bus.loadLo a d
  | .busLoadHi a d => busWord cfg.bus.loadHi a d
  | .busWritePage p => busWord cfg.bus.writePage p 0
  | .busReadLo a => busWord cfg.bus.readLo a 0
  | .busReadHi a => busWord cfg.bus.readHi a 0
  | .busEeWrite e d => busWord cfg.bus.eeWrite e d
  | .busEeRead e => busWord cfg.bus.eeRead e cfg.bus.eeReadFill
  | .busReadSig i => word4 cfg.bus.readSig 0 i 0
  | .busUniversal b0 b1 b2 b3 => word4 b0 b1 b2 b3
  | _ => 0

/-- The four bytes of a word, in the order they are shifted out (30 R95). -/
def wordBytes (w : Word) : List Byte := [byteOf w 0, byteOf w 1, byteOf w 2, byteOf w 3]

/-- The bytes of an instruction: the frame of a host command (30 R92, R103), the four bytes of a transaction (30 R96). -/
def encode (cfg : Config) : Instr → List Byte
  | .signOn e => [cfg.opcodes.signOn, e]
  | .getSync e => [cfg.opcodes.getSync, e]
  | .getParam sub e => [cfg.opcodes.getParam, sub, e]
  | .setParams p e => cfg.opcodes.setParams :: (p ++ [e])
  | .setExt x e => cfg.opcodes.setExt :: (x ++ [e])
  | .enterPmode e => [cfg.opcodes.enter, e]
  | .leavePmode e => [cfg.opcodes.leave, e]
  | .setAddr lo hi e => [cfg.opcodes.setAddr, lo, hi, e]
  | .universal b0 b1 b2 b3 e => [cfg.opcodes.universal, b0, b1, b2, b3, e]
  | .progFlash d e => cfg.opcodes.progFlash :: (d ++ [e])
  | .progData d e => cfg.opcodes.progData :: (d ++ [e])
  | .progPage len tag body => pageHeader cfg.opcodes.progPage len tag ++ bodyBytes body
  | .progPageF len d e => pageHeader cfg.opcodes.progPage len cfg.memtagFlash ++ (d ++ [e])
  | .progPageE len d e => pageHeader cfg.opcodes.progPage len cfg.memtagEeprom ++ (d ++ [e])
  | .readPage len tag e => pageHeader cfg.opcodes.readPage len tag ++ [e]
  | .readPageF len e => pageHeader cfg.opcodes.readPage len cfg.memtagFlash ++ [e]
  | .readPageE len e => pageHeader cfg.opcodes.readPage len cfg.memtagEeprom ++ [e]
  | .readSig e => [cfg.opcodes.readSig, e]
  | .bareEop => [eopByte]
  | .unknownOpcode op b => [op, b]
  | i@(.busProgEnable) => wordBytes (encodeBus cfg i)
  | i@(.busLoadLo ..) => wordBytes (encodeBus cfg i)
  | i@(.busLoadHi ..) => wordBytes (encodeBus cfg i)
  | i@(.busWritePage ..) => wordBytes (encodeBus cfg i)
  | i@(.busReadLo ..) => wordBytes (encodeBus cfg i)
  | i@(.busReadHi ..) => wordBytes (encodeBus cfg i)
  | i@(.busEeWrite ..) => wordBytes (encodeBus cfg i)
  | i@(.busEeRead ..) => wordBytes (encodeBus cfg i)
  | i@(.busReadSig ..) => wordBytes (encodeBus cfg i)
  | i@(.busUniversal ..) => wordBytes (encodeBus cfg i)

end Sys2Proof
end

