-- ==== Sys2Proof/Machine/State.lean ====
section
/-! DEFINITION. The state of the block (10_state): the session record, the lines, the position in the host stream, the
inputs of the other agents and the event history. -/

namespace Sys2Proof.Machine

/-- The block's memory: listed bytes of the session buffer, by index (10 R21). -/
abbrev Memory := List Host.Cell

/-- `mode` (10 R25). -/
inductive Mode where
  | idle
  | programming
  | ended
  deriving DecidableEq, Repr

/-- A line the block can drive (10 R28). `level` is what the block drives while `dir` is Output; while it is Input the
stored level drives nothing. -/
structure Line where
  dir : Dir
  level : Level
  deriving DecidableEq, Repr

/-- The three lines with state; `MISO` is always Input and has none (10 R28). -/
structure Lines where
  reset : Line
  sck : Line
  mosi : Line
  deriving DecidableEq, Repr

/-- `device_parameters` (10 R22). -/
structure DeviceParams where
  deviceCode : Byte
  revision : Byte
  progType : Byte
  parMode : Byte
  polling : Byte
  selfTimed : Byte
  lockBytes : Byte
  fuseBytes : Byte
  flashPoll : Byte
  eepromPoll : Half
  pageSize : Half
  eepromSize : Half
  flashSize : Word
  deriving DecidableEq, Repr

/-- The dispatcher phase (10 R30). -/
inductive Phase where
  | fetch
  | inCommand (op : Byte)
  deriving DecidableEq, Repr

/-- The state between two steps. -/
structure State where
  /-- The machine's parameters (00 R8); no step writes them (log entry 10). -/
  cfg : Config
  /-- `buffer` (10 R21). -/
  buffer : Memory
  /-- `device_parameters` (10 R22). -/
  params : DeviceParams
  /-- `address` (10 R23). -/
  address : Half
  /-- `error_count` (10 R24). -/
  errorCount : Half
  /-- `mode` (10 R25). -/
  mode : Mode
  /-- `reset_active_high` (10 R26). -/
  resetActiveHigh : Bool
  /-- `progress_counter` (10 R27), cosmetic; log entry 19. -/
  progressCounter : Nat
  /-- The progress indicator (00 R12 `Lamp`), cosmetic; log entry 19. -/
  lampOn : Bool
  /-- `RESET`, `SCK`, `MOSI` (10 R28). -/
  lines : Lines
  /-- `bus_on` (10 R29). -/
  busOn : Bool
  /-- The bytes of the command in progress read so far, opcode first; empty between commands. Gives `phase` and the
  position inside the command (10 R30; log entry 15). -/
  got : List Byte
  /-- `r[3]` of the last transaction (41 R170). -/
  busResult : Byte
  /-- The levels on `SCK` and `MOSI` over the half clock periods of the last transaction, oldest first (41 R173; log entry
  25); empty before the first. -/
  wave : List HalfPeriod
  /-- The host's bytes not yet read (00 R12, 60 R315). -/
  hostIn : List Byte
  /-- The target's coming answers, one word per transaction (41 R172); none listed: a free value (log entry 11). -/
  targetIn : List Word
  /-- Transactions handed to the bus engine from outside a command (log entry 16). -/
  busCalls : List Word
  /-- How many free values have been drawn (log entry 11). -/
  draws : Nat
  /-- The events so far, oldest first (60 R320). -/
  history : List Event
  deriving DecidableEq, Repr

/-- The block has no fault: "There are no fatal errors within this subsystem: it never aborts or halts" (60 R305). So
nothing raises one (log entry 18). -/
inductive Fault where
  deriving DecidableEq, Repr

/-- Why a run has no meaning from here on (60 R306). -/
inductive Refusal where
  /-- Raised by a refused arm of `exec` for an instruction without a meaning; no arm is refused. Safe. -/
  | notModelled (mnemonic : String)
  /-- `refuse(UnknownMemoryTag)` (40 R143, R144, D10), raised by PROG_PAGE and READ_PAGE. Safe: no claim about such a
  run is provable. -/
  | unknownMemoryTag
  /-- `refuse(FlashLengthOverBuffer)` (44 R239, D11), raised by PROG_PAGE and PROG_PAGE_F. Safe. -/
  | flashLengthOverBuffer
  /-- `refuse(OddFlashLength)` (44 R239, 46 R280, D12), raised by PROG_PAGE, PROG_PAGE_F, READ_PAGE and READ_PAGE_F. Safe. -/
  | oddFlashLength
  deriving DecidableEq, Repr

/-- Every field zero (10 R22, R35). -/
def DeviceParams.zero : DeviceParams where
  deviceCode := 0
  revision := 0
  progType := 0
  parMode := 0
  polling := 0
  selfTimed := 0
  lockBytes := 0
  fuseBytes := 0
  flashPoll := 0
  eepromPoll := 0
  pageSize := 0
  eepromSize := 0
  flashSize := 0

/-- A line that is not driven (10 R28). The level is unspecified there; the model's is Low (log entry 12). -/
def Line.released : Line := ⟨.input, .low⟩

/-- The state right after subsystem entry (10 R35, 70 R330, R331). -/
def State.reset : State where
  cfg := defaultConfig
  buffer := []
  params := DeviceParams.zero
  address := 0
  errorCount := 0
  mode := .idle
  resetActiveHigh := false
  progressCounter := 0
  lampOn := false
  lines := ⟨Line.released, Line.released, Line.released⟩
  busOn := false
  got := []
  busResult := 0
  wave := []
  hostIn := []
  targetIn := []
  busCalls := []
  draws := 0
  history := []

end Sys2Proof.Machine
end

