-- ==== Sys2Proof/Machine/Ops.lean ====
section
/-! DEFINITION. The named operations on the state: the session buffer, the interface primitives of 00_scope R12, the bus
transaction, the line operations, and raising and answering an error (60_exceptions). -/

namespace Sys2Proof.Machine

/-- What a step or a meaning answers. -/
abbrev Result := Host.Outcome State Fault Refusal

/-! ### The session buffer (10 R21, 00 R11) -/

/-- What a byte of the buffer that nothing has written reads as. DESIGN CHOICE (log entry 9): the spec leaves it
unspecified and unobservable (10 R33). -/
def Memory.unlisted : Byte := 0

/-- One byte of a memory. -/
def Memory.get : Memory → Nat → Byte
  | [], _ => Memory.unlisted
  | (k, x) :: m, a => if k = a then x else Memory.get m a

/-- A memory with one byte written. A byte equal to `unlisted` is not listed. -/
def Memory.put : Memory → Nat → Byte → Memory
  | [], a, v => if v = Memory.unlisted then [] else [(a, v)]
  | (k, x) :: m, a, v =>
    if a < k then (if v = Memory.unlisted then (k, x) :: m else (a, v) :: (k, x) :: m)
    else if a = k then (if v = Memory.unlisted then m else (a, v) :: m)
    else (k, x) :: Memory.put m a v

/-- The canonical form: addresses strictly rising, inside the buffer, and no entry equal to `unlisted`. -/
abbrev Memory.wf (m : Memory) : Prop :=
  m.Pairwise (fun c d => c.1 < d.1) ∧ ∀ c ∈ m, c.1 < bufSize ∧ c.2 ≠ Memory.unlisted

/-- `s.buffer[i]` (00 R11). The index is 8 bits (20 R60), so no index lies outside the buffer. -/
def State.memRead (s : State) (i : BitVec 8) : Byte := Memory.get s.buffer i.toNat

/-- `s.buffer[i] <- v` (00 R11). -/
def State.memWrite (i : BitVec 8) (v : Byte) (s : State) : State := { s with buffer := Memory.put s.buffer i.toNat v }

/-- `s.buffer[x]` for an index counted by a loop. -/
def State.bufferAt (s : State) (x : Nat) : Byte := s.memRead (BitVec.ofNat 8 x)

/-- `s.buffer[x] <- v` for an index counted by a loop. -/
def State.fillAt (x : Nat) (v : Byte) (s : State) : State := s.memWrite (BitVec.ofNat 8 x) v

/-- `MemRead(i, n)` (00 R11). -/
def State.bufferBytes (s : State) (i n : Nat) : List Byte := (List.range n).map fun k => s.bufferAt (i + k)

/-! ### The host channel and the history -/

/-- Perform an observed event (60 R320). -/
def State.emit (e : Event) (s : State) : State := { s with history := s.history ++ [e] }

/-- `HostRead()` when it returns `b` (00 R12). The byte has been taken from the stream by the step; here the read is
performed and the position in the command moves on (10 R30). -/
def State.hostRead (b : Byte) (s : State) : State :=
  { s with history := s.history ++ [.hostRead b], got := s.got ++ [b] }

/-- `HostWrite(b)` (00 R12). -/
def State.hostWrite (b : Byte) (s : State) : State := s.emit (.hostWrite b)

/-- `HostWrite` of each byte in order. -/
def State.hostWrites (bs : List Byte) (s : State) : State := bs.foldl (fun s b => s.hostWrite b) s

/-- The bytes of a history written to the host, in order (00 R12). -/
def writtenBytes : List Event → List Byte
  | [] => []
  | .hostWrite b :: es => b :: writtenBytes es
  | .hostRead _ :: es => writtenBytes es
  | .bus _ _ :: es => writtenBytes es
  | .setDir _ _ :: es => writtenBytes es
  | .drive _ _ :: es => writtenBytes es
  | .delay _ :: es => writtenBytes es

/-- The reply stream (20 R60). -/
def State.replies (s : State) : List Byte := writtenBytes s.history

/-- The host sends bytes (00 R7, 60 R319). -/
def State.hostSend (bs : List Byte) (s : State) : State := { s with hostIn := s.hostIn ++ bs }

/-- The dispatcher phase (10 R30). -/
def State.phase (s : State) : Phase :=
  match s.got with
  | [] => .fetch
  | op :: _ => .inCommand op

/-- `phase <- Fetch`: the command ends (10 R30, 40 R130). -/
def State.endCommand (s : State) : State := { s with got := [] }

/-! ### Delays and the indicator -/

/-- `Delay(t)` (00 R12): at least `micros` microseconds, no upper bound (D25). -/
def State.delay (micros : Nat) (s : State) : State := s.emit (.delay micros)

/-- `Lamp(On | Off)` (00 R12), cosmetic and no observed event (D26). The progress counter moves to a free value. -/
def State.lamp (on : Bool) (s : State) : State :=
  { s with
    lampOn := on
    progressCounter := s.cfg.freeProgress s.draws s.history s.progressCounter on
    draws := s.draws + 1 }

/-- `T_SCK_DISCHARGE`, 20 ms (00 R8). -/
def tSckDischarge : Nat := 20000
/-- `T_RESET_PULSE`, 100 µs (00 R8). -/
def tResetPulse : Nat := 100
/-- `T_RESET_SETTLE`, 50 ms (00 R8). -/
def tResetSettle : Nat := 50000
/-- `T_COMMIT`, 20 ms (00 R8). -/
def tCommit : Nat := 20000
/-- `T_EE_BYTE`, 45 ms (00 R8). -/
def tEeByte : Nat := 45000

/-- The minimum duration of a history in microseconds: the sum of its delays (70 R342). -/
def minMicros : List Event → Nat
  | [] => 0
  | .delay t :: es => t + minMicros es
  | .hostRead _ :: es => minMicros es
  | .hostWrite _ :: es => minMicros es
  | .bus _ _ :: es => minMicros es
  | .setDir _ _ :: es => minMicros es
  | .drive _ _ :: es => minMicros es

/-! ### Lines (10 R28) -/

/-- The direction of a line; `MISO` is always Input. -/
def State.dirOf (s : State) : Pin → Dir
  | .reset => s.lines.reset.dir
  | .sck => s.lines.sck.dir
  | .mosi => s.lines.mosi.dir
  | .miso => .input

/-- The level the block drives onto a line; `none` while it does not drive it. -/
def State.driven (s : State) : Pin → Option Level
  | .reset => if s.lines.reset.dir = .output then some s.lines.reset.level else none
  | .sck => if s.lines.sck.dir = .output then some s.lines.sck.level else none
  | .mosi => if s.lines.mosi.dir = .output then some s.lines.mosi.level else none
  | .miso => none

/-- The lines with one direction set. -/
def Lines.setDir (p : Pin) (d : Dir) (l : Lines) : Lines :=
  match p with
  | .reset => { l with reset := { l.reset with dir := d } }
  | .sck => { l with sck := { l.sck with dir := d } }
  | .mosi => { l with mosi := { l.mosi with dir := d } }
  | .miso => l

/-- The lines with one level set. -/
def Lines.drive (p : Pin) (v : Level) (l : Lines) : Lines :=
  match p with
  | .reset => { l with reset := { l.reset with level := v } }
  | .sck => { l with sck := { l.sck with level := v } }
  | .mosi => { l with mosi := { l.mosi with level := v } }
  | .miso => l

/-- `SetDir(pin, d)` (00 R12). -/
def State.setDir (p : Pin) (d : Dir) (s : State) : State :=
  { s with lines := s.lines.setDir p d, history := s.history ++ [.setDir p d] }

/-- `Drive(pin, l)` (00 R12). -/
def State.drive (p : Pin) (v : Level) (s : State) : State :=
  { s with lines := s.lines.drive p v, history := s.history ++ [.drive p v] }

/-- The spec leaves the level of `MOSI` open from here on (43 R211, 91 N20): a free value. -/
def State.openMosi (s : State) : State :=
  { s with lines := s.lines.drive .mosi (s.cfg.freeMosi s.draws s.history), draws := s.draws + 1 }

/-- `bus_on <- b` (10 R29). -/
def State.setBus (b : Bool) (s : State) : State := { s with busOn := b }

/-- `mode <- m` (10 R25). -/
def State.setMode (m : Mode) (s : State) : State := { s with mode := m }

/-! ### The bus transaction (41_bus_engine) -/

/-- A bit as a line level. -/
def levelOf (b : Bool) : Level := if b then .high else .low

/-- Which bit of a byte is exchanged in the clock period after which `n` more follow (41 R173). -/
def bitIndex (o : BitOrder) (n : Nat) : Nat :=
  match o with
  | .msbFirst => n
  | .lsbFirst => 7 - n

/-- A sampled bit shifted into the byte being received: from the right where the most significant bit comes first, else
from the left. -/
def shiftIn (o : BitOrder) (r : Byte) (sampled : Bool) : Byte :=
  match o with
  | .msbFirst => (r <<< 1) ||| (if sampled then 1 else 0)
  | .lsbFirst => (r >>> 1) ||| (if sampled then 0x80 else 0)

/-- The last `n` clock periods of a byte (41 R173): in each, the next bit of `x` is presented on `MOSI`, and the level of
`MISO`, the same bit of the target's byte `m`, is sampled. Gives the levels presented and the byte received. -/
def shiftBits (o : BitOrder) (x m : Byte) : Nat → Byte → List Level × Byte
  | 0, r => ([], r)
  | n + 1, r =>
    let (ls, r') := shiftBits o x m n (shiftIn o r (m.getLsbD (bitIndex o n)))
    (levelOf (x.getLsbD (bitIndex o n)) :: ls, r')

/-- `ShiftByte(x)` (41 R173) with the target answering `m`. -/
def shiftByte (o : BitOrder) (x m : Byte) : List Level × Byte := shiftBits o x m 8 0

/-- The levels of `MOSI` over the 32 clock periods of a transaction (41 R170, R173). What is sampled has no part in them. -/
def mosiLevels (o : BitOrder) (out : Word) : List Level :=
  (wordBytes out).flatMap fun b => (shiftByte o b 0).1

/-- The four bytes shifted in, `r0` in bits 31:24 (41 R170), when the target answers `ans`. -/
def receivedWord (o : BitOrder) (out ans : Word) : Word :=
  word4 (shiftByte o (byteOf out 0) (byteOf ans 0)).2 (shiftByte o (byteOf out 1) (byteOf ans 1)).2
    (shiftByte o (byteOf out 2) (byteOf ans 2)).2 (shiftByte o (byteOf out 3) (byteOf ans 3)).2

/-- Is data sampled on the first edge of a clock period, away from the idle level? -/
def samplesFirst (m : BusMode) : Bool :=
  match m.idle, m.sampleOn with
  | .low, .rising => true
  | .low, .falling => false
  | .high, .rising => false
  | .high, .falling => true

/-- The two halves of a clock period that presents `l` (41 R173): where its first edge samples, `SCK` is idle while `l` is
set up and leaves idle at the sample; else it leaves idle as `l` is presented and returns at the sample. -/
def clockPeriod (m : BusMode) (l : Level) : List HalfPeriod :=
  if samplesFirst m then [⟨m.idle, l⟩, ⟨m.idle.flip, l⟩] else [⟨m.idle.flip, l⟩, ⟨m.idle, l⟩]

/-- The lines over a transaction with the bus on (41 R170, R173). -/
def busWave (cfg : Config) (out : Word) : List HalfPeriod := (mosiLevels cfg.bitOrder out).flatMap (clockPeriod cfg.busMode)

/-- What the target answers to the next transaction, `out` (41 R172): a listed answer, else a free value, which may depend
on everything sent so far. -/
def State.nextAnswer (s : State) (out : Word) : Word := s.targetIn.headD (s.cfg.targetWord s.draws s.history out)

/-- The lines after a transaction, `sent` being the events so far with it as the last. With the bus on, `SCK` is back at
its idle level (41 R173) and the level of `MOSI` is open (91 N20). With the bus off both levels are open (41 R174). What is
open may depend on all that was sent. No direction changes. -/
def busLines (sent : List Event) (s : State) : Lines :=
  let l := s.lines.drive .mosi (s.cfg.freeMosi s.draws sent)
  l.drive .sck (if s.busOn then s.cfg.busMode.idle else s.cfg.freeSck s.draws sent)

/-- `BusXfer(b0, b1, b2, b3)` with the four bytes as one word (41 R170, R171). It cannot fail; the result `r[3]` is in
`busResult`. With the bus off, what reaches the lines is open (41 R174) and may depend on all that was sent. -/
def State.busXfer (out : Word) (s : State) : State :=
  let inp := receivedWord s.cfg.bitOrder out (s.nextAnswer out)
  let sent := s.history ++ [.bus out inp]
  { s with
    history := sent
    busResult := byteOf inp 3
    wave := if s.busOn then busWave s.cfg out else s.cfg.freeWave s.draws sent
    targetIn := s.targetIn.tail
    lines := busLines sent s
    draws := s.draws + 1 }

/-! ### Errors and replies (40 R131, 60_exceptions) -/

/-- The error classes (60 R300). -/
inductive ErrorClass where
  | framing
  | capacity
  | unknownOpcode
  | outOfSync
  deriving DecidableEq, Repr

/-- The reply of each class (60 R300). -/
def errorReply : ErrorClass → List Byte
  | .framing => [nosync]
  | .capacity => [insync, failedByte]
  | .unknownOpcode => [insync, unknownByte]
  | .outOfSync => [nosync]

/-- The whole entry into an error: one increment, nothing saved, no mode change, no vector (60 R308; 10 R24). -/
def State.countError (s : State) : State := { s with errorCount := s.errorCount + 1 }

/-- The answer to an error, after which the command ends and the next byte is an opcode (60 R301, R309). -/
def State.answerError (e : ErrorClass) (s : State) : State := (s.hostWrites (errorReply e)).endCommand

/-- Raise an error that is counted and answered at once (60 R301, R304). -/
def State.raise (e : ErrorClass) (s : State) : State := s.countError.answerError e

/-- `ReplyOK(bytes)`, and the command ends (40 R131). -/
def State.replyOK (bytes : List Byte) (s : State) : State :=
  ((s.hostWrite insync).hostWrites bytes |>.hostWrite okByte).endCommand

/-- `CheckEOP()` when the byte at the EOP position is `eop` (00 R13): the command goes on if it is `EOP`, else a framing
error ends it. -/
def checkEop (eop : Byte) (goOn : State → Result) (s : State) : Result :=
  let t := s.hostRead eop
  if eop = eopByte then goOn t else .next (t.raise .framing)

/-- `refuse(...)` of a header (60 R306). -/
def refusalOf : HeaderStop → Refusal
  | .unknownTag => .unknownMemoryTag
  | .lengthOverBuffer => .flashLengthOverBuffer
  | .oddLength => .oddFlashLength

end Sys2Proof.Machine
end

