-- ==== Sys2Proof/Machine/Bus.lean ====
section
/-! DEFINITION. The bus transaction kinds (41_bus_engine section 2), each one call of `BusXfer` (R170). The delays that follow
a page write and an EEPROM write belong to their callers (41 R178, R181, R185). -/

namespace Sys2Proof.Machine

/-- BUS_PROG_ENABLE (41 R175): `mode` is the caller's to write. -/
def execBusProgEnable (s : State) : Result := .next (s.busXfer s.cfg.bus.progEnable)

/-- BUS_LOAD_LO (41 R176). -/
def execBusLoadLo (a : Half) (d : Byte) (s : State) : Result := .next (s.busXfer (busWord s.cfg.bus.loadLo a d))

/-- BUS_LOAD_HI (41 R177). -/
def execBusLoadHi (a : Half) (d : Byte) (s : State) : Result := .next (s.busXfer (busWord s.cfg.bus.loadHi a d))

/-- BUS_WRITE_PAGE (41 R178). -/
def execBusWritePage (p : Half) (s : State) : Result := .next (s.busXfer (busWord s.cfg.bus.writePage p 0))

/-- BUS_READ_LO (41 R179). -/
def execBusReadLo (a : Half) (s : State) : Result := .next (s.busXfer (busWord s.cfg.bus.readLo a 0))

/-- BUS_READ_HI (41 R180). -/
def execBusReadHi (a : Half) (s : State) : Result := .next (s.busXfer (busWord s.cfg.bus.readHi a 0))

/-- BUS_EE_WRITE (41 R181). -/
def execBusEeWrite (e : Half) (d : Byte) (s : State) : Result := .next (s.busXfer (busWord s.cfg.bus.eeWrite e d))

/-- BUS_EE_READ (41 R182). -/
def execBusEeRead (e : Half) (s : State) : Result :=
  .next (s.busXfer (busWord s.cfg.bus.eeRead e s.cfg.bus.eeReadFill))

/-- BUS_READ_SIG (41 R183). -/
def execBusReadSig (i : Byte) (s : State) : Result := .next (s.busXfer (word4 s.cfg.bus.readSig 0 i 0))

/-- BUS_UNIVERSAL (41 R184): the four bytes verbatim, no delay after it. -/
def execBusUniversal (b0 b1 b2 b3 : Byte) (s : State) : Result := .next (s.busXfer (word4 b0 b1 b2 b3))

end Sys2Proof.Machine
end

