-- ==== Sys2Proof/Machine/Operands.lean ====
section
/-! DEFINITION. Operand forms: the page function, EEPROM byte addresses, the parameter block's fields and the
get-parameter table. -/

namespace Sys2Proof.Machine

/-- How many low bits `current_page` clears (44 R230, R231, R232). -/
def pageBits (mode : PageMaskMode) (pageSize : Half) : Nat :=
  let doc := if pageSize = 32 then 5 else if pageSize = 64 then 6 else if pageSize = 128 then 7
    else if pageSize = 256 then 8 else 0
  match mode with
  | .docMask => doc
  | .byteSizedPage => doc - 1

/-- `current_page(a)` (44 R230): the low bits cleared. -/
def pageOf (mode : PageMaskMode) (pageSize a : Half) : Half := (a >>> pageBits mode pageSize) <<< pageBits mode pageSize

/-- `current_page(a)` with the state's page size and mask mode. -/
def State.currentPage (s : State) (a : Half) : Half := pageOf s.cfg.pageMaskMode s.params.pageSize a

/-- The EEPROM byte address of the `j`-th byte of a transfer (20 R62, 45 R267). -/
def State.eepromAddr (s : State) (j : Nat) : Half := 2 * s.address + BitVec.ofNat 16 j

/-- The capacity check (45 R261): only the length is compared. -/
def State.overCapacity (s : State) (len : Half) : Bool := decide (s.params.eepromSize < len)

/-- `GETPARAM(sub)` (30 R102). -/
def paramValue (cfg : Config) (sub : Byte) : Byte := (cfg.getParam.lookup sub).getD cfg.getParamDefault

/-- Byte `k` of a parameter block. -/
def blockByte (p : List Byte) (k : Nat) : Byte := p.getD k 0

/-- The fields of a parameter block (42 R190): big-endian (R191), offset 9 stored nowhere (R192), nothing checked (R195). -/
def decodeBlock (p : List Byte) : DeviceParams where
  deviceCode := blockByte p 0
  revision := blockByte p 1
  progType := blockByte p 2
  parMode := blockByte p 3
  polling := blockByte p 4
  selfTimed := blockByte p 5
  lockBytes := blockByte p 6
  fuseBytes := blockByte p 7
  flashPoll := blockByte p 8
  eepromPoll := half (blockByte p 10) (blockByte p 11)
  pageSize := half (blockByte p 12) (blockByte p 13)
  eepromSize := half (blockByte p 14) (blockByte p 15)
  flashSize := word4 (blockByte p 16) (blockByte p 17) (blockByte p 18) (blockByte p 19)

end Sys2Proof.Machine
end

