-- ==== Sys2Proof/Machine/Flags.lean ====
section
/-! DEFINITION. The block has no condition codes (10_state section 2); its flags are `mode` and `reset_active_high`. Here is
how the polarity flag is derived and what the sequencer makes of it. -/

namespace Sys2Proof.Machine

/-- `RESET_POLARITY_THRESHOLD` (00 R8). -/
def resetPolarityThreshold : Byte := 0xE0

/-- `device_code >= 0xE0`, unsigned (42 R193). -/
def polarityOf (deviceCode : Byte) : Bool := decide (resetPolarityThreshold ≤ deviceCode)

/-- `AssertLevel()`: High if `reset_active_high`, else Low (43 R210). -/
def State.assertLevel (s : State) : Level := levelOf s.resetActiveHigh

/-- `DeassertLevel()`, the other level (43 R210). -/
def State.deassertLevel (s : State) : Level := s.assertLevel.flip

end Sys2Proof.Machine
end

