-- ==== Sys2Proof/Machine/Sequencer.lean ====
section
/-! DEFINITION. The effects that several places share: the reset/clock sequencer (43_sequencer), the parameter decoder
(42_parameters), one chunk of the EEPROM writer (45_eeprom_writer). -/

namespace Sys2Proof.Machine

/-- `Drive(RESET, AssertLevel())` (43 R210). -/
def State.assertReset (s : State) : State := s.drive .reset s.assertLevel

/-- `Drive(RESET, DeassertLevel())` (43 R210). -/
def State.deassertReset (s : State) : State := s.drive .reset s.deassertLevel

/-- `EntrySequence()`, its five steps (43 R211 to R216). -/
def entrySequence (s : State) : State :=
  let step1 := (s.assertReset).setDir .reset .output
  let step2 := ((step1.setBus true).drive .sck .low).setDir .sck .output
  let step2 := ((step2.setDir .mosi .output).openMosi).delay tSckDischarge
  let step3 := (step2.deassertReset).delay tResetPulse
  let step4 := (step3.assertReset).delay tResetSettle
  (step4.busXfer s.cfg.bus.progEnable).setMode .programming

/-- `ExitSequence()` (43 R217 to R219). DESIGN CHOICE (log entry 29): where `RESET` is an input already, in `Idle` and
`Ended`, R217 never makes it an output, so the drive of the de-asserted level, R219's "for an instant", is the event and the
stored level only; `State.driven` says that the block drives nothing onto `RESET` throughout. -/
def exitSequence (s : State) : State :=
  let released := ((s.setBus false).setDir .mosi .input).setDir .sck .input
  ((released.deassertReset).setDir .reset .input).setMode .ended

/-- The effect of sign-on (40 R133). -/
def clearErrors (s : State) : State := { s with errorCount := 0 }

/-- `DecodeParameters(s.buffer[0..19])` (42 R190, R193, R194). -/
def decodeParameters (s : State) : State :=
  let d := decodeBlock (s.bufferBytes 0 paramLen)
  { s with params := d, resetActiveHigh := polarityOf d.deviceCode }

/-- The effect of enter-programming-mode (40 R138): nothing in Programming, else the entry sequence (D20). -/
def enterEffect (s : State) : State := if s.mode = .programming then s else entrySequence s

/-- The effect of set-address (40 R140): little-endian. -/
def setAddress (lo hi : Byte) (s : State) : State := { s with address := half hi lo }

/-- The effect of universal (40 R145): the four buffered bytes, verbatim. -/
def universalEffect (s : State) : State :=
  s.busXfer (word4 (s.bufferAt 0) (s.bufferAt 1) (s.bufferAt 2) (s.bufferAt 3))

/-- One EEPROM byte write and its settle delay (45 R263, 41 R181). -/
def writeEepromByte (e : Half) (d : Byte) (s : State) : State :=
  (s.busXfer (busWord s.cfg.bus.eeWrite e d)).delay tEeByte

/-- The writes of a chunk: `n` bytes of the buffer from index `x`, to rising addresses from `e` (45 R263). -/
def writeEepromBytes : Nat → Nat → Half → State → State
  | 0, _, _, s => s
  | n + 1, x, e, s => writeEepromBytes n (x + 1) (e + 1) (writeEepromByte e (s.bufferAt x) s)

/-- The second half of `WriteEepromChunk(start, n)`, once its `n` bytes are in the buffer (45 R263). -/
def writeEepromChunk (start : Half) (n : Nat) (s : State) : State := writeEepromBytes n 0 start s

end Sys2Proof.Machine
end

