-- ==== Sys2Proof/Machine/Receive.lean ====
section
/-! DEFINITION. What the engine does with the bytes of a command before its EOP position. `receiveByte` is one `HostRead` that
returns a byte and everything the engine then does until its next `HostRead`; the engine can only wait at a `HostRead`
(60 R317), so a command cut short by a silent host has had exactly these effects (40 R149, 60 R308). -/

namespace Sys2Proof.Machine

/-- An effect that comes before the EOP check under `EOP_ORDER = Legacy` only (40 R131, R132). -/
def early (effect : State → State) (s : State) : State := if s.cfg.eopOrder = .legacy then effect s else s

/-- After the opcode byte: an unknown opcode is counted here (40 R148); a command without payload is at its EOP position,
where `LEGACY_EARLY` effects happen (40 R131). -/
def afterOpcode (op : Byte) (s : State) : State :=
  match classify s.cfg op with
  | .unknown => s.countError
  | .signOn => early clearErrors s
  | .enter => early enterEffect s
  | .leave => early exitSequence s
  | .getSync => s
  | .getParam => s
  | .setParams => s
  | .setExt => s
  | .setAddr => s
  | .progFlash => s
  | .progData => s
  | .progPage => s
  | .readPage => s
  | .universal => s
  | .readSig => s
  | .bareEop => s

/-- After payload byte `j` of an accepted EEPROM program-page of `len` bytes: it fills the chunk's place in the buffer, and
the chunk's last byte starts the chunk's writes (45 R260, R262, R263). -/
def afterEepromByte (len : Half) (j : Nat) (b : Byte) (s : State) : State :=
  let t := s.fillAt (j % eeChunk) b
  if (j + 1) % eeChunk = 0 ∨ j + 1 = len.toNat then
    writeEepromChunk (s.eepromAddr (j - j % eeChunk)) (j % eeChunk + 1) t
  else t

/-- After a payload byte `b` of program-page, `pay` being the payload before it. At the tag, a capacity failure is counted
(45 R266, 60 R302, R307); the data of an accepted flash page fills the buffer (44 R238); that of an accepted EEPROM page
is written by chunks; that of a capacity failure is discarded (45 R266). -/
def afterPageByte (pay : List Byte) (b : Byte) (s : State) : State :=
  match pay with
  | [lh, ll] =>
    if b ≠ s.cfg.memtagFlash ∧ b = s.cfg.memtagEeprom ∧ s.overCapacity (half lh ll) then s.countError else s
  | lh :: ll :: tag :: data =>
    if tag = s.cfg.memtagFlash then s.fillAt data.length b
    else if s.overCapacity (half lh ll) then s
    else afterEepromByte (half lh ll) data.length b s
  | _ => s

/-- After a payload byte `b` of the command `op`, `pay` being the payload before it: the filling commands fill the buffer
from index 0 (10 R21), and the last payload byte brings the `LEGACY_EARLY` effects (40 R131). -/
def afterPayload (op : Byte) (pay : List Byte) (b : Byte) (s : State) : State :=
  match classify s.cfg op with
  | .setParams =>
    let t := s.fillAt pay.length b
    if pay.length + 1 = paramLen then early decodeParameters t else t
  | .setExt => s.fillAt pay.length b
  | .universal =>
    let t := s.fillAt pay.length b
    if pay.length + 1 = 4 then early universalEffect t else t
  | .setAddr =>
    match pay with
    | [lo] => early (setAddress lo b) s
    | _ => s
  | .progPage => afterPageByte pay b s
  | .signOn => s
  | .getSync => s
  | .getParam => s
  | .enter => s
  | .leave => s
  | .progFlash => s
  | .progData => s
  | .readPage => s
  | .readSig => s
  | .bareEop => s
  | .unknown => s

/-- One `HostRead` before the EOP position, and what follows it up to the next one. -/
def receiveByte (s : State) (b : Byte) : State :=
  match s.got with
  | [] => afterOpcode b (s.hostRead b)
  | op :: pay => afterPayload op pay b (s.hostRead b)

/-- The bytes of a frame before its EOP position, less those already read: none of them at a command's start, the first
`got.length` in a command that was held (40 R149). -/
def receive (bytes : List Byte) (s : State) : State := (bytes.drop s.got.length).foldl receiveByte s

/-- `Framed(effect)` of a command in `LEGACY_EARLY`, at its EOP position, and the reply of the bytes `result` reads off the
state after the effect (40 R131). Under Legacy the effect came before. -/
def framed (eop : Byte) (effect : State → State) (result : State → List Byte) (s : State) : Result :=
  checkEop eop (fun t =>
    let u := if t.cfg.eopOrder = .legacy then t else effect t
    .next (u.replyOK (result u))) s

/-- The EOP check and reply of a command with no effect of its own (40 R131). -/
def answered (eop : Byte) (result : State → List Byte) (s : State) : Result :=
  checkEop eop (fun t => .next (t.replyOK (result t))) s

end Sys2Proof.Machine
end

