-- ==== Sys2Proof/Machine/Readers.lean ====
section
/-! DEFINITION. The memory reader and the signature reader (46_reader_signature), and read-page (40 R144). -/

namespace Sys2Proof.Machine

/-- A transaction whose result goes to the host (46 R284). -/
def forward (out : Word) (s : State) : State :=
  let t := s.busXfer out
  t.hostWrite t.busResult

/-- One word of the flash reader: low byte, high byte, next word address (46 R280). -/
def readWord (s : State) : State :=
  let t := forward (busWord s.cfg.bus.readLo s.address 0) s
  let u := forward (busWord t.cfg.bus.readHi t.address 0) t
  { u with address := u.address + 1 }

/-- `n` words of the flash reader. -/
def readWords : Nat → State → State
  | 0, s => s
  | n + 1, s => readWords n (readWord s)

/-- `n` bytes of the EEPROM reader from byte address `e` (46 R281). -/
def readEeprom : Nat → Half → State → State
  | 0, _, s => s
  | n + 1, e, s => readEeprom n (e + 1) (forward (busWord s.cfg.bus.eeRead e s.cfg.bus.eeReadFill) s)

/-- One signature byte (41 R183, 46 R283). -/
def readSigByte (i : Byte) (s : State) : State := forward (word4 s.cfg.bus.readSig 0 i 0) s

/-- A streaming reply: `INSYNC` before the first transaction, `OK` after the last (46 R284). -/
def streamed (body : State → State) (s : State) : State := ((body (s.hostWrite insync)).hostWrite okByte).endCommand

/-- `FlashReadPage(L)` (46 R280); an odd length is refused (D12). -/
def flashReadPage (len : Half) (s : State) : Result :=
  if len.toNat % 2 = 1 then .refused .oddFlashLength
  else .next (streamed (readWords (len.toNat / 2)) s)

/-- `EepromReadPage(L)` (46 R281). -/
def eepromReadPage (len : Half) (s : State) : Result :=
  .next (streamed (readEeprom len.toNat (s.eepromAddr 0)) s)

/-- READ_PAGE_F (46 R280), after the EOP check of 40 R144. -/
def execReadPageF (len : Half) (eop : Byte) (s : State) : Result :=
  checkEop eop (flashReadPage len) (receive (pageHeader s.cfg.opcodes.readPage len s.cfg.memtagFlash) s)

/-- READ_PAGE_E (46 R281), after the EOP check of 40 R144. -/
def execReadPageE (len : Half) (eop : Byte) (s : State) : Result :=
  checkEop eop (eepromReadPage len) (receive (pageHeader s.cfg.opcodes.readPage len s.cfg.memtagEeprom) s)

/-- READ_PAGE (40 R144): the EOP check comes first, then the dispatch on the tag. -/
def execReadPage (len : Half) (tag eop : Byte) (s : State) : Result :=
  checkEop eop (fun t =>
    if tag = t.cfg.memtagFlash then flashReadPage len t
    else if tag = t.cfg.memtagEeprom then eepromReadPage len t
    else .refused .unknownMemoryTag)
    (receive (pageHeader s.cfg.opcodes.readPage len tag) s)

/-- READ_SIG (46 R283). -/
def execReadSig (eop : Byte) (s : State) : Result :=
  checkEop eop (fun t => .next (streamed (fun u => readSigByte 2 (readSigByte 1 (readSigByte 0 u))) t))
    (receive [s.cfg.opcodes.readSig] s)

end Sys2Proof.Machine
end

