-- ==== Sys2Proof/Machine/Session.lean ====
section
/-! DEFINITION. Session, identification, parameter, programming-mode, address, legacy and universal commands (40_dispatcher
sections 2 to 6 and 8). -/

namespace Sys2Proof.Machine

/-- SIGN_ON (40 R133). -/
def execSignOn (eop : Byte) (s : State) : Result :=
  framed eop clearErrors (fun _ => []) (receive [s.cfg.opcodes.signOn] s)

/-- GET_SYNC (40 R134). -/
def execGetSync (eop : Byte) (s : State) : Result :=
  answered eop (fun t => t.cfg.idString) (receive [s.cfg.opcodes.getSync] s)

/-- GET_PARAM (40 R135). -/
def execGetParam (sub eop : Byte) (s : State) : Result :=
  answered eop (fun t => [paramValue t.cfg sub]) (receive [s.cfg.opcodes.getParam, sub] s)

/-- SET_PARAMS (40 R136). -/
def execSetParams (p : List Byte) (eop : Byte) (s : State) : Result :=
  framed eop decodeParameters (fun _ => []) (receive (s.cfg.opcodes.setParams :: p) s)

/-- SET_EXT (40 R137). -/
def execSetExt (x : List Byte) (eop : Byte) (s : State) : Result :=
  answered eop (fun _ => []) (receive (s.cfg.opcodes.setExt :: x) s)

/-- ENTER_PMODE (40 R138). -/
def execEnterPmode (eop : Byte) (s : State) : Result :=
  framed eop enterEffect (fun _ => []) (receive [s.cfg.opcodes.enter] s)

/-- LEAVE_PMODE (40 R139): in every mode (D21). -/
def execLeavePmode (eop : Byte) (s : State) : Result :=
  framed eop exitSequence (fun _ => []) (receive [s.cfg.opcodes.leave] s)

/-- SET_ADDR (40 R140). -/
def execSetAddr (lo hi eop : Byte) (s : State) : Result :=
  framed eop (setAddress lo hi) (fun _ => []) (receive [s.cfg.opcodes.setAddr, lo, hi] s)

/-- PROG_FLASH (40 R141): a legacy no-op. -/
def execProgFlash (payload : List Byte) (eop : Byte) (s : State) : Result :=
  answered eop (fun _ => []) (receive (s.cfg.opcodes.progFlash :: payload) s)

/-- PROG_DATA (40 R142): a legacy no-op. -/
def execProgData (payload : List Byte) (eop : Byte) (s : State) : Result :=
  answered eop (fun _ => []) (receive (s.cfg.opcodes.progData :: payload) s)

/-- UNIVERSAL (40 R145): the reply carries `r3`. -/
def execUniversal (b0 b1 b2 b3 eop : Byte) (s : State) : Result :=
  framed eop universalEffect (fun t => [t.busResult]) (receive [s.cfg.opcodes.universal, b0, b1, b2, b3] s)

/-- BARE_EOP (40 R147, 60 R304): no further byte is read. -/
def execBareEop (s : State) : Result := .next ((s.hostRead eopByte).raise .outOfSync)

/-- UNKNOWN_OPCODE (40 R148, 60 R303): counted once, at the opcode byte. -/
def execUnknownOpcode (op b : Byte) (s : State) : Result :=
  let t := (receive [op] s).hostRead b
  .next (if b = eopByte then t.answerError .unknownOpcode else t.answerError .framing)

end Sys2Proof.Machine
end

