-- ==== Sys2Proof/Machine/Writers.lean ====
section
/-! DEFINITION. The flash writer (44_flash_writer) and the EEPROM writer (45_eeprom_writer), and program-page (40 R143). -/

namespace Sys2Proof.Machine

/-- `Commit(p)` (44 R233). -/
def commit (p : Half) (s : State) : State :=
  (((s.lamp false).busXfer (busWord s.cfg.bus.writePage p 0)).delay tCommit).lamp true

/-- One word of the flash writer: the low byte from `buffer[x]`, the high byte from `buffer[x+1]`, then the next word
address (44 R234, R236). -/
def loadWord (x : Nat) (s : State) : State :=
  let t := s.busXfer (busWord s.cfg.bus.loadLo s.address (s.bufferAt x))
  let u := t.busXfer (busWord t.cfg.bus.loadHi t.address (t.bufferAt (x + 1)))
  { u with address := u.address + 1 }

/-- The loop of `WriteFlashPages` over `n` words from `buffer[x]` (44 R234). `page` is the page tracker (10 R31); the
answer is its last value and the state. -/
def writeWords : Nat → Nat → Half → State → Half × State
  | 0, _, page, s => (page, s)
  | n + 1, x, page, s =>
    let here := s.currentPage s.address
    let t := if here ≠ page then commit page s else s
    writeWords n (x + 2) here (loadWord x t)

/-- `WriteFlashPages(L)` (44 R234): the tracker starts at the page of the starting address (R235), the final commit is
unconditional (R240). -/
def writeFlashPages (len : Nat) (s : State) : State :=
  let (page, t) := writeWords (len / 2) 0 (s.currentPage s.address) s
  commit page t

/-- `FlashProgramPage(L)` (44 R238, R239): the refusals come before any payload byte is read. -/
def flashProgramPage (len : Half) (data : List Byte) (eop : Byte) (s : State) : Result :=
  match headerStop s.cfg len s.cfg.memtagFlash with
  | some r => .refused (refusalOf r)
  | none =>
    checkEop eop (fun t => .next ((writeFlashPages len.toNat t).replyOK []))
      (receive (pageHeader s.cfg.opcodes.progPage len s.cfg.memtagFlash ++ data) s)

/-- `EepromProgramPage(L)` (45 R260): the writes come with the payload (R263, R265), then the EOP check, then the reply:
success, or the failed form where the capacity check failed (R266). -/
def eepromProgramPage (len : Half) (data : List Byte) (eop : Byte) (s : State) : Result :=
  checkEop eop (fun t => .next (if s.overCapacity len then t.answerError .capacity else t.replyOK []))
    (receive (pageHeader s.cfg.opcodes.progPage len s.cfg.memtagEeprom ++ data) s)

/-- PROG_PAGE_F (44 R238). -/
def execProgPageF (len : Half) (data : List Byte) (eop : Byte) (s : State) : Result := flashProgramPage len data eop s

/-- PROG_PAGE_E (45 R260). -/
def execProgPageE (len : Half) (data : List Byte) (eop : Byte) (s : State) : Result := eepromProgramPage len data eop s

/-- PROG_PAGE (40 R143): the header, then the dispatch on the tag. Where nothing follows the header (`none`) and it is not
refused, the engine holds for the next byte. -/
def execProgPage (len : Half) (tag : Byte) (body : Option (List Byte × Byte)) (s : State) : Result :=
  match headerStop s.cfg len tag with
  | some r => .refused (refusalOf r)
  | none =>
    match body with
    | some (data, eop) =>
      if tag = s.cfg.memtagFlash then flashProgramPage len data eop s else eepromProgramPage len data eop s
    | none => .next (receive (pageHeader s.cfg.opcodes.progPage len tag) s)

end Sys2Proof.Machine
end

