-- ==== Sys2Proof/Machine/Dispatch.lean ====
section
/-! DEFINITION. One arm per instruction (40 R130 for the host commands, 41 section 2 for the transactions). -/

namespace Sys2Proof.Machine

def exec (i : Instr) (s : State) : Host.Outcome State Fault Refusal :=
  match i with
  | .signOn eop => Sys2Proof.Machine.execSignOn eop s
  | .getSync eop => Sys2Proof.Machine.execGetSync eop s
  | .getParam sub eop => Sys2Proof.Machine.execGetParam sub eop s
  | .setParams p eop => Sys2Proof.Machine.execSetParams p eop s
  | .setExt x eop => Sys2Proof.Machine.execSetExt x eop s
  | .enterPmode eop => Sys2Proof.Machine.execEnterPmode eop s
  | .leavePmode eop => Sys2Proof.Machine.execLeavePmode eop s
  | .setAddr lo hi eop => Sys2Proof.Machine.execSetAddr lo hi eop s
  | .universal b0 b1 b2 b3 eop => Sys2Proof.Machine.execUniversal b0 b1 b2 b3 eop s
  | .progFlash payload eop => Sys2Proof.Machine.execProgFlash payload eop s
  | .progData payload eop => Sys2Proof.Machine.execProgData payload eop s
  | .progPage len tag body => Sys2Proof.Machine.execProgPage len tag body s
  | .progPageF len data eop => Sys2Proof.Machine.execProgPageF len data eop s
  | .progPageE len data eop => Sys2Proof.Machine.execProgPageE len data eop s
  | .readPage len tag eop => Sys2Proof.Machine.execReadPage len tag eop s
  | .readPageF len eop => Sys2Proof.Machine.execReadPageF len eop s
  | .readPageE len eop => Sys2Proof.Machine.execReadPageE len eop s
  | .readSig eop => Sys2Proof.Machine.execReadSig eop s
  | .bareEop => Sys2Proof.Machine.execBareEop s
  | .unknownOpcode op b => Sys2Proof.Machine.execUnknownOpcode op b s
  | .busProgEnable => Sys2Proof.Machine.execBusProgEnable s
  | .busLoadLo a d => Sys2Proof.Machine.execBusLoadLo a d s
  | .busLoadHi a d => Sys2Proof.Machine.execBusLoadHi a d s
  | .busWritePage p => Sys2Proof.Machine.execBusWritePage p s
  | .busReadLo a => Sys2Proof.Machine.execBusReadLo a s
  | .busReadHi a => Sys2Proof.Machine.execBusReadHi a s
  | .busEeWrite e d => Sys2Proof.Machine.execBusEeWrite e d s
  | .busEeRead e => Sys2Proof.Machine.execBusEeRead e s
  | .busReadSig idx => Sys2Proof.Machine.execBusReadSig idx s
  | .busUniversal b0 b1 b2 b3 => Sys2Proof.Machine.execBusUniversal b0 b1 b2 b3 s

end Sys2Proof.Machine
end

