-- ==== Sys2Proof/Machine/Stream.lean ====
section
/-! DEFINITION. What the step fetches: the next frame of the host stream, the hold, and where an instruction of the table is
placed so that the next step runs it. -/

namespace Sys2Proof.Machine

/-- The frame at the head of the host stream: the bytes of the command in progress already read, then the unread ones
(30 R93, 40 R149). -/
def State.nextFrame (s : State) : Decoded := decode s.cfg s.params.eepromSize (s.got ++ s.hostIn)

/-- The engine reads what bytes there are of an unfinished frame and holds for the next one (40 R149). With no byte it only
waits: nothing changes (60 R317). -/
def State.hold (s : State) : State := s.hostIn.foldl receiveByte { s with hostIn := [] }

/-- The bytes of the first frame in a byte list; all of them where there is no whole frame. -/
def firstFrame (cfg : Config) (ee : Half) (bs : List Byte) : List Byte :=
  match decode cfg ee bs with
  | .frame _ rest => bs.take (bs.length - rest.length)
  | .incomplete => bs

/-- The state with an instruction of the table as the next one fetched. A transaction (32 bits) is handed to the bus
engine; a frame stands at the head of the host stream, the engine between two commands with no transaction handed over. -/
def placeWord (s : State) (nbits w : Nat) : State :=
  if nbits = 32 then { s with busCalls := BitVec.ofNat 32 w :: s.busCalls }
  else
    { s with
      busCalls := []
      got := []
      hostIn := firstFrame s.cfg s.params.eepromSize (tableBytes nbits w) ++ s.hostIn }

end Sys2Proof.Machine
end

