-- ==== Sys2Proof/Machine/Step.lean ====
section
/-! DEFINITION. One step. A transaction handed to the bus engine is performed; else the command whose frame is at hand runs to
its end (40 R130, R150); else the engine reads what there is of the frame and holds (40 R149). -/

namespace Sys2Proof.Machine

/-- One step of the machine. -/
def step (s : State) : Host.Outcome State Fault Refusal :=
  match s.busCalls with
  | w :: ws => exec (decodeBus s.cfg w) { s with busCalls := ws }
  | [] =>
    match s.nextFrame with
    | .frame i rest => exec i { s with hostIn := rest }
    | .incomplete => .next s.hold

/-- The state with an instruction of spec/opcode_table.json where `step` fetches its next one (log entry 16). -/
def State.withFetchWord (s : State) (nbits w : Nat) : State := placeWord s nbits w

end Sys2Proof.Machine
end

