-- ==== Sys2Proof/WellFormed.lean ====
section
/-! DEFINITION. Which parameters and which instructions are well formed: what the decoder can give, field by field. -/

namespace Sys2Proof

/-- The fourteen `OPC_*` values (30 R97). -/
def Opcodes.toList (o : Opcodes) : List Byte :=
  [o.signOn, o.getSync, o.getParam, o.setParams, o.setExt, o.enter, o.leave, o.setAddr, o.progFlash, o.progData,
    o.progPage, o.readPage, o.universal, o.readSig]

/-- The nine command bytes of the transaction kinds (30 R96). -/
def BusBytes.toList (b : BusBytes) : List Byte :=
  [byteOf b.progEnable 0, b.loadLo, b.loadHi, b.writePage, b.readLo, b.readHi, b.eeWrite, b.eeRead, b.readSig]

/-- The constraints on a choice of parameters: opcode values pairwise distinct and none `EOP` (30 R98), distinct memory
tags (D2; log entry 2). -/
abbrev Config.WellFormed (cfg : Config) : Prop :=
  (eopByte :: cfg.opcodes.toList).Nodup ∧ cfg.memtagFlash ≠ cfg.memtagEeprom

/-- The command bytes of the transaction kinds are distinct. No rule asks it of the free `BUS_*` parameters (D3); it is a
premise of what tells one kind of transaction from another by its first byte (log entry 3). -/
abbrev Config.BusDistinct (cfg : Config) : Prop := cfg.bus.toList.Nodup

/-- Four bytes that fit no named row of 30 R96. -/
abbrev RawBusWord (cfg : Config) (b0 b1 b2 b3 : Byte) : Prop :=
  word4 b0 b1 b2 b3 ≠ cfg.bus.progEnable ∧ b0 ≠ cfg.bus.loadLo ∧ b0 ≠ cfg.bus.loadHi ∧
    ¬(b0 = cfg.bus.writePage ∧ b3 = 0) ∧ ¬(b0 = cfg.bus.readLo ∧ b3 = 0) ∧ ¬(b0 = cfg.bus.readHi ∧ b3 = 0) ∧
    b0 ≠ cfg.bus.eeWrite ∧ ¬(b0 = cfg.bus.eeRead ∧ b3 = cfg.bus.eeReadFill) ∧
    ¬(b0 = cfg.bus.readSig ∧ b1 = 0 ∧ b2 ≤ 2 ∧ b3 = 0)

/-- The length of a page fits the session buffer and is whole words (44 R239). -/
abbrev FlashLength (len : Half) : Prop := len.toNat ≤ bufSize ∧ len.toNat % 2 = 0

/-- An instruction the decoder can give with these parameters and this negotiated EEPROM size `ee`. -/
abbrev Instr.WellFormed (cfg : Config) (ee : Half) (i : Instr) : Prop :=
  match i with
  | .signOn _ => True
  | .getSync _ => True
  | .getParam _ _ => True
  | .setParams p _ => p.length = paramLen
  | .setExt x _ => x.length = extParamLen
  | .enterPmode _ => True
  | .leavePmode _ => True
  | .setAddr _ _ _ => True
  | .universal _ _ _ _ _ => True
  | .progFlash d _ => d.length = cfg.legacyFlashLen
  | .progData d _ => d.length = cfg.legacyDataLen
  | .progPage len tag body =>
    body = none ∧ tag ≠ cfg.memtagEeprom ∧ ¬(tag = cfg.memtagFlash ∧ FlashLength len)
  | .progPageF len d _ => FlashLength len ∧ d.length = len.toNat
  | .progPageE len d _ => d.length = eepromPayloadLen cfg ee len
  | .readPage _ tag _ => tag ≠ cfg.memtagFlash ∧ tag ≠ cfg.memtagEeprom
  | .readPageF _ _ => True
  | .readPageE _ _ => True
  | .readSig _ => True
  | .bareEop => True
  | .unknownOpcode op _ => op ≠ eopByte ∧ op ∉ cfg.opcodes.toList
  | .busProgEnable => True
  | .busLoadLo _ _ => True
  | .busLoadHi _ _ => True
  | .busWritePage _ => True
  | .busReadLo _ => True
  | .busReadHi _ => True
  | .busEeWrite _ _ => True
  | .busEeRead _ => True
  | .busReadSig i => i ≤ 2
  | .busUniversal b0 b1 b2 b3 => RawBusWord cfg b0 b1 b2 b3

/-- Is it a bus transaction (the second kind of 00 R2)? -/
def Instr.isBus : Instr → Bool
  | .signOn _ => false
  | .getSync _ => false
  | .getParam _ _ => false
  | .setParams _ _ => false
  | .setExt _ _ => false
  | .enterPmode _ => false
  | .leavePmode _ => false
  | .setAddr _ _ _ => false
  | .universal _ _ _ _ _ => false
  | .progFlash _ _ => false
  | .progData _ _ => false
  | .progPage _ _ _ => false
  | .progPageF _ _ _ => false
  | .progPageE _ _ _ => false
  | .readPage _ _ _ => false
  | .readPageF _ _ => false
  | .readPageE _ _ => false
  | .readSig _ => false
  | .bareEop => false
  | .unknownOpcode _ _ => false
  | .busProgEnable => true
  | .busLoadLo _ _ => true
  | .busLoadHi _ _ => true
  | .busWritePage _ => true
  | .busReadLo _ => true
  | .busReadHi _ => true
  | .busEeWrite _ _ => true
  | .busEeRead _ => true
  | .busReadSig _ => true
  | .busUniversal _ _ _ _ => true

end Sys2Proof
end

