-- ==== Sys2Proof/Safety.lean ====
section
/-! DEFINITION. The terms in which claims speak of a run: the laws on its parameters, its end, its host's duty, and the
invariants of the machine. -/

namespace Sys2Proof

/-- `T_RESET_PULSE >= 2 / F_TARGET_MIN`, the law on the parameters of 43 R214: the pulse, in microseconds, is at least two
periods of the slowest supported target clock, in Hz. -/
abbrev Config.PulseLaw (cfg : Config) : Prop := 2 * 1000000 ≤ Machine.tResetPulse * cfg.fTargetMin

/-- How many microseconds the 32 clock periods of a transaction take at `BUS_CLOCK_HZ`, where that is given; an event takes
no time in the model (41 R185; log entry 20). -/
def Config.shiftMicros (cfg : Config) : Option Nat := cfg.busClockHz.map fun hz => 32 * 1000000 / hz

/-- The commands of `LEGACY_EARLY`, whose effects come before their EOP check under Legacy (40 R132). -/
def Command.legacyEarly : Command → Bool
  | .signOn => true
  | .setParams => true
  | .enter => true
  | .leave => true
  | .setAddr => true
  | .universal => true
  | .bareEop => false
  | .unknown => false
  | .getSync => false
  | .getParam => false
  | .setExt => false
  | .progFlash => false
  | .progData => false
  | .progPage => false
  | .readPage => false
  | .readSig => false

namespace Machine

/-- A run is complete: between commands with no byte left to read (60 R320). -/
abbrev State.Complete (s : State) : Prop := s.phase = .fetch ∧ s.hostIn = []

/-- A run is stalled: the engine holds in a `HostRead` inside a command (60 R320, 40 R149). -/
abbrev State.Stalled (s : State) : Prop := s.phase ≠ .fetch ∧ s.hostIn = []

/-- A step is refused (60 R306, R320). -/
abbrev Refused (r : Result) : Prop := ∃ why, r = .refused why

/-- The host's duty toward the serial channel (60 R319, 70 R338): never more unread bytes than `RX_FIFO_DEPTH`, where that
is given. What becomes of a run whose host breaks it is not modelled (log entry 21). -/
abbrev State.HostMaySend (s : State) (n : Nat) : Prop :=
  match s.cfg.rxFifoDepth with
  | some d => s.hostIn.length + n ≤ d
  | none => True

/-- Who drives the lines (10 R25, R28, R29; 60 R313): in Programming the bus is on and `RESET`, `SCK`, `MOSI` are outputs
with `SCK` at the idle level of `BUS_MODE` between transactions (41 R173; log entry 25); otherwise the bus is off and the
block drives no line. -/
abbrev State.LinesOwned (s : State) : Prop :=
  if s.mode = .programming then
    s.busOn = true ∧ s.dirOf .reset = .output ∧ s.driven .sck = some s.cfg.busMode.idle ∧ s.dirOf .mosi = .output
  else
    s.busOn = false ∧ s.dirOf .reset = .input ∧ s.dirOf .sck = .input ∧ s.dirOf .mosi = .input

/-- The polarity is that of the device code, or neither has been negotiated (42 R193; 10 R35). -/
abbrev State.PolarityOfDevice (s : State) : Prop := s.resetActiveHigh = polarityOf s.params.deviceCode

/-- The engine stands at a `HostRead`: what it has read of a command is no whole frame (10 R30, 40 R151). -/
abbrev State.AtHostRead (s : State) : Prop := decode s.cfg s.params.eepromSize s.got = .incomplete

/-- The transactions of a history, oldest first: what went out. -/
def busWords : List Event → List Word
  | [] => []
  | .bus out _ :: es => out :: busWords es
  | .hostWrite _ :: es => busWords es
  | .hostRead _ :: es => busWords es
  | .setDir _ _ :: es => busWords es
  | .drive _ _ :: es => busWords es
  | .delay _ :: es => busWords es

/-- The host bytes read in a history, oldest first. -/
def readBytes : List Event → List Byte
  | [] => []
  | .hostRead b :: es => b :: readBytes es
  | .hostWrite _ :: es => readBytes es
  | .bus _ _ :: es => readBytes es
  | .setDir _ _ :: es => readBytes es
  | .drive _ _ :: es => readBytes es
  | .delay _ :: es => readBytes es

/-! ### The vocabulary of the statements -/

/-- The engine between two commands, with lawful parameters (30 R98) and a buffer in its canonical form. -/
abbrev State.Ready (s : State) : Prop := s.cfg.WellFormed ∧ s.got = [] ∧ Memory.wf s.buffer

/-- Host bytes read, in order. -/
def reads (bs : List Byte) : List Event := bs.map .hostRead

/-- Reply bytes written, in order. -/
def writes (bs : List Byte) : List Event := bs.map .hostWrite

/-- The success form of a reply (30 R91). -/
def okReply (bs : List Byte) : List Byte := insync :: (bs ++ [okByte])

/-- The reply forms other than success (30 R91). -/
def errorForms : List (List Byte) := [[insync, failedByte], [nosync], [insync, unknownByte]]

/-- A synced command with no other effect: the bytes read, the success reply (40 R131). -/
def State.synced (s : State) (bytes reply : List Byte) : State :=
  { s with history := s.history ++ reads (bytes ++ [eopByte]) ++ writes (okReply reply) }

/-- A framing error with no other effect: the bytes read, `e` among them last, one count and `NOSYNC` (60 R301). -/
def State.misframed (s : State) (bytes : List Byte) (e : Byte) : State :=
  { s with
    errorCount := s.errorCount + 1
    history := s.history ++ reads (bytes ++ [e]) ++ writes [nosync] }

/-- The events of a command in `LEGACY_EARLY` up to its effect's end: the bytes before the EOP position, the byte `e` found
there, and the events of the effect, which come last, or before `e` under Legacy (40 R131, R132). -/
def effectEvents (cfg : Config) (before : List Byte) (e : Byte) (effect : List Event) : List Event :=
  if cfg.eopOrder = .legacy then reads before ++ effect ++ reads [e] else reads (before ++ [e]) ++ effect

/-- The buffer `m`, in its canonical form, holds `bs` from index 0 upward, and elsewhere what `s` holds (10 R21). -/
abbrev State.Filled (s : State) (bs : List Byte) (m : Memory) : Prop :=
  Memory.wf m ∧ ∀ i : BitVec 8, Memory.get m i.toNat = if i.toNat < bs.length then bs.getD i.toNat 0 else s.memRead i

/-- `ans k` is a possible answer of the target to the `k`-th transaction from here (41 R172): the listed one, any word where
none is listed. -/
abbrev State.Answers (s : State) (ans : Nat → Word) : Prop := ∀ k a, s.targetIn[k]? = some a → ans k = a

/-- The lines where only transactions have come since `s`: `RESET` and every direction are as they were, and with the bus on
`SCK` is at its idle level unless no transaction came (41 R173, R174; log entry 25). -/
abbrev State.BusLinesOnly (s : State) (l : Lines) : Prop :=
  l.reset = s.lines.reset ∧ l.sck.dir = s.lines.sck.dir ∧ l.mosi.dir = s.lines.mosi.dir ∧
    (s.busOn = true → l.sck.level = s.cfg.busMode.idle ∨ l.sck = s.lines.sck)

/-- `v` is what a transaction `w` put on `SCK` and `MOSI` (41 R173); anything with the bus off (41 R174). -/
abbrev State.WaveOf (s : State) (w : Word) (v : List HalfPeriod) : Prop := s.busOn = true → v = busWave s.cfg w

/-- `r` is the state after one transaction `w` and nothing else (41 R170, R171): one event, the last byte shifted in, one
answer taken, and the lines clocked. -/
abbrev State.Transacts (s : State) (w : Word) (r : Result) : Prop :=
  ∃ ans v l d, s.Answers ans ∧ s.WaveOf w v ∧ s.BusLinesOnly l ∧
    r = .next { s with
      history := s.history ++ [.bus w (ans 0)]
      busResult := byteOf (ans 0) 3
      wave := v
      targetIn := s.targetIn.tail
      lines := l
      draws := d }

/-- An event without what the target answered. -/
def Event.sent : Event → Event
  | .bus out _ => .bus out 0
  | .hostRead b => .hostRead b
  | .hostWrite b => .hostWrite b
  | .setDir p d => .setDir p d
  | .drive p l => .drive p l
  | .delay t => .delay t

/-- A commit of page `p`: its transaction and the settle delay (44 R233). -/
def commitSent (cfg : Config) (p : Half) : List Event := [.bus (busWord cfg.bus.writePage p 0) 0, .delay 20000]

/-- The address and the page of the `k`-th word of a flash transfer (44 R236). -/
def State.wordAddr (s : State) (k : Nat) : Half := s.address + BitVec.ofNat 16 k

/-- The page of the `k`-th word of a flash transfer (44 R230). -/
def State.wordPage (s : State) (k : Nat) : Half := s.currentPage (s.wordAddr k)

/-- Does a page begin at the `k`-th word, the first excepted (44 R237)? -/
abbrev State.turnsPage (s : State) (k : Nat) : Prop := k ≠ 0 ∧ s.wordPage k ≠ s.wordPage (k - 1)

/-- What the flash writer sends for the data `d` (44 R234, R241): for each word, a commit of the previous page where a page
begins, the low-byte load and the high-byte load; then the commit of the last word's page. -/
def State.flashSent (s : State) (d : List Byte) : List Event :=
  (List.range (d.length / 2)).flatMap (fun k =>
      (if s.turnsPage k then commitSent s.cfg (s.wordPage (k - 1)) else []) ++
        [.bus (busWord s.cfg.bus.loadLo (s.wordAddr k) (d.getD (2 * k) 0)) 0,
          .bus (busWord s.cfg.bus.loadHi (s.wordAddr k) (d.getD (2 * k + 1) 0)) 0])
    ++ commitSent s.cfg (s.wordPage (d.length / 2 - 1))

/-- What the EEPROM writer sends for byte `j` of its data (45 R263, R267). -/
def State.eepromSent (s : State) (j : Nat) (b : Byte) : List Event :=
  [.bus (busWord s.cfg.bus.eeWrite (2 * s.address + BitVec.ofNat 16 j) b) 0, .delay 45000]

/-- The events of an EEPROM write of the data `d`, chunk by chunk (45 R262, R263): a chunk's bytes are read, then written. -/
def State.eepromEvents (s : State) (d : List Byte) : List Event :=
  (List.range ((d.length + 31) / 32)).flatMap fun c =>
    reads ((d.drop (32 * c)).take 32) ++
      (List.range ((d.drop (32 * c)).take 32).length).flatMap fun i =>
        s.eepromSent (32 * c + i) (d.getD (32 * c + i) 0)

/-- The events of a flash read of `n` words (46 R280, R284). -/
def State.flashReadEvents (s : State) (ans : Nat → Word) (n : Nat) : List Event :=
  (List.range n).flatMap fun k =>
    [.bus (busWord s.cfg.bus.readLo (s.wordAddr k) 0) (ans (2 * k)), .hostWrite (byteOf (ans (2 * k)) 3),
      .bus (busWord s.cfg.bus.readHi (s.wordAddr k) 0) (ans (2 * k + 1)), .hostWrite (byteOf (ans (2 * k + 1)) 3)]

/-- The events of an EEPROM read of `n` bytes (46 R281, R284). -/
def State.eepromReadEvents (s : State) (ans : Nat → Word) (n : Nat) : List Event :=
  (List.range n).flatMap fun j =>
    [.bus (busWord s.cfg.bus.eeRead (2 * s.address + BitVec.ofNat 16 j) s.cfg.bus.eeReadFill) (ans j),
      .hostWrite (byteOf (ans j) 3)]

/-- The class of the command whose bytes are at hand (40 R130). -/
def State.openCommand (s : State) : Command := classify s.cfg ((s.got ++ s.hostIn).headD 0)

/-- How many errors reading the bytes `bs` of a command counts: one for an unknown opcode, at the opcode (40 R148), one for
a capacity failure, at the tag (45 R266). -/
def State.counted (s : State) : List Byte → Nat
  | [] => 0
  | op :: pay =>
    match classify s.cfg op, pay with
    | .unknown, _ => 1
    | .progPage, lh :: ll :: tag :: _ =>
      if tag ≠ s.cfg.memtagFlash ∧ tag = s.cfg.memtagEeprom ∧ s.overCapacity (half lh ll) then 1 else 0
    | _, _ => 0

/-- The bytes at hand are inside an accepted EEPROM program-page, past its header (45 R260). -/
abbrev State.InEepromPage (s : State) : Prop :=
  ∃ op lh ll data, s.got ++ s.hostIn = op :: lh :: ll :: s.cfg.memtagEeprom :: data ∧ classify s.cfg op = .progPage ∧
    s.overCapacity (half lh ll) = false

/-- How many pages a history commits: its transactions with the page-write command byte (44 R233, R237). -/
def commitCount (cfg : Config) (es : List Event) : Nat :=
  (busWords es).countP fun w => byteOf w 0 = cfg.bus.writePage

end Machine

end Sys2Proof
end

