-- ==== Sys2Proof/Certificates/Slice0/Obligations.lean ====
section
/-! DEFINITION. The statements: each formalises what the rules of spec/ named in its docstring say. -/

open Sys2Proof Sys2Proof.Machine

/-! ### Encoding -/

/-- 30 R90, R92, R94: every well-formed host command is read back from its frame, operands and all, and the bytes after
it are left. -/
def Obligations.HostFrameRoundTrip : Prop :=
  ∀ (cfg : Config) (ee : Half) (i : Instr) (rest : List Byte),
    cfg.WellFormed → i.WellFormed cfg ee → i.isBus = false →
      decode cfg ee (encode cfg i ++ rest) = .frame i rest

/-- 30 R90, R92: a frame that is read has exactly the bytes of the instruction it gives, which is well formed. -/
def Obligations.FrameIsItsBytes : Prop :=
  ∀ (cfg : Config) (ee : Half) (bs rest : List Byte) (i : Instr), cfg.WellFormed →
    decode cfg ee bs = .frame i rest →
      bs = encode cfg i ++ rest ∧ i.isBus = false ∧ i.WellFormed cfg ee

/-- 30 R95, R96: every well-formed transaction is read back from its word, whose four bytes go out from bits 31:24 down;
distinct command bytes are a premise, which no rule asks (log entry 3). -/
def Obligations.BusWordRoundTrip : Prop :=
  ∀ (cfg : Config) (ee : Half) (i : Instr), cfg.BusDistinct → i.WellFormed cfg ee → i.isBus = true →
    decodeBus cfg (encodeBus cfg i) = i ∧
      encode cfg i = [(encodeBus cfg i).extractLsb' 24 8, (encodeBus cfg i).extractLsb' 16 8,
        (encodeBus cfg i).extractLsb' 8 8, (encodeBus cfg i).extractLsb' 0 8]

/-- 30 R96, 41 R184: every word is the word of one well-formed transaction (which row a word of several rows is read as:
log entry 24). -/
def Obligations.EveryWordIsATransaction : Prop :=
  ∀ (cfg : Config) (ee : Half) (w : Word),
    (decodeBus cfg w).isBus = true ∧ (decodeBus cfg w).WellFormed cfg ee ∧ encodeBus cfg (decodeBus cfg w) = w

/-- 30 R93: the opcode byte alone decides the frame length of every command but program-page, whose accepted frame has
`3 + L` payload bytes (the EEPROM capacity failure that consumes nothing, log entry 6, excepted). -/
def Obligations.FrameLengthFixedByOpcode : Prop :=
  ∀ (cfg : Config) (op : Byte),
    (classify cfg op ≠ .progPage → ∃ n, ∀ (ee : Half) (bs : List Byte),
      (decode cfg ee (op :: bs) = .incomplete ↔ bs.length < n) ∧
        ∀ i rest, decode cfg ee (op :: bs) = .frame i rest → bs.length = n + rest.length) ∧
    (classify cfg op = .progPage → cfg.capacityFailConsumes = true →
      ∀ (ee : Half) (lh ll tag : Byte) (bs : List Byte), headerStop cfg (half lh ll) tag = none →
        (decode cfg ee (op :: lh :: ll :: tag :: bs) = .incomplete ↔ bs.length < 256 * lh.toNat + ll.toNat + 1) ∧
          ∀ i rest, decode cfg ee (op :: lh :: ll :: tag :: bs) = .frame i rest →
            bs.length = 256 * lh.toNat + ll.toNat + 1 + rest.length)

/-- 30 R92, R96, R97, R103: frames and words written out from the tables, one or more of each family, with the default
bytes, which the spec takes from general knowledge (log entries 1, 2, 3). -/
def Obligations.SampleEncodings : Prop :=
  decode defaultConfig 0 [0x30, 0x20] = .frame (.signOn 0x20) [] ∧
  decode defaultConfig 0 [0x41, 0x81, 0x20] = .frame (.getParam 0x81 0x20) [] ∧
  decode defaultConfig 0 [0x45, 0x05, 0x04, 0xD7, 0xC2, 0x00, 0x20] =
    .frame (.setExt [0x05, 0x04, 0xD7, 0xC2, 0x00] 0x20) [] ∧
  decode defaultConfig 0 [0x50, 0x20, 0x51, 0x20] = .frame (.enterPmode 0x20) [0x51, 0x20] ∧
  decode defaultConfig 0 [0x55, 0x10, 0x00, 0x20] = .frame (.setAddr 0x10 0x00 0x20) [] ∧
  decode defaultConfig 0 [0x60, 0xAA, 0x55, 0x20] = .frame (.progFlash [0xAA, 0x55] 0x20) [] ∧
  decode defaultConfig 0 [0x64, 0x00, 0x02, 0x46, 0xAA, 0x55, 0x20] = .frame (.progPageF 2 [0xAA, 0x55] 0x20) [] ∧
  decode defaultConfig 512 [0x64, 0x00, 0x02, 0x45, 0x11, 0x22, 0x20] = .frame (.progPageE 2 [0x11, 0x22] 0x20) [] ∧
  decode defaultConfig 0 [0x74, 0x00, 0x04, 0x46, 0x20] = .frame (.readPageF 4 0x20) [] ∧
  decode defaultConfig 0 [0x56, 0x30, 0x00, 0x00, 0x00, 0x20] = .frame (.universal 0x30 0x00 0x00 0x00 0x20) [] ∧
  decode defaultConfig 0 [0x20, 0x30] = .frame .bareEop [0x30] ∧
  decode defaultConfig 0 [0xFF, 0x20] = .frame (.unknownOpcode 0xFF 0x20) [] ∧
  decodeBus defaultConfig 0xAC530000 = .busProgEnable ∧
  decodeBus defaultConfig 0x400123AA = .busLoadLo 0x0123 0xAA ∧
  decodeBus defaultConfig 0x4C004000 = .busWritePage 0x0040 ∧
  decodeBus defaultConfig 0xA00021FF = .busEeRead 0x0021 ∧
  decodeBus defaultConfig 0xA0000000 = .busUniversal 0xA0 0x00 0x00 0x00 ∧
  decodeBus defaultConfig 0x30000200 = .busReadSig 2

/-! ### Steps -/

/-- 40 R130, 30 R93 (the grain of a step: log entry 14): when the bytes at hand, those of a held command first, are the
frame of a well-formed command, the step is that command with the frame taken off the stream. -/
def Obligations.StepRunsTheDecodedFrame : Prop :=
  ∀ (s : State) (i : Instr) (rest : List Byte),
    s.cfg.WellFormed → i.WellFormed s.cfg s.params.eepromSize → i.isBus = false → s.busCalls = [] →
      s.got ++ s.hostIn = encode s.cfg i ++ rest → step s = exec i { s with hostIn := rest }

/-- 41 R170 (log entry 16): a well-formed transaction handed to the bus engine is the next step. -/
def Obligations.StepRunsTheHandedTransaction : Prop :=
  ∀ (s : State) (i : Instr) (ws : List Word),
    i.WellFormed s.cfg s.params.eepromSize → i.isBus = true →
      s.busCalls = encodeBus s.cfg i :: ws → step s = exec i { s with busCalls := ws }

/-- 60 R317, 40 R149 (log entry 14): at a `HostRead` with no byte available the engine waits and nothing changes. -/
def Obligations.StallChangesNothing : Prop :=
  ∀ s : State, s.AtHostRead → s.hostIn = [] → s.busCalls = [] → step s = .next s

/-- 40 R149 (log entry 14): where the bytes at hand are no whole frame the engine reads them all, writes no reply, and
stands inside the command. What else it leaves as it was: `HoldFrame`, `UnfinishedFlashPage`, `UnfinishedEepromPage`,
`LegacyEffectsBeforeEop`. -/
def Obligations.UnfinishedFrameWritesNoReply : Prop :=
  ∀ s : State, s.nextFrame = .incomplete → s.busCalls = [] →
    ∃ t, step s = .next t ∧ t.replies = s.replies ∧ t.got = s.got ++ s.hostIn ∧ t.hostIn = []

/-- 40 R149, 60 R308 (log entry 14): how a host spreads a frame over time does not matter. Reading what there is of a
frame, holding, and going on when the rest comes ends as if every byte had been there at once. -/
def Obligations.SplitDelivery : Prop :=
  ∀ (s t : State) (more : List Byte), s.cfg.WellFormed → s.busCalls = [] → s.nextFrame = .incomplete →
    step s = .next t → step (t.hostSend more) = step (s.hostSend more)

/-! ### Session, identification, parameters -/

/-- 40 R133: sign-on zeroes `error_count` and replies success; with a bad EOP the count ends at prior + 1, under Legacy
at 1. Nothing else changes. -/
def Obligations.SignOn : Prop :=
  ∀ (s : State) (e : Byte), s.Ready →
    exec (.signOn eopByte) s = .next { s.synced [s.cfg.opcodes.signOn] [] with errorCount := 0 } ∧
    (e ≠ eopByte → exec (.signOn e) s =
      .next { s.misframed [s.cfg.opcodes.signOn] e with
        errorCount := (if s.cfg.eopOrder = .legacy then 0 else s.errorCount) + 1 })

/-- 40 R134: get-sync replies the identification string, whatever it is (log entry 2), in every mode, and changes
nothing else. -/
def Obligations.GetSync : Prop :=
  ∀ (s : State) (e : Byte), s.Ready →
    exec (.getSync eopByte) s = .next (s.synced [s.cfg.opcodes.getSync] s.cfg.idString) ∧
    (e ≠ eopByte → exec (.getSync e) s = .next (s.misframed [s.cfg.opcodes.getSync] e))

/-- 40 R135: get-parameter replies the table's value, whatever the table (log entry 2), the default value for a sub-code
the table does not list, and changes nothing else. -/
def Obligations.GetParam : Prop :=
  ∀ (s : State) (sub e : Byte), s.Ready →
    (∀ v, s.cfg.getParam.lookup sub = some v →
      exec (.getParam sub eopByte) s = .next (s.synced [s.cfg.opcodes.getParam, sub] [v])) ∧
    (s.cfg.getParam.lookup sub = none →
      exec (.getParam sub eopByte) s = .next (s.synced [s.cfg.opcodes.getParam, sub] [s.cfg.getParamDefault])) ∧
    (e ≠ eopByte → exec (.getParam sub e) s = .next (s.misframed [s.cfg.opcodes.getParam, sub] e))

/-- 40 R136, 42 R190 to R194: set-parameters fills `buffer[0..19]`, decodes every field from its offset, big-endian,
offset 9 into none, and sets the polarity from the device code. No line moves. With a bad EOP the parameters and the
polarity stay, under Legacy they are written. Which offset is which field is the spec's own inference: "The mapping of
offsets 0–8 and 10–19 to named fields is [derived ...". -/
def Obligations.SetParams : Prop :=
  ∀ (s : State) (p : List Byte) (e : Byte), s.Ready → p.length = 20 →
    let b := fun k => p.getD k 0
    let decoded : State := { s with
      params := {
        deviceCode := b 0, revision := b 1, progType := b 2, parMode := b 3, polling := b 4, selfTimed := b 5
        lockBytes := b 6, fuseBytes := b 7, flashPoll := b 8
        eepromPoll := BitVec.ofNat 16 (256 * (b 10).toNat + (b 11).toNat)
        pageSize := BitVec.ofNat 16 (256 * (b 12).toNat + (b 13).toNat)
        eepromSize := BitVec.ofNat 16 (256 * (b 14).toNat + (b 15).toNat)
        flashSize := BitVec.ofNat 32
          ((b 16).toNat * 2 ^ 24 + (b 17).toNat * 2 ^ 16 + (b 18).toNat * 2 ^ 8 + (b 19).toNat) }
      resetActiveHigh := decide (0xE0 ≤ (b 0).toNat) }
    ∃ m, s.Filled p m ∧
      exec (.setParams p eopByte) s = .next { decoded.synced (s.cfg.opcodes.setParams :: p) [] with buffer := m } ∧
      (e ≠ eopByte → exec (.setParams p e) s =
        .next { (if s.cfg.eopOrder = .legacy then decoded else s).misframed (s.cfg.opcodes.setParams :: p) e with
          buffer := m })

/-- 42 R192, R193: a synced set-parameters derives the polarity from the device code it has written, and byte 9 of the
block goes to `buffer[9]` and makes no other difference. -/
def Obligations.PolarityAndOffsetNine : Prop :=
  ∀ (s : State) (p : List Byte) (v : Byte), s.Ready → p.length = 20 →
    ∃ t u, exec (.setParams p eopByte) s = .next t ∧ t.resetActiveHigh = decide (0xE0 ≤ t.params.deviceCode.toNat) ∧
      t.memRead 9 = p.getD 9 0 ∧
      exec (.setParams (p.set 9 v) eopByte) s = .next u ∧ u.memRead 9 = v ∧
      u = { t with buffer := u.buffer, history := u.history } ∧ u.replies = t.replies

/-- 40 R137: the five bytes of set-extended-parameters go to `buffer[0..4]` and have no other effect. -/
def Obligations.SetExt : Prop :=
  ∀ (s : State) (x : List Byte) (e : Byte), s.Ready → x.length = 5 →
    ∃ m, s.Filled x m ∧
      exec (.setExt x eopByte) s = .next { s.synced (s.cfg.opcodes.setExt :: x) [] with buffer := m } ∧
      (e ≠ eopByte → exec (.setExt x e) s = .next { s.misframed (s.cfg.opcodes.setExt :: x) e with buffer := m })

/-- 40 R140, 30 R94: set-address writes `a_lo + 256 * a_hi` and nothing else; with a bad EOP only under Legacy. -/
def Obligations.SetAddr : Prop :=
  ∀ (s : State) (lo hi e : Byte), s.Ready →
    let a := BitVec.ofNat 16 (lo.toNat + 256 * hi.toNat)
    exec (.setAddr lo hi eopByte) s = .next { s.synced [s.cfg.opcodes.setAddr, lo, hi] [] with address := a } ∧
    (e ≠ eopByte → exec (.setAddr lo hi e) s =
      .next { s.misframed [s.cfg.opcodes.setAddr, lo, hi] e with
        address := if s.cfg.eopOrder = .legacy then a else s.address })

/-- 40 R141, R142 (their lengths are from general knowledge, log entry 2): the legacy writes consume their payload,
reply success, and do nothing. -/
def Obligations.LegacyWritesDoNothing : Prop :=
  ∀ (s : State) (d : List Byte) (e : Byte), s.Ready →
    (d.length = s.cfg.legacyFlashLen →
      exec (.progFlash d eopByte) s = .next (s.synced (s.cfg.opcodes.progFlash :: d) []) ∧
      (e ≠ eopByte → exec (.progFlash d e) s = .next (s.misframed (s.cfg.opcodes.progFlash :: d) e))) ∧
    (d.length = s.cfg.legacyDataLen →
      exec (.progData d eopByte) s = .next (s.synced (s.cfg.opcodes.progData :: d) []) ∧
      (e ≠ eopByte → exec (.progData d e) s = .next (s.misframed (s.cfg.opcodes.progData :: d) e)))

/-! ### Programming mode -/

/-- 40 R138, 43 R210, R211, R216: outside Programming, enter runs the five steps of the entry sequence, whatever the
target answers, replies success after them, and leaves the bus on, `RESET` driven at the asserted level, `SCK` an output
at the idle level of `BUS_MODE` and `MOSI` an output. With a bad EOP no sequence runs; under Legacy it has run. The
asserted level is the spec's own inference (R210, "[derived"); the level of `SCK` after the transaction and its clocking
rest on log entry 25. -/
def Obligations.EnterRunsTheEntrySequence : Prop :=
  ∀ (s : State) (e : Byte), s.Ready → s.mode ≠ .programming →
    let assert := if s.resetActiveHigh then Level.high else Level.low
    let deassert := if s.resetActiveHigh then Level.low else Level.high
    ∃ ans mosi d, s.Answers ans ∧
      let entry : List Event :=
        [.drive .reset assert, .setDir .reset .output, .drive .sck .low, .setDir .sck .output, .setDir .mosi .output,
          .delay 20000, .drive .reset deassert, .delay 100, .drive .reset assert, .delay 50000,
          .bus s.cfg.bus.progEnable (ans 0)]
      let entered : State := { s with
        mode := .programming
        busOn := true
        lines := ⟨⟨.output, assert⟩, ⟨.output, s.cfg.busMode.idle⟩, ⟨.output, mosi⟩⟩
        busResult := byteOf (ans 0) 3
        wave := busWave s.cfg s.cfg.bus.progEnable
        targetIn := s.targetIn.tail
        draws := d }
      exec (.enterPmode eopByte) s = .next { entered with
        history := s.history ++ effectEvents s.cfg [s.cfg.opcodes.enter] eopByte entry ++ writes (okReply []) } ∧
      (e ≠ eopByte → s.cfg.eopOrder = .legacy → exec (.enterPmode e) s = .next { entered with
        errorCount := s.errorCount + 1
        history := s.history ++ effectEvents s.cfg [s.cfg.opcodes.enter] e entry ++ writes [nosync] }) ∧
      (e ≠ eopByte → s.cfg.eopOrder = .checkFirst →
        exec (.enterPmode e) s = .next (s.misframed [s.cfg.opcodes.enter] e))

/-- 40 R138: in Programming, enter is a no-op that replies success. -/
def Obligations.EnterIsIdempotent : Prop :=
  ∀ (s : State) (e : Byte), s.Ready → s.mode = .programming →
    exec (.enterPmode eopByte) s = .next (s.synced [s.cfg.opcodes.enter] []) ∧
    (e ≠ eopByte → exec (.enterPmode e) s = .next (s.misframed [s.cfg.opcodes.enter] e))

/-- 40 R139, 43 R217: leave runs the exit sequence in every mode: the bus off, `MOSI` and `SCK` released before `RESET`
changes level, then `RESET` released, `mode` Ended, and nothing else. The de-asserted level (R210) and that nothing else
is written (R219) are the spec's own inferences, "[derived"; the drive on a `RESET` that was already an input is an event
only (log entry 29). -/
def Obligations.LeaveRunsTheExitSequence : Prop :=
  ∀ (s : State) (e : Byte), s.Ready →
    let deassert := if s.resetActiveHigh then Level.low else Level.high
    let exit : List Event :=
      [.setDir .mosi .input, .setDir .sck .input, .drive .reset deassert, .setDir .reset .input]
    let left : State := { s with
      mode := .ended
      busOn := false
      lines := ⟨⟨.input, deassert⟩, ⟨.input, s.lines.sck.level⟩, ⟨.input, s.lines.mosi.level⟩⟩ }
    exec (.leavePmode eopByte) s = .next { left with
      history := s.history ++ effectEvents s.cfg [s.cfg.opcodes.leave] eopByte exit ++ writes (okReply []) } ∧
    (e ≠ eopByte → s.cfg.eopOrder = .legacy → exec (.leavePmode e) s = .next { left with
      errorCount := s.errorCount + 1
      history := s.history ++ effectEvents s.cfg [s.cfg.opcodes.leave] e exit ++ writes [nosync] }) ∧
    (e ≠ eopByte → s.cfg.eopOrder = .checkFirst →
      exec (.leavePmode e) s = .next (s.misframed [s.cfg.opcodes.leave] e))

/-- 70 R337 (the spec's inference from R193 and R217): a set-parameters in programming mode moves no line, and the leave
after it de-asserts `RESET` with the new polarity. -/
def Obligations.PolarityRenegotiation : Prop :=
  ∀ (s : State) (p : List Byte), s.Ready → p.length = 20 →
    ∃ t u, exec (.setParams p eopByte) s = .next t ∧ t.lines = s.lines ∧ t.mode = s.mode ∧
      exec (.leavePmode eopByte) t = .next u ∧
      Event.drive .reset (if 0xE0 ≤ (p.getD 0 0).toNat then Level.low else Level.high) ∈ u.history.drop t.history.length ∧
      u.lines.reset.dir = .input

/-! ### The bus -/

/-- 41 R170, R171, R174 to R184, 30 R96: each transaction is one exchange of its four bytes, with the bus on or off, and
changes nothing but what an exchange changes. The byte order of addresses, the place of the signature index and the fill
bytes rest on log entry 3; that a page or EEPROM write run alone has no delay on log entry 24; the clocking and the level
`SCK` is left at on log entry 25. -/
def Obligations.EachTransactionIsOneExchange : Prop :=
  ∀ (s : State) (a : Half) (d b0 b1 b2 b3 : Byte),
    s.Transacts s.cfg.bus.progEnable (exec .busProgEnable s) ∧
    s.Transacts (word4 s.cfg.bus.loadLo (hi8 a) (lo8 a) d) (exec (.busLoadLo a d) s) ∧
    s.Transacts (word4 s.cfg.bus.loadHi (hi8 a) (lo8 a) d) (exec (.busLoadHi a d) s) ∧
    s.Transacts (word4 s.cfg.bus.writePage (hi8 a) (lo8 a) 0) (exec (.busWritePage a) s) ∧
    s.Transacts (word4 s.cfg.bus.readLo (hi8 a) (lo8 a) 0) (exec (.busReadLo a) s) ∧
    s.Transacts (word4 s.cfg.bus.readHi (hi8 a) (lo8 a) 0) (exec (.busReadHi a) s) ∧
    s.Transacts (word4 s.cfg.bus.eeWrite (hi8 a) (lo8 a) d) (exec (.busEeWrite a d) s) ∧
    s.Transacts (word4 s.cfg.bus.eeRead (hi8 a) (lo8 a) s.cfg.bus.eeReadFill) (exec (.busEeRead a) s) ∧
    s.Transacts (word4 s.cfg.bus.readSig 0 b0 0) (exec (.busReadSig b0) s) ∧
    s.Transacts (word4 b0 b1 b2 b3) (exec (.busUniversal b0 b1 b2 b3) s)

/-- 41 R173, 20 R65 (parameters with defaults from general knowledge, log entry 25): with the bus on, a transaction clocks
32 periods. Most significant bit first, the bits of its pattern stand on `MOSI` from bit 31 down; least significant first,
each byte's from its bit 0 up. What is sampled is the target's pattern, in either bit order. Which levels of `SCK` and
`MOSI` stand over the two halves of a period, in each of the four modes, is the model's choice of record (log entry 31,
DESIGN CHOICE): a bit stands over both halves, with the sampling edge of `SCK` between them. -/
def Obligations.BitsFollowBusBitOrderAndMode : Prop :=
  ∀ (s : State) (out ans : Word),
    (s.cfg.bitOrder = .msbFirst →
      mosiLevels s.cfg.bitOrder out = (List.range 32).map fun k => levelOf (out.getLsbD (31 - k))) ∧
    (s.cfg.bitOrder = .lsbFirst →
      mosiLevels s.cfg.bitOrder out = (List.range 32).map fun k => levelOf (out.getLsbD (8 * (3 - k / 8) + k % 8))) ∧
    receivedWord s.cfg.bitOrder out ans = ans ∧
    (s.busOn = true →
      (s.cfg.busMode = ⟨.low, .rising⟩ → (s.busXfer out).wave =
        (mosiLevels s.cfg.bitOrder out).flatMap fun l => [⟨.low, l⟩, ⟨.high, l⟩]) ∧
      (s.cfg.busMode = ⟨.low, .falling⟩ → (s.busXfer out).wave =
        (mosiLevels s.cfg.bitOrder out).flatMap fun l => [⟨.high, l⟩, ⟨.low, l⟩]) ∧
      (s.cfg.busMode = ⟨.high, .falling⟩ → (s.busXfer out).wave =
        (mosiLevels s.cfg.bitOrder out).flatMap fun l => [⟨.high, l⟩, ⟨.low, l⟩]) ∧
      (s.cfg.busMode = ⟨.high, .rising⟩ → (s.busXfer out).wave =
        (mosiLevels s.cfg.bitOrder out).flatMap fun l => [⟨.low, l⟩, ⟨.high, l⟩]))

/-- 40 R145, 41 R184: universal passes its four bytes verbatim in one transaction, in every mode, with no delay, and
replies the last byte received. With a bad EOP there is no transaction, but under Legacy. The clocking and the level `SCK`
is left at rest on log entry 25. -/
def Obligations.Universal : Prop :=
  ∀ (s : State) (b0 b1 b2 b3 e : Byte), s.Ready →
    ∃ m ans v l d, s.Filled [b0, b1, b2, b3] m ∧ s.Answers ans ∧ s.WaveOf (word4 b0 b1 b2 b3) v ∧ s.BusLinesOnly l ∧
      let before := [s.cfg.opcodes.universal, b0, b1, b2, b3]
      let exchanged : State := { s with
        buffer := m, busResult := byteOf (ans 0) 3, wave := v, targetIn := s.targetIn.tail, lines := l, draws := d }
      exec (.universal b0 b1 b2 b3 eopByte) s = .next { exchanged with
        history := s.history ++ effectEvents s.cfg before eopByte [.bus (word4 b0 b1 b2 b3) (ans 0)]
          ++ writes (okReply [byteOf (ans 0) 3]) } ∧
      (e ≠ eopByte → s.cfg.eopOrder = .legacy → exec (.universal b0 b1 b2 b3 e) s = .next { exchanged with
        errorCount := s.errorCount + 1
        history := s.history ++ effectEvents s.cfg before e [.bus (word4 b0 b1 b2 b3) (ans 0)] ++ writes [nosync] }) ∧
      (e ≠ eopByte → s.cfg.eopOrder = .checkFirst →
        exec (.universal b0 b1 b2 b3 e) s = .next { s.misframed before e with buffer := m })

/-! ### Out of sync and unknown opcodes -/

/-- 40 R147, 60 R304: `EOP` where an opcode is expected is counted and answered `NOSYNC`; no further byte is read. -/
def Obligations.BareEop : Prop :=
  ∀ s : State, s.Ready → exec .bareEop s = .next (s.misframed [] eopByte)

/-- 40 R148, 60 R303, 30 R99: an opcode byte outside the map is counted once; the reply is `UNKNOWN` if `EOP` follows,
else `NOSYNC`, and the byte after it is consumed either way. -/
def Obligations.UnknownOpcode : Prop :=
  ∀ (s : State) (op b : Byte), s.Ready → op ≠ eopByte → op ∉ s.cfg.opcodes.toList →
    (∀ ee rest, decode s.cfg ee (op :: b :: rest) = .frame (.unknownOpcode op b) rest) ∧
    exec (.unknownOpcode op b) s = .next { s with
      errorCount := s.errorCount + 1
      history := s.history ++ reads [op, b] ++ writes (if b = eopByte then [insync, unknownByte] else [nosync]) }

/-! ### The flash writer -/

/-- 44 R230, R231, R232: the page function clears 5, 6, 7 or 8 low bits for page sizes 32, 64, 128 and 256, one fewer
where the page size counts bytes, none for any other page size. -/
def Obligations.PageFunction : Prop :=
  ∀ p a : Half,
    pageOf .docMask 32 a = a &&& 0xFFE0 ∧ pageOf .docMask 64 a = a &&& 0xFFC0 ∧
    pageOf .docMask 128 a = a &&& 0xFF80 ∧ pageOf .docMask 256 a = a &&& 0xFF00 ∧
    pageOf .byteSizedPage 32 a = a &&& 0xFFF0 ∧ pageOf .byteSizedPage 64 a = a &&& 0xFFE0 ∧
    pageOf .byteSizedPage 128 a = a &&& 0xFFC0 ∧ pageOf .byteSizedPage 256 a = a &&& 0xFF80 ∧
    (p ≠ 32 → p ≠ 64 → p ≠ 128 → p ≠ 256 → ∀ mode, pageOf mode p a = a)

/-- 44 R233, R234, R236, R238, R241: flash program-page fills the buffer, and after the synced EOP sends for each
word the commit of the previous page where a page begins, the low-byte load and the high-byte load, then one final
commit; replies success; and leaves `address` past the last word. Nothing else changes but the cosmetic indicator. The
byte order of addresses rests on log entry 3 and the level `SCK` is left at on log entry 25; that the tracker starts at
the page of the starting address, so that no commit comes first, and that no word still gives one commit, are the spec's
own inferences (R235, R240, "[derived"). -/
def Obligations.FlashWrite : Prop :=
  ∀ (s : State) (len : Half) (data : List Byte), s.Ready → FlashLength len → data.length = len.toNat →
    ∃ m es t, s.Filled data m ∧ exec (.progPageF len data eopByte) s = .next t ∧
      es.map Event.sent = reads (pageHeader s.cfg.opcodes.progPage len s.cfg.memtagFlash ++ data ++ [eopByte])
        ++ s.flashSent data ++ writes (okReply []) ∧
      s.BusLinesOnly t.lines ∧
      t = { s with
        buffer := m
        address := s.address + BitVec.ofNat 16 (len.toNat / 2)
        history := s.history ++ es
        targetIn := s.targetIn.drop (busWords es).length
        busResult := t.busResult, wave := t.wave, lines := t.lines, draws := t.draws
        lampOn := t.lampOn, progressCounter := t.progressCounter }

/-- 44 R238: a flash program-page with a bad EOP makes no transaction, under both EOP orders, and leaves `address`. -/
def Obligations.FlashWriteMisframed : Prop :=
  ∀ (s : State) (len : Half) (data : List Byte) (e : Byte), s.Ready → FlashLength len → data.length = len.toNat →
    e ≠ eopByte → ∃ m, s.Filled data m ∧ exec (.progPageF len data e) s =
      .next { s.misframed (pageHeader s.cfg.opcodes.progPage len s.cfg.memtagFlash ++ data) e with buffer := m }

/-- 44 R237, R336 (the spec's inference from R234): the commits of a flash program-page are one more than the page
changes between its words; distinct command bytes are a premise (log entry 3). -/
def Obligations.CommitCount : Prop :=
  ∀ (s t : State) (len : Half) (data : List Byte), s.Ready → s.cfg.BusDistinct → FlashLength len →
    data.length = len.toNat → exec (.progPageF len data eopByte) s = .next t →
      commitCount s.cfg t.history =
        commitCount s.cfg s.history + 1 + (List.range (len.toNat / 2)).countP fun k => s.turnsPage k

/-- 44 R237 (the spec's inference from R234): from a page-aligned start, `N` words on pages of `W` word addresses are
committed `ceil(N / W)` times; distinct command bytes are a premise (log entry 3). -/
def Obligations.AlignedCommitCount : Prop :=
  ∀ (s t : State) (len : Half) (data : List Byte), s.Ready → s.cfg.BusDistinct → FlashLength len →
    data.length = len.toNat → len ≠ 0 → s.currentPage s.address = s.address →
    exec (.progPageF len data eopByte) s = .next t →
      let w := 2 ^ pageBits s.cfg.pageMaskMode s.params.pageSize
      commitCount s.cfg t.history = commitCount s.cfg s.history + (len.toNat / 2 + w - 1) / w

/-- 40 R143, 44 R239, 60 R306, R307: what program-page refuses, at its tag byte, whatever follows. -/
def Obligations.ProgramPageRefusals : Prop :=
  ∀ (s : State) (len : Half) (tag : Byte) (data : List Byte) (e : Byte) (body : Option (List Byte × Byte)),
    (tag ≠ s.cfg.memtagFlash → tag ≠ s.cfg.memtagEeprom →
      exec (.progPage len tag body) s = .refused .unknownMemoryTag) ∧
    (256 < len.toNat →
      exec (.progPage len s.cfg.memtagFlash body) s = .refused .flashLengthOverBuffer ∧
      exec (.progPageF len data e) s = .refused .flashLengthOverBuffer) ∧
    (len.toNat ≤ 256 → len.toNat % 2 = 1 →
      exec (.progPage len s.cfg.memtagFlash body) s = .refused .oddFlashLength ∧
      exec (.progPageF len data e) s = .refused .oddFlashLength)

/-- 40 R143: program-page goes on, after its header, with the flash or the EEPROM rule by its tag. Where nothing follows the
header yet, it has read the header, has counted a capacity failure (45 R266), and waits: a form of the instruction that is
the model's (log entry 24), holding as the model holds (log entry 14). -/
def Obligations.ProgramPageDispatch : Prop :=
  ∀ (s : State) (len : Half) (data : List Byte) (e : Byte), s.Ready →
    (FlashLength len → data.length = len.toNat →
      exec (.progPage len s.cfg.memtagFlash (some (data, e))) s = exec (.progPageF len data e) s ∧
      (∃ t, exec (.progPage len s.cfg.memtagFlash (some (data, e))) s = .next t) ∧
      exec (.progPage len s.cfg.memtagFlash none) s = .next { s with
        got := pageHeader s.cfg.opcodes.progPage len s.cfg.memtagFlash
        history := s.history ++ reads (pageHeader s.cfg.opcodes.progPage len s.cfg.memtagFlash) }) ∧
    (data.length = eepromPayloadLen s.cfg s.params.eepromSize len →
      exec (.progPage len s.cfg.memtagEeprom (some (data, e))) s = exec (.progPageE len data e) s ∧
      (∃ t, exec (.progPage len s.cfg.memtagEeprom (some (data, e))) s = .next t) ∧
      exec (.progPage len s.cfg.memtagEeprom none) s = .next { s with
        got := pageHeader s.cfg.opcodes.progPage len s.cfg.memtagEeprom
        errorCount := s.errorCount + (if s.params.eepromSize < len then 1 else 0)
        history := s.history ++ reads (pageHeader s.cfg.opcodes.progPage len s.cfg.memtagEeprom) })

/-- 44 R238, 60 R308, 70 R341 (log entry 14): a flash program-page whose bytes have not all come has only been read into
the buffer. -/
def Obligations.UnfinishedFlashPage : Prop :=
  ∀ (s : State) (len : Half) (data : List Byte), s.Ready → s.busCalls = [] → FlashLength len →
    data.length ≤ len.toNat → s.hostIn = pageHeader s.cfg.opcodes.progPage len s.cfg.memtagFlash ++ data →
      ∃ m, s.Filled data m ∧ step s = .next { s with
        buffer := m, got := s.hostIn, hostIn := [], history := s.history ++ reads s.hostIn }

/-! ### The EEPROM writer -/

/-- 45 R260 to R265, R267: an accepted EEPROM program-page reads and writes chunk by chunk of at most 32 bytes, each
byte to its address with its settle delay, and only then checks the EOP: the writes stand whatever it finds, which is the
spec's own inference (R265, "[derived"). `address` stays. The byte order of addresses rests on log entry 3, the level
`SCK` is left at on log entry 25. -/
def Obligations.EepromWrite : Prop :=
  ∀ (s : State) (len : Half) (data : List Byte) (e : Byte), s.Ready → len ≤ s.params.eepromSize →
    data.length = len.toNat →
    ∃ es t, exec (.progPageE len data e) s = .next t ∧
      es.map Event.sent = reads (pageHeader s.cfg.opcodes.progPage len s.cfg.memtagEeprom) ++ s.eepromEvents data
        ++ reads [e] ++ writes (if e = eopByte then okReply [] else [nosync]) ∧
      (∀ i : BitVec 8, min len.toNat 32 ≤ i.toNat → t.memRead i = s.memRead i) ∧
      s.BusLinesOnly t.lines ∧
      t = { s with
        buffer := t.buffer
        errorCount := if e = eopByte then s.errorCount else s.errorCount + 1
        history := s.history ++ es
        targetIn := s.targetIn.drop len.toNat
        busResult := t.busResult, wave := t.wave, lines := t.lines, draws := t.draws }

/-- 45 R261, R266, 60 R302, R307: a length over the EEPROM size is a capacity failure: no transaction, one count, the
payload read and discarded (or, with `CAPACITY_FAIL_CONSUMES` false, not read), the failed reply; with a bad EOP two
counts and `NOSYNC`. -/
def Obligations.CapacityFailure : Prop :=
  ∀ (s : State) (len : Half) (data : List Byte) (e : Byte), s.Ready → s.params.eepromSize < len →
    data.length = (if s.cfg.capacityFailConsumes then len.toNat else 0) →
    exec (.progPageE len data e) s = .next { s with
      errorCount := if e = eopByte then s.errorCount + 1 else s.errorCount + 2
      history := s.history ++ reads (pageHeader s.cfg.opcodes.progPage len s.cfg.memtagEeprom ++ data ++ [e])
        ++ writes (if e = eopByte then [insync, failedByte] else [nosync]) }

/-! ### The readers -/

/-- 46 R280, R284: a synced flash read of even length sends for each word the low-byte and the high-byte read, each
answer's last byte going to the host before the next transaction, between `INSYNC` and `OK`, and leaves `address` past
the last word. An odd length is refused. The byte order of addresses rests on log entry 3, the level `SCK` is left at on
log entry 25. -/
def Obligations.FlashRead : Prop :=
  ∀ (s : State) (len : Half), s.Ready →
    (len.toNat % 2 = 1 → exec (.readPageF len eopByte) s = .refused .oddFlashLength) ∧
    (len.toNat % 2 = 0 → ∃ ans t, s.Answers ans ∧ exec (.readPageF len eopByte) s = .next t ∧ s.BusLinesOnly t.lines ∧
      t = { s with
        address := s.address + BitVec.ofNat 16 (len.toNat / 2)
        history := s.history ++ reads (pageHeader s.cfg.opcodes.readPage len s.cfg.memtagFlash ++ [eopByte])
          ++ writes [insync] ++ s.flashReadEvents ans (len.toNat / 2) ++ writes [okByte]
        targetIn := s.targetIn.drop len.toNat
        busResult := t.busResult, wave := t.wave, lines := t.lines, draws := t.draws })

/-- 46 R281, R284, 20 R62: a synced EEPROM read of any length sends one read per byte from byte address `2 * address`
on, and moves no record field. The byte order of addresses rests on log entry 3, the level `SCK` is left at on log entry
25. -/
def Obligations.EepromRead : Prop :=
  ∀ (s : State) (len : Half), s.Ready →
    ∃ ans t, s.Answers ans ∧ exec (.readPageE len eopByte) s = .next t ∧ s.BusLinesOnly t.lines ∧
      t = { s with
        history := s.history ++ reads (pageHeader s.cfg.opcodes.readPage len s.cfg.memtagEeprom ++ [eopByte])
          ++ writes [insync] ++ s.eepromReadEvents ans len.toNat ++ writes [okByte]
        targetIn := s.targetIn.drop len.toNat
        busResult := t.busResult, wave := t.wave, lines := t.lines, draws := t.draws }

/-- 46 R283, R284: a synced read-signature sends the three signature reads and replies their bytes in order; an unsynced
one sends nothing. The place of the index and the zero bytes around it rest on log entry 3 (D4), the level `SCK` is left
at on log entry 25. -/
def Obligations.ReadSignature : Prop :=
  ∀ (s : State) (e : Byte), s.Ready →
    (∃ ans t, s.Answers ans ∧ exec (.readSig eopByte) s = .next t ∧ s.BusLinesOnly t.lines ∧
      t = { s with
        history := s.history ++ reads [s.cfg.opcodes.readSig, eopByte] ++
          [.hostWrite insync,
            .bus (word4 s.cfg.bus.readSig 0 0 0) (ans 0), .hostWrite (byteOf (ans 0) 3),
            .bus (word4 s.cfg.bus.readSig 0 1 0) (ans 1), .hostWrite (byteOf (ans 1) 3),
            .bus (word4 s.cfg.bus.readSig 0 2 0) (ans 2), .hostWrite (byteOf (ans 2) 3), .hostWrite okByte]
        targetIn := s.targetIn.drop 3
        busResult := t.busResult, wave := t.wave, lines := t.lines, draws := t.draws }) ∧
    (e ≠ eopByte → exec (.readSig e) s = .next (s.misframed [s.cfg.opcodes.readSig] e))

/-- 40 R144, 46 R282: an unsynced read-page, of any length and tag, is a framing error and reads nothing. -/
def Obligations.UnsyncedReadPage : Prop :=
  ∀ (s : State) (len : Half) (tag e : Byte), s.Ready → e ≠ eopByte →
    exec (.readPage len tag e) s = .next (s.misframed (pageHeader s.cfg.opcodes.readPage len tag) e) ∧
    exec (.readPageF len e) s = .next (s.misframed (pageHeader s.cfg.opcodes.readPage len s.cfg.memtagFlash) e) ∧
    exec (.readPageE len e) s = .next (s.misframed (pageHeader s.cfg.opcodes.readPage len s.cfg.memtagEeprom) e)

/-- 40 R144, 46 R280, 60 R306, R307: a synced read-page goes on by its tag; a tag of neither memory is refused, and for
flash an odd length. -/
def Obligations.ReadPageDispatch : Prop :=
  ∀ (s : State) (len : Half) (tag : Byte), s.Ready →
    exec (.readPage len s.cfg.memtagEeprom eopByte) s = exec (.readPageE len eopByte) s ∧
    (∃ t, exec (.readPage len s.cfg.memtagEeprom eopByte) s = .next t) ∧
    (len.toNat % 2 = 0 →
      exec (.readPage len s.cfg.memtagFlash eopByte) s = exec (.readPageF len eopByte) s ∧
      ∃ t, exec (.readPage len s.cfg.memtagFlash eopByte) s = .next t) ∧
    (len.toNat % 2 = 1 →
      exec (.readPage len s.cfg.memtagFlash eopByte) s = .refused .oddFlashLength ∧
      exec (.readPageF len eopByte) s = .refused .oddFlashLength) ∧
    (tag ≠ s.cfg.memtagFlash → tag ≠ s.cfg.memtagEeprom →
      exec (.readPage len tag eopByte) s = .refused .unknownMemoryTag)

/-! ### The whole machine -/

/-- 40 R130, 30 R91, 60 R307, 40 R151: every command that is not refused ends, whatever it found, with the next byte an
opcode, and has given exactly one reply, of one of the four forms. -/
def Obligations.OneReplyPerCommand : Prop :=
  ∀ (s t : State) (i : Instr), s.Ready → i.WellFormed s.cfg s.params.eepromSize → i.isBus = false →
    exec i s = .next t →
      t.phase = .fetch ∧ t.hostIn = s.hostIn ∧
        ∃ r, t.replies = s.replies ++ r ∧ ((∃ bs, r = okReply bs) ∨ r ∈ errorForms)

/-- 10 R24, 60 R300, R307: but for sign-on, `error_count` stands still over a success reply and rises by one over any
other, by two exactly where a capacity failure is misframed (log entry 6). -/
def Obligations.ErrorCount : Prop :=
  ∀ (s t : State) (i : Instr), s.Ready → i.WellFormed s.cfg s.params.eepromSize → i.isBus = false →
    (∀ e, i ≠ .signOn e) → exec i s = .next t →
      ((∃ bs, t.replies = s.replies ++ okReply bs) ∧ t.errorCount = s.errorCount) ∨
      ((∃ r ∈ errorForms, t.replies = s.replies ++ r) ∧
        t.errorCount = s.errorCount +
          match i with
          | .progPageE len _ e => if s.params.eepromSize < len ∧ e ≠ eopByte then 2 else 1
          | _ => 1)

/-- 60 R313, 10 R25 (log entries 4, 23): `mode` after any command or transaction. -/
def Obligations.ModeTransitions : Prop :=
  ∀ (s t : State) (i : Instr), s.Ready → i.WellFormed s.cfg s.params.eepromSize → exec i s = .next t →
    t.mode =
      match i with
      | .enterPmode e => if e = eopByte ∨ s.cfg.eopOrder = .legacy then .programming else s.mode
      | .leavePmode e => if e = eopByte ∨ s.cfg.eopOrder = .legacy then .ended else s.mode
      | _ => s.mode

/-- 10 R34: who writes what of the session record and the lines' control. -/
def Obligations.RecordWriters : Prop :=
  ∀ (s t : State) (i : Instr), s.Ready → i.WellFormed s.cfg s.params.eepromSize → exec i s = .next t →
    ((∀ p e, i ≠ .setParams p e) → t.params = s.params ∧ t.resetActiveHigh = s.resetActiveHigh) ∧
    ((∀ lo hi e, i ≠ .setAddr lo hi e) → (∀ len d e, i ≠ .progPageF len d e) → (∀ len e, i ≠ .readPageF len e) →
      t.address = s.address) ∧
    ((∀ p e, i ≠ .setParams p e) → (∀ x e, i ≠ .setExt x e) → (∀ b0 b1 b2 b3 e, i ≠ .universal b0 b1 b2 b3 e) →
      (∀ len d e, i ≠ .progPageF len d e) → (∀ len d e, i ≠ .progPageE len d e) → t.buffer = s.buffer) ∧
    ((∀ e, i ≠ .enterPmode e) → (∀ e, i ≠ .leavePmode e) →
      t.busOn = s.busOn ∧ t.lines.reset = s.lines.reset ∧ t.lines.sck.dir = s.lines.sck.dir ∧
        t.lines.mosi.dir = s.lines.mosi.dir)

/-- 60 R320, 00 R8: a step adds events to the history and takes none away, and no step writes the parameters. -/
def Obligations.HistoryOnlyGrows : Prop :=
  ∀ s t : State, step s = .next t → t.cfg = s.cfg ∧ ∃ es, t.history = s.history ++ es

/-- 10 R25, R28, R29, 60 R313: every step keeps the ownership of the lines: in Programming the bus is on and `RESET`,
`SCK`, `MOSI` are driven, `SCK` at its idle level, which rests on log entry 25 (41 R173); otherwise the bus is off and the
block drives no line. -/
def Obligations.StepKeepsLineOwnership : Prop :=
  ∀ s t : State, s.LinesOwned → step s = .next t → t.LinesOwned

/-- 10 R21: every step keeps the buffer in its canonical form (the model's, log entry 9), inside its 256 bytes. -/
def Obligations.StepKeepsBufferCanonical : Prop :=
  ∀ s t : State, Memory.wf s.buffer → step s = .next t → Memory.wf t.buffer

/-- 42 R193, R194: every step keeps the polarity that of the negotiated device code. -/
def Obligations.StepKeepsPolarity : Prop :=
  ∀ s t : State, s.PolarityOfDevice → step s = .next t → t.PolarityOfDevice

/-- 10 R30, 40 R151 (both the spec's own inferences, "[derived"): every step leaves the engine at a `HostRead`: at an opcode,
or inside a command whose frame is not whole. That a step ends there is the model's grain (log entry 14), and the position
is read off the bytes read (log entry 15). -/
def Obligations.StepKeepsAtHostRead : Prop :=
  ∀ s t : State, s.cfg.WellFormed → s.AtHostRead → step s = .next t → t.AtHostRead

/-- 10 R35, 70 R330, R331: the state after reset. -/
def Obligations.ResetState : Prop :=
  State.reset.params = ⟨0, 0, 0, 0, 0, 0, 0, 0, 0, 0, 0, 0, 0⟩ ∧ State.reset.address = 0 ∧
  State.reset.errorCount = 0 ∧ State.reset.mode = .idle ∧ State.reset.resetActiveHigh = false ∧
  State.reset.lines.reset.dir = .input ∧ State.reset.lines.sck.dir = .input ∧ State.reset.lines.mosi.dir = .input ∧
  State.reset.busOn = false ∧ State.reset.phase = .fetch

/-- The invariants hold after reset, with the default parameters (log entries 1 to 6, 10) and an empty buffer list (log
entry 9). -/
def Obligations.ResetInvariants : Prop :=
  State.reset.Ready ∧ State.reset.LinesOwned ∧ State.reset.PolarityOfDevice ∧ State.reset.AtHostRead

/-- 10 R33 (the spec's inference from the rules that read the buffer): what a command finds in the buffer makes no
difference to anything but what it leaves there. -/
def Obligations.StaleBufferIsUnobservable : Prop :=
  ∀ (s : State) (m : Memory) (i : Instr), s.Ready → Memory.wf m → i.WellFormed s.cfg s.params.eepromSize →
    (∀ t, exec i s = .next t → ∃ m', exec i { s with buffer := m } = .next { t with buffer := m' }) ∧
    (∀ r, exec i s = .refused r → exec i { s with buffer := m } = .refused r)

/-- 10 R24, R27, 60 R316: nothing consults `error_count`, the progress counter or the indicator. -/
def Obligations.CountersSteerNothing : Prop :=
  ∀ (s : State) (c : Half) (p : Nat) (l : Bool) (i : Instr),
    (∀ t, exec i s = .next t → ∃ c' p' l', exec i { s with errorCount := c, progressCounter := p, lampOn := l } =
      .next { t with errorCount := c', progressCounter := p', lampOn := l' }) ∧
    (∀ r, exec i s = .refused r →
      exec i { s with errorCount := c, progressCounter := p, lampOn := l } = .refused r)

/-- 70 R342: the least duration of each command with a delay, in microseconds, and no delay in any other. A duration is the
sum of the delays' minimums (log entry 20); a page or EEPROM write run alone has none, its delay being its caller's (log
entry 24). Distinct command bytes are a premise (log entry 3). -/
def Obligations.MinimumDurations : Prop :=
  ∀ (s t : State) (i : Instr), s.Ready → s.cfg.BusDistinct → i.WellFormed s.cfg s.params.eepromSize →
    exec i s = .next t →
    minMicros t.history = minMicros s.history +
      match i with
      | .enterPmode e =>
        if s.mode ≠ .programming ∧ (e = eopByte ∨ s.cfg.eopOrder = .legacy) then 70100 else 0
      | .progPageF _ _ _ => 20000 * (commitCount s.cfg t.history - commitCount s.cfg s.history)
      | .progPageE len _ _ => if len ≤ s.params.eepromSize then 45000 * len.toNat else 0
      | _ => 0

/-! ### Holding inside a command -/

/-- 40 R149, 60 R308 (log entry 14): what a hold leaves as it was, before the EOP position of a command whose effects do not
come early. The record stands but for `error_count`, which counts an unknown opcode (40 R148) or a capacity failure (45
R266) when its byte is read; outside an EEPROM page no line moves and the only events are the bytes read; the buffer
stands but in the filling commands. -/
def Obligations.HoldFrame : Prop :=
  ∀ s t : State, s.nextFrame = .incomplete → s.busCalls = [] →
    (s.cfg.eopOrder = .checkFirst ∨ s.openCommand.legacyEarly = false) → step s = .next t →
      t = { s with
        buffer := t.buffer
        errorCount := s.errorCount + BitVec.ofNat 16 (s.counted (s.got ++ s.hostIn) - s.counted s.got)
        got := s.got ++ s.hostIn, hostIn := []
        history := t.history, targetIn := t.targetIn, busResult := t.busResult, wave := t.wave, lines := t.lines
        draws := t.draws } ∧
      (¬ s.InEepromPage →
        t.history = s.history ++ reads s.hostIn ∧ t.targetIn = s.targetIn ∧ t.busResult = s.busResult ∧
          t.wave = s.wave ∧ t.lines = s.lines ∧ t.draws = s.draws) ∧
      (s.openCommand ∉ [.setParams, .setExt, .universal, .progPage] → t.buffer = s.buffer)

/-- 40 R149, 45 R262, R263, 60 R308 (log entry 14): of an accepted EEPROM program-page whose EOP position has not come, the
chunks that are complete have been read and written, the bytes after them only read. Nothing else has happened. The byte
order of addresses rests on log entry 3, the level `SCK` is left at on log entry 25. -/
def Obligations.UnfinishedEepromPage : Prop :=
  ∀ (s : State) (len : Half) (data : List Byte), s.Ready → s.busCalls = [] → len ≤ s.params.eepromSize →
    data.length ≤ len.toNat → s.hostIn = pageHeader s.cfg.opcodes.progPage len s.cfg.memtagEeprom ++ data →
      let n := if data.length = len.toNat then len.toNat else 32 * (data.length / 32)
      ∃ es t, step s = .next t ∧
        es.map Event.sent = reads (pageHeader s.cfg.opcodes.progPage len s.cfg.memtagEeprom)
          ++ s.eepromEvents (data.take n) ++ reads (data.drop n) ∧
        (∀ i : BitVec 8, min data.length 32 ≤ i.toNat → t.memRead i = s.memRead i) ∧
        s.BusLinesOnly t.lines ∧
        t = { s with
          buffer := t.buffer
          got := s.hostIn, hostIn := []
          history := s.history ++ es
          targetIn := s.targetIn.drop n
          busResult := t.busResult, wave := t.wave, lines := t.lines, draws := t.draws }

/-- 40 R131, R132, R149 (the grain of a step: log entry 14): under Legacy a command of `LEGACY_EARLY` has had its whole effect
before its EOP position comes: holding there, the state is that after the synced command but for the byte to come and the
reply. -/
def Obligations.LegacyEffectsBeforeEop : Prop :=
  ∀ (s : State) (i : Instr), s.Ready → s.busCalls = [] → s.cfg.eopOrder = .legacy →
    i.WellFormed s.cfg s.params.eepromSize →
    (i = .signOn eopByte ∨ (∃ p, i = .setParams p eopByte) ∨ i = .enterPmode eopByte ∨ i = .leavePmode eopByte ∨
      (∃ lo hi, i = .setAddr lo hi eopByte) ∨ ∃ b0 b1 b2 b3, i = .universal b0 b1 b2 b3 eopByte) →
    s.hostIn ++ [eopByte] = encode s.cfg i →
      ∃ t u r, step s = .next t ∧ exec i { s with hostIn := [] } = .next u ∧
        t = { u with got := s.hostIn, history := t.history } ∧
        u.history = t.history ++ reads [eopByte] ++ writes (okReply r)
end

