-- ==== Sys2Proof/Laws/State.lean ====
section
/-! SUPPORT. One lemma per field and update of the state: what the named operations of Machine/Ops.lean write and what they
leave alone. -/

namespace Sys2Proof.Machine

/-! ### `State.memWrite` -/

@[simp] theorem State.memWrite_cfg (s : State) (i : BitVec 8) (v : Byte) : (s.memWrite i v).cfg = s.cfg := rfl
@[simp] theorem State.memWrite_buffer (s : State) (i : BitVec 8) (v : Byte) : (s.memWrite i v).buffer = Memory.put s.buffer i.toNat v := rfl
@[simp] theorem State.memWrite_params (s : State) (i : BitVec 8) (v : Byte) : (s.memWrite i v).params = s.params := rfl
@[simp] theorem State.memWrite_address (s : State) (i : BitVec 8) (v : Byte) : (s.memWrite i v).address = s.address := rfl
@[simp] theorem State.memWrite_errorCount (s : State) (i : BitVec 8) (v : Byte) : (s.memWrite i v).errorCount = s.errorCount := rfl
@[simp] theorem State.memWrite_mode (s : State) (i : BitVec 8) (v : Byte) : (s.memWrite i v).mode = s.mode := rfl
@[simp] theorem State.memWrite_resetActiveHigh (s : State) (i : BitVec 8) (v : Byte) : (s.memWrite i v).resetActiveHigh = s.resetActiveHigh := rfl
@[simp] theorem State.memWrite_progressCounter (s : State) (i : BitVec 8) (v : Byte) : (s.memWrite i v).progressCounter = s.progressCounter := rfl
@[simp] theorem State.memWrite_lampOn (s : State) (i : BitVec 8) (v : Byte) : (s.memWrite i v).lampOn = s.lampOn := rfl
@[simp] theorem State.memWrite_lines (s : State) (i : BitVec 8) (v : Byte) : (s.memWrite i v).lines = s.lines := rfl
@[simp] theorem State.memWrite_busOn (s : State) (i : BitVec 8) (v : Byte) : (s.memWrite i v).busOn = s.busOn := rfl
@[simp] theorem State.memWrite_got (s : State) (i : BitVec 8) (v : Byte) : (s.memWrite i v).got = s.got := rfl
@[simp] theorem State.memWrite_busResult (s : State) (i : BitVec 8) (v : Byte) : (s.memWrite i v).busResult = s.busResult := rfl
@[simp] theorem State.memWrite_wave (s : State) (i : BitVec 8) (v : Byte) : (s.memWrite i v).wave = s.wave := rfl
@[simp] theorem State.memWrite_hostIn (s : State) (i : BitVec 8) (v : Byte) : (s.memWrite i v).hostIn = s.hostIn := rfl
@[simp] theorem State.memWrite_targetIn (s : State) (i : BitVec 8) (v : Byte) : (s.memWrite i v).targetIn = s.targetIn := rfl
@[simp] theorem State.memWrite_busCalls (s : State) (i : BitVec 8) (v : Byte) : (s.memWrite i v).busCalls = s.busCalls := rfl
@[simp] theorem State.memWrite_draws (s : State) (i : BitVec 8) (v : Byte) : (s.memWrite i v).draws = s.draws := rfl
@[simp] theorem State.memWrite_history (s : State) (i : BitVec 8) (v : Byte) : (s.memWrite i v).history = s.history := rfl

/-! ### `State.fillAt` -/

@[simp] theorem State.fillAt_cfg (s : State) (x : Nat) (v : Byte) : (s.fillAt x v).cfg = s.cfg := rfl
@[simp] theorem State.fillAt_buffer (s : State) (x : Nat) (v : Byte) : (s.fillAt x v).buffer = Memory.put s.buffer (BitVec.ofNat 8 x).toNat v := rfl
@[simp] theorem State.fillAt_params (s : State) (x : Nat) (v : Byte) : (s.fillAt x v).params = s.params := rfl
@[simp] theorem State.fillAt_address (s : State) (x : Nat) (v : Byte) : (s.fillAt x v).address = s.address := rfl
@[simp] theorem State.fillAt_errorCount (s : State) (x : Nat) (v : Byte) : (s.fillAt x v).errorCount = s.errorCount := rfl
@[simp] theorem State.fillAt_mode (s : State) (x : Nat) (v : Byte) : (s.fillAt x v).mode = s.mode := rfl
@[simp] theorem State.fillAt_resetActiveHigh (s : State) (x : Nat) (v : Byte) : (s.fillAt x v).resetActiveHigh = s.resetActiveHigh := rfl
@[simp] theorem State.fillAt_progressCounter (s : State) (x : Nat) (v : Byte) : (s.fillAt x v).progressCounter = s.progressCounter := rfl
@[simp] theorem State.fillAt_lampOn (s : State) (x : Nat) (v : Byte) : (s.fillAt x v).lampOn = s.lampOn := rfl
@[simp] theorem State.fillAt_lines (s : State) (x : Nat) (v : Byte) : (s.fillAt x v).lines = s.lines := rfl
@[simp] theorem State.fillAt_busOn (s : State) (x : Nat) (v : Byte) : (s.fillAt x v).busOn = s.busOn := rfl
@[simp] theorem State.fillAt_got (s : State) (x : Nat) (v : Byte) : (s.fillAt x v).got = s.got := rfl
@[simp] theorem State.fillAt_busResult (s : State) (x : Nat) (v : Byte) : (s.fillAt x v).busResult = s.busResult := rfl
@[simp] theorem State.fillAt_wave (s : State) (x : Nat) (v : Byte) : (s.fillAt x v).wave = s.wave := rfl
@[simp] theorem State.fillAt_hostIn (s : State) (x : Nat) (v : Byte) : (s.fillAt x v).hostIn = s.hostIn := rfl
@[simp] theorem State.fillAt_targetIn (s : State) (x : Nat) (v : Byte) : (s.fillAt x v).targetIn = s.targetIn := rfl
@[simp] theorem State.fillAt_busCalls (s : State) (x : Nat) (v : Byte) : (s.fillAt x v).busCalls = s.busCalls := rfl
@[simp] theorem State.fillAt_draws (s : State) (x : Nat) (v : Byte) : (s.fillAt x v).draws = s.draws := rfl
@[simp] theorem State.fillAt_history (s : State) (x : Nat) (v : Byte) : (s.fillAt x v).history = s.history := rfl

/-! ### `State.hostRead` -/

@[simp] theorem State.hostRead_cfg (s : State) (b : Byte) : (s.hostRead b).cfg = s.cfg := rfl
@[simp] theorem State.hostRead_buffer (s : State) (b : Byte) : (s.hostRead b).buffer = s.buffer := rfl
@[simp] theorem State.hostRead_params (s : State) (b : Byte) : (s.hostRead b).params = s.params := rfl
@[simp] theorem State.hostRead_address (s : State) (b : Byte) : (s.hostRead b).address = s.address := rfl
@[simp] theorem State.hostRead_errorCount (s : State) (b : Byte) : (s.hostRead b).errorCount = s.errorCount := rfl
@[simp] theorem State.hostRead_mode (s : State) (b : Byte) : (s.hostRead b).mode = s.mode := rfl
@[simp] theorem State.hostRead_resetActiveHigh (s : State) (b : Byte) : (s.hostRead b).resetActiveHigh = s.resetActiveHigh := rfl
@[simp] theorem State.hostRead_progressCounter (s : State) (b : Byte) : (s.hostRead b).progressCounter = s.progressCounter := rfl
@[simp] theorem State.hostRead_lampOn (s : State) (b : Byte) : (s.hostRead b).lampOn = s.lampOn := rfl
@[simp] theorem State.hostRead_lines (s : State) (b : Byte) : (s.hostRead b).lines = s.lines := rfl
@[simp] theorem State.hostRead_busOn (s : State) (b : Byte) : (s.hostRead b).busOn = s.busOn := rfl
@[simp] theorem State.hostRead_got (s : State) (b : Byte) : (s.hostRead b).got = s.got ++ [b] := rfl
@[simp] theorem State.hostRead_busResult (s : State) (b : Byte) : (s.hostRead b).busResult = s.busResult := rfl
@[simp] theorem State.hostRead_wave (s : State) (b : Byte) : (s.hostRead b).wave = s.wave := rfl
@[simp] theorem State.hostRead_hostIn (s : State) (b : Byte) : (s.hostRead b).hostIn = s.hostIn := rfl
@[simp] theorem State.hostRead_targetIn (s : State) (b : Byte) : (s.hostRead b).targetIn = s.targetIn := rfl
@[simp] theorem State.hostRead_busCalls (s : State) (b : Byte) : (s.hostRead b).busCalls = s.busCalls := rfl
@[simp] theorem State.hostRead_draws (s : State) (b : Byte) : (s.hostRead b).draws = s.draws := rfl
@[simp] theorem State.hostRead_history (s : State) (b : Byte) : (s.hostRead b).history = s.history ++ [.hostRead b] := rfl

/-! ### `State.hostWrite` -/

@[simp] theorem State.hostWrite_cfg (s : State) (b : Byte) : (s.hostWrite b).cfg = s.cfg := rfl
@[simp] theorem State.hostWrite_buffer (s : State) (b : Byte) : (s.hostWrite b).buffer = s.buffer := rfl
@[simp] theorem State.hostWrite_params (s : State) (b : Byte) : (s.hostWrite b).params = s.params := rfl
@[simp] theorem State.hostWrite_address (s : State) (b : Byte) : (s.hostWrite b).address = s.address := rfl
@[simp] theorem State.hostWrite_errorCount (s : State) (b : Byte) : (s.hostWrite b).errorCount = s.errorCount := rfl
@[simp] theorem State.hostWrite_mode (s : State) (b : Byte) : (s.hostWrite b).mode = s.mode := rfl
@[simp] theorem State.hostWrite_resetActiveHigh (s : State) (b : Byte) : (s.hostWrite b).resetActiveHigh = s.resetActiveHigh := rfl
@[simp] theorem State.hostWrite_progressCounter (s : State) (b : Byte) : (s.hostWrite b).progressCounter = s.progressCounter := rfl
@[simp] theorem State.hostWrite_lampOn (s : State) (b : Byte) : (s.hostWrite b).lampOn = s.lampOn := rfl
@[simp] theorem State.hostWrite_lines (s : State) (b : Byte) : (s.hostWrite b).lines = s.lines := rfl
@[simp] theorem State.hostWrite_busOn (s : State) (b : Byte) : (s.hostWrite b).busOn = s.busOn := rfl
@[simp] theorem State.hostWrite_got (s : State) (b : Byte) : (s.hostWrite b).got = s.got := rfl
@[simp] theorem State.hostWrite_busResult (s : State) (b : Byte) : (s.hostWrite b).busResult = s.busResult := rfl
@[simp] theorem State.hostWrite_wave (s : State) (b : Byte) : (s.hostWrite b).wave = s.wave := rfl
@[simp] theorem State.hostWrite_hostIn (s : State) (b : Byte) : (s.hostWrite b).hostIn = s.hostIn := rfl
@[simp] theorem State.hostWrite_targetIn (s : State) (b : Byte) : (s.hostWrite b).targetIn = s.targetIn := rfl
@[simp] theorem State.hostWrite_busCalls (s : State) (b : Byte) : (s.hostWrite b).busCalls = s.busCalls := rfl
@[simp] theorem State.hostWrite_draws (s : State) (b : Byte) : (s.hostWrite b).draws = s.draws := rfl
@[simp] theorem State.hostWrite_history (s : State) (b : Byte) : (s.hostWrite b).history = s.history ++ [.hostWrite b] := rfl

/-! ### `State.hostSend` -/

@[simp] theorem State.hostSend_cfg (s : State) (bs : List Byte) : (s.hostSend bs).cfg = s.cfg := rfl
@[simp] theorem State.hostSend_buffer (s : State) (bs : List Byte) : (s.hostSend bs).buffer = s.buffer := rfl
@[simp] theorem State.hostSend_params (s : State) (bs : List Byte) : (s.hostSend bs).params = s.params := rfl
@[simp] theorem State.hostSend_address (s : State) (bs : List Byte) : (s.hostSend bs).address = s.address := rfl
@[simp] theorem State.hostSend_errorCount (s : State) (bs : List Byte) : (s.hostSend bs).errorCount = s.errorCount := rfl
@[simp] theorem State.hostSend_mode (s : State) (bs : List Byte) : (s.hostSend bs).mode = s.mode := rfl
@[simp] theorem State.hostSend_resetActiveHigh (s : State) (bs : List Byte) : (s.hostSend bs).resetActiveHigh = s.resetActiveHigh := rfl
@[simp] theorem State.hostSend_progressCounter (s : State) (bs : List Byte) : (s.hostSend bs).progressCounter = s.progressCounter := rfl
@[simp] theorem State.hostSend_lampOn (s : State) (bs : List Byte) : (s.hostSend bs).lampOn = s.lampOn := rfl
@[simp] theorem State.hostSend_lines (s : State) (bs : List Byte) : (s.hostSend bs).lines = s.lines := rfl
@[simp] theorem State.hostSend_busOn (s : State) (bs : List Byte) : (s.hostSend bs).busOn = s.busOn := rfl
@[simp] theorem State.hostSend_got (s : State) (bs : List Byte) : (s.hostSend bs).got = s.got := rfl
@[simp] theorem State.hostSend_busResult (s : State) (bs : List Byte) : (s.hostSend bs).busResult = s.busResult := rfl
@[simp] theorem State.hostSend_wave (s : State) (bs : List Byte) : (s.hostSend bs).wave = s.wave := rfl
@[simp] theorem State.hostSend_hostIn (s : State) (bs : List Byte) : (s.hostSend bs).hostIn = s.hostIn ++ bs := rfl
@[simp] theorem State.hostSend_targetIn (s : State) (bs : List Byte) : (s.hostSend bs).targetIn = s.targetIn := rfl
@[simp] theorem State.hostSend_busCalls (s : State) (bs : List Byte) : (s.hostSend bs).busCalls = s.busCalls := rfl
@[simp] theorem State.hostSend_draws (s : State) (bs : List Byte) : (s.hostSend bs).draws = s.draws := rfl
@[simp] theorem State.hostSend_history (s : State) (bs : List Byte) : (s.hostSend bs).history = s.history := rfl

/-! ### `State.endCommand` -/

@[simp] theorem State.endCommand_cfg (s : State) : (s.endCommand).cfg = s.cfg := rfl
@[simp] theorem State.endCommand_buffer (s : State) : (s.endCommand).buffer = s.buffer := rfl
@[simp] theorem State.endCommand_params (s : State) : (s.endCommand).params = s.params := rfl
@[simp] theorem State.endCommand_address (s : State) : (s.endCommand).address = s.address := rfl
@[simp] theorem State.endCommand_errorCount (s : State) : (s.endCommand).errorCount = s.errorCount := rfl
@[simp] theorem State.endCommand_mode (s : State) : (s.endCommand).mode = s.mode := rfl
@[simp] theorem State.endCommand_resetActiveHigh (s : State) : (s.endCommand).resetActiveHigh = s.resetActiveHigh := rfl
@[simp] theorem State.endCommand_progressCounter (s : State) : (s.endCommand).progressCounter = s.progressCounter := rfl
@[simp] theorem State.endCommand_lampOn (s : State) : (s.endCommand).lampOn = s.lampOn := rfl
@[simp] theorem State.endCommand_lines (s : State) : (s.endCommand).lines = s.lines := rfl
@[simp] theorem State.endCommand_busOn (s : State) : (s.endCommand).busOn = s.busOn := rfl
@[simp] theorem State.endCommand_got (s : State) : (s.endCommand).got = [] := rfl
@[simp] theorem State.endCommand_busResult (s : State) : (s.endCommand).busResult = s.busResult := rfl
@[simp] theorem State.endCommand_wave (s : State) : (s.endCommand).wave = s.wave := rfl
@[simp] theorem State.endCommand_hostIn (s : State) : (s.endCommand).hostIn = s.hostIn := rfl
@[simp] theorem State.endCommand_targetIn (s : State) : (s.endCommand).targetIn = s.targetIn := rfl
@[simp] theorem State.endCommand_busCalls (s : State) : (s.endCommand).busCalls = s.busCalls := rfl
@[simp] theorem State.endCommand_draws (s : State) : (s.endCommand).draws = s.draws := rfl
@[simp] theorem State.endCommand_history (s : State) : (s.endCommand).history = s.history := rfl

/-! ### `State.delay` -/

@[simp] theorem State.delay_cfg (s : State) (t : Nat) : (s.delay t).cfg = s.cfg := rfl
@[simp] theorem State.delay_buffer (s : State) (t : Nat) : (s.delay t).buffer = s.buffer := rfl
@[simp] theorem State.delay_params (s : State) (t : Nat) : (s.delay t).params = s.params := rfl
@[simp] theorem State.delay_address (s : State) (t : Nat) : (s.delay t).address = s.address := rfl
@[simp] theorem State.delay_errorCount (s : State) (t : Nat) : (s.delay t).errorCount = s.errorCount := rfl
@[simp] theorem State.delay_mode (s : State) (t : Nat) : (s.delay t).mode = s.mode := rfl
@[simp] theorem State.delay_resetActiveHigh (s : State) (t : Nat) : (s.delay t).resetActiveHigh = s.resetActiveHigh := rfl
@[simp] theorem State.delay_progressCounter (s : State) (t : Nat) : (s.delay t).progressCounter = s.progressCounter := rfl
@[simp] theorem State.delay_lampOn (s : State) (t : Nat) : (s.delay t).lampOn = s.lampOn := rfl
@[simp] theorem State.delay_lines (s : State) (t : Nat) : (s.delay t).lines = s.lines := rfl
@[simp] theorem State.delay_busOn (s : State) (t : Nat) : (s.delay t).busOn = s.busOn := rfl
@[simp] theorem State.delay_got (s : State) (t : Nat) : (s.delay t).got = s.got := rfl
@[simp] theorem State.delay_busResult (s : State) (t : Nat) : (s.delay t).busResult = s.busResult := rfl
@[simp] theorem State.delay_wave (s : State) (t : Nat) : (s.delay t).wave = s.wave := rfl
@[simp] theorem State.delay_hostIn (s : State) (t : Nat) : (s.delay t).hostIn = s.hostIn := rfl
@[simp] theorem State.delay_targetIn (s : State) (t : Nat) : (s.delay t).targetIn = s.targetIn := rfl
@[simp] theorem State.delay_busCalls (s : State) (t : Nat) : (s.delay t).busCalls = s.busCalls := rfl
@[simp] theorem State.delay_draws (s : State) (t : Nat) : (s.delay t).draws = s.draws := rfl
@[simp] theorem State.delay_history (s : State) (t : Nat) : (s.delay t).history = s.history ++ [.delay t] := rfl

/-! ### `State.lamp` -/

@[simp] theorem State.lamp_cfg (s : State) (on : Bool) : (s.lamp on).cfg = s.cfg := rfl
@[simp] theorem State.lamp_buffer (s : State) (on : Bool) : (s.lamp on).buffer = s.buffer := rfl
@[simp] theorem State.lamp_params (s : State) (on : Bool) : (s.lamp on).params = s.params := rfl
@[simp] theorem State.lamp_address (s : State) (on : Bool) : (s.lamp on).address = s.address := rfl
@[simp] theorem State.lamp_errorCount (s : State) (on : Bool) : (s.lamp on).errorCount = s.errorCount := rfl
@[simp] theorem State.lamp_mode (s : State) (on : Bool) : (s.lamp on).mode = s.mode := rfl
@[simp] theorem State.lamp_resetActiveHigh (s : State) (on : Bool) : (s.lamp on).resetActiveHigh = s.resetActiveHigh := rfl
@[simp] theorem State.lamp_progressCounter (s : State) (on : Bool) : (s.lamp on).progressCounter = s.cfg.freeProgress s.draws s.history s.progressCounter on := rfl
@[simp] theorem State.lamp_lampOn (s : State) (on : Bool) : (s.lamp on).lampOn = on := rfl
@[simp] theorem State.lamp_lines (s : State) (on : Bool) : (s.lamp on).lines = s.lines := rfl
@[simp] theorem State.lamp_busOn (s : State) (on : Bool) : (s.lamp on).busOn = s.busOn := rfl
@[simp] theorem State.lamp_got (s : State) (on : Bool) : (s.lamp on).got = s.got := rfl
@[simp] theorem State.lamp_busResult (s : State) (on : Bool) : (s.lamp on).busResult = s.busResult := rfl
@[simp] theorem State.lamp_wave (s : State) (on : Bool) : (s.lamp on).wave = s.wave := rfl
@[simp] theorem State.lamp_hostIn (s : State) (on : Bool) : (s.lamp on).hostIn = s.hostIn := rfl
@[simp] theorem State.lamp_targetIn (s : State) (on : Bool) : (s.lamp on).targetIn = s.targetIn := rfl
@[simp] theorem State.lamp_busCalls (s : State) (on : Bool) : (s.lamp on).busCalls = s.busCalls := rfl
@[simp] theorem State.lamp_draws (s : State) (on : Bool) : (s.lamp on).draws = s.draws + 1 := rfl
@[simp] theorem State.lamp_history (s : State) (on : Bool) : (s.lamp on).history = s.history := rfl

/-! ### `State.setDir` -/

@[simp] theorem State.setDir_cfg (s : State) (p : Pin) (d : Dir) : (s.setDir p d).cfg = s.cfg := rfl
@[simp] theorem State.setDir_buffer (s : State) (p : Pin) (d : Dir) : (s.setDir p d).buffer = s.buffer := rfl
@[simp] theorem State.setDir_params (s : State) (p : Pin) (d : Dir) : (s.setDir p d).params = s.params := rfl
@[simp] theorem State.setDir_address (s : State) (p : Pin) (d : Dir) : (s.setDir p d).address = s.address := rfl
@[simp] theorem State.setDir_errorCount (s : State) (p : Pin) (d : Dir) : (s.setDir p d).errorCount = s.errorCount := rfl
@[simp] theorem State.setDir_mode (s : State) (p : Pin) (d : Dir) : (s.setDir p d).mode = s.mode := rfl
@[simp] theorem State.setDir_resetActiveHigh (s : State) (p : Pin) (d : Dir) : (s.setDir p d).resetActiveHigh = s.resetActiveHigh := rfl
@[simp] theorem State.setDir_progressCounter (s : State) (p : Pin) (d : Dir) : (s.setDir p d).progressCounter = s.progressCounter := rfl
@[simp] theorem State.setDir_lampOn (s : State) (p : Pin) (d : Dir) : (s.setDir p d).lampOn = s.lampOn := rfl
@[simp] theorem State.setDir_lines (s : State) (p : Pin) (d : Dir) : (s.setDir p d).lines = s.lines.setDir p d := rfl
@[simp] theorem State.setDir_busOn (s : State) (p : Pin) (d : Dir) : (s.setDir p d).busOn = s.busOn := rfl
@[simp] theorem State.setDir_got (s : State) (p : Pin) (d : Dir) : (s.setDir p d).got = s.got := rfl
@[simp] theorem State.setDir_busResult (s : State) (p : Pin) (d : Dir) : (s.setDir p d).busResult = s.busResult := rfl
@[simp] theorem State.setDir_wave (s : State) (p : Pin) (d : Dir) : (s.setDir p d).wave = s.wave := rfl
@[simp] theorem State.setDir_hostIn (s : State) (p : Pin) (d : Dir) : (s.setDir p d).hostIn = s.hostIn := rfl
@[simp] theorem State.setDir_targetIn (s : State) (p : Pin) (d : Dir) : (s.setDir p d).targetIn = s.targetIn := rfl
@[simp] theorem State.setDir_busCalls (s : State) (p : Pin) (d : Dir) : (s.setDir p d).busCalls = s.busCalls := rfl
@[simp] theorem State.setDir_draws (s : State) (p : Pin) (d : Dir) : (s.setDir p d).draws = s.draws := rfl
@[simp] theorem State.setDir_history (s : State) (p : Pin) (d : Dir) : (s.setDir p d).history = s.history ++ [.setDir p d] := rfl

/-! ### `State.drive` -/

@[simp] theorem State.drive_cfg (s : State) (p : Pin) (v : Level) : (s.drive p v).cfg = s.cfg := rfl
@[simp] theorem State.drive_buffer (s : State) (p : Pin) (v : Level) : (s.drive p v).buffer = s.buffer := rfl
@[simp] theorem State.drive_params (s : State) (p : Pin) (v : Level) : (s.drive p v).params = s.params := rfl
@[simp] theorem State.drive_address (s : State) (p : Pin) (v : Level) : (s.drive p v).address = s.address := rfl
@[simp] theorem State.drive_errorCount (s : State) (p : Pin) (v : Level) : (s.drive p v).errorCount = s.errorCount := rfl
@[simp] theorem State.drive_mode (s : State) (p : Pin) (v : Level) : (s.drive p v).mode = s.mode := rfl
@[simp] theorem State.drive_resetActiveHigh (s : State) (p : Pin) (v : Level) : (s.drive p v).resetActiveHigh = s.resetActiveHigh := rfl
@[simp] theorem State.drive_progressCounter (s : State) (p : Pin) (v : Level) : (s.drive p v).progressCounter = s.progressCounter := rfl
@[simp] theorem State.drive_lampOn (s : State) (p : Pin) (v : Level) : (s.drive p v).lampOn = s.lampOn := rfl
@[simp] theorem State.drive_lines (s : State) (p : Pin) (v : Level) : (s.drive p v).lines = s.lines.drive p v := rfl
@[simp] theorem State.drive_busOn (s : State) (p : Pin) (v : Level) : (s.drive p v).busOn = s.busOn := rfl
@[simp] theorem State.drive_got (s : State) (p : Pin) (v : Level) : (s.drive p v).got = s.got := rfl
@[simp] theorem State.drive_busResult (s : State) (p : Pin) (v : Level) : (s.drive p v).busResult = s.busResult := rfl
@[simp] theorem State.drive_wave (s : State) (p : Pin) (v : Level) : (s.drive p v).wave = s.wave := rfl
@[simp] theorem State.drive_hostIn (s : State) (p : Pin) (v : Level) : (s.drive p v).hostIn = s.hostIn := rfl
@[simp] theorem State.drive_targetIn (s : State) (p : Pin) (v : Level) : (s.drive p v).targetIn = s.targetIn := rfl
@[simp] theorem State.drive_busCalls (s : State) (p : Pin) (v : Level) : (s.drive p v).busCalls = s.busCalls := rfl
@[simp] theorem State.drive_draws (s : State) (p : Pin) (v : Level) : (s.drive p v).draws = s.draws := rfl
@[simp] theorem State.drive_history (s : State) (p : Pin) (v : Level) : (s.drive p v).history = s.history ++ [.drive p v] := rfl

/-! ### `State.openMosi` -/

@[simp] theorem State.openMosi_cfg (s : State) : (s.openMosi).cfg = s.cfg := rfl
@[simp] theorem State.openMosi_buffer (s : State) : (s.openMosi).buffer = s.buffer := rfl
@[simp] theorem State.openMosi_params (s : State) : (s.openMosi).params = s.params := rfl
@[simp] theorem State.openMosi_address (s : State) : (s.openMosi).address = s.address := rfl
@[simp] theorem State.openMosi_errorCount (s : State) : (s.openMosi).errorCount = s.errorCount := rfl
@[simp] theorem State.openMosi_mode (s : State) : (s.openMosi).mode = s.mode := rfl
@[simp] theorem State.openMosi_resetActiveHigh (s : State) : (s.openMosi).resetActiveHigh = s.resetActiveHigh := rfl
@[simp] theorem State.openMosi_progressCounter (s : State) : (s.openMosi).progressCounter = s.progressCounter := rfl
@[simp] theorem State.openMosi_lampOn (s : State) : (s.openMosi).lampOn = s.lampOn := rfl
@[simp] theorem State.openMosi_lines (s : State) : (s.openMosi).lines = s.lines.drive .mosi (s.cfg.freeMosi s.draws s.history) := rfl
@[simp] theorem State.openMosi_busOn (s : State) : (s.openMosi).busOn = s.busOn := rfl
@[simp] theorem State.openMosi_got (s : State) : (s.openMosi).got = s.got := rfl
@[simp] theorem State.openMosi_busResult (s : State) : (s.openMosi).busResult = s.busResult := rfl
@[simp] theorem State.openMosi_wave (s : State) : (s.openMosi).wave = s.wave := rfl
@[simp] theorem State.openMosi_hostIn (s : State) : (s.openMosi).hostIn = s.hostIn := rfl
@[simp] theorem State.openMosi_targetIn (s : State) : (s.openMosi).targetIn = s.targetIn := rfl
@[simp] theorem State.openMosi_busCalls (s : State) : (s.openMosi).busCalls = s.busCalls := rfl
@[simp] theorem State.openMosi_draws (s : State) : (s.openMosi).draws = s.draws + 1 := rfl
@[simp] theorem State.openMosi_history (s : State) : (s.openMosi).history = s.history := rfl

/-! ### `State.setBus` -/

@[simp] theorem State.setBus_cfg (s : State) (b : Bool) : (s.setBus b).cfg = s.cfg := rfl
@[simp] theorem State.setBus_buffer (s : State) (b : Bool) : (s.setBus b).buffer = s.buffer := rfl
@[simp] theorem State.setBus_params (s : State) (b : Bool) : (s.setBus b).params = s.params := rfl
@[simp] theorem State.setBus_address (s : State) (b : Bool) : (s.setBus b).address = s.address := rfl
@[simp] theorem State.setBus_errorCount (s : State) (b : Bool) : (s.setBus b).errorCount = s.errorCount := rfl
@[simp] theorem State.setBus_mode (s : State) (b : Bool) : (s.setBus b).mode = s.mode := rfl
@[simp] theorem State.setBus_resetActiveHigh (s : State) (b : Bool) : (s.setBus b).resetActiveHigh = s.resetActiveHigh := rfl
@[simp] theorem State.setBus_progressCounter (s : State) (b : Bool) : (s.setBus b).progressCounter = s.progressCounter := rfl
@[simp] theorem State.setBus_lampOn (s : State) (b : Bool) : (s.setBus b).lampOn = s.lampOn := rfl
@[simp] theorem State.setBus_lines (s : State) (b : Bool) : (s.setBus b).lines = s.lines := rfl
@[simp] theorem State.setBus_busOn (s : State) (b : Bool) : (s.setBus b).busOn = b := rfl
@[simp] theorem State.setBus_got (s : State) (b : Bool) : (s.setBus b).got = s.got := rfl
@[simp] theorem State.setBus_busResult (s : State) (b : Bool) : (s.setBus b).busResult = s.busResult := rfl
@[simp] theorem State.setBus_wave (s : State) (b : Bool) : (s.setBus b).wave = s.wave := rfl
@[simp] theorem State.setBus_hostIn (s : State) (b : Bool) : (s.setBus b).hostIn = s.hostIn := rfl
@[simp] theorem State.setBus_targetIn (s : State) (b : Bool) : (s.setBus b).targetIn = s.targetIn := rfl
@[simp] theorem State.setBus_busCalls (s : State) (b : Bool) : (s.setBus b).busCalls = s.busCalls := rfl
@[simp] theorem State.setBus_draws (s : State) (b : Bool) : (s.setBus b).draws = s.draws := rfl
@[simp] theorem State.setBus_history (s : State) (b : Bool) : (s.setBus b).history = s.history := rfl

/-! ### `State.setMode` -/

@[simp] theorem State.setMode_cfg (s : State) (m : Mode) : (s.setMode m).cfg = s.cfg := rfl
@[simp] theorem State.setMode_buffer (s : State) (m : Mode) : (s.setMode m).buffer = s.buffer := rfl
@[simp] theorem State.setMode_params (s : State) (m : Mode) : (s.setMode m).params = s.params := rfl
@[simp] theorem State.setMode_address (s : State) (m : Mode) : (s.setMode m).address = s.address := rfl
@[simp] theorem State.setMode_errorCount (s : State) (m : Mode) : (s.setMode m).errorCount = s.errorCount := rfl
@[simp] theorem State.setMode_mode (s : State) (m : Mode) : (s.setMode m).mode = m := rfl
@[simp] theorem State.setMode_resetActiveHigh (s : State) (m : Mode) : (s.setMode m).resetActiveHigh = s.resetActiveHigh := rfl
@[simp] theorem State.setMode_progressCounter (s : State) (m : Mode) : (s.setMode m).progressCounter = s.progressCounter := rfl
@[simp] theorem State.setMode_lampOn (s : State) (m : Mode) : (s.setMode m).lampOn = s.lampOn := rfl
@[simp] theorem State.setMode_lines (s : State) (m : Mode) : (s.setMode m).lines = s.lines := rfl
@[simp] theorem State.setMode_busOn (s : State) (m : Mode) : (s.setMode m).busOn = s.busOn := rfl
@[simp] theorem State.setMode_got (s : State) (m : Mode) : (s.setMode m).got = s.got := rfl
@[simp] theorem State.setMode_busResult (s : State) (m : Mode) : (s.setMode m).busResult = s.busResult := rfl
@[simp] theorem State.setMode_wave (s : State) (m : Mode) : (s.setMode m).wave = s.wave := rfl
@[simp] theorem State.setMode_hostIn (s : State) (m : Mode) : (s.setMode m).hostIn = s.hostIn := rfl
@[simp] theorem State.setMode_targetIn (s : State) (m : Mode) : (s.setMode m).targetIn = s.targetIn := rfl
@[simp] theorem State.setMode_busCalls (s : State) (m : Mode) : (s.setMode m).busCalls = s.busCalls := rfl
@[simp] theorem State.setMode_draws (s : State) (m : Mode) : (s.setMode m).draws = s.draws := rfl
@[simp] theorem State.setMode_history (s : State) (m : Mode) : (s.setMode m).history = s.history := rfl

/-! ### `State.busXfer` -/

@[simp] theorem State.busXfer_cfg (s : State) (out : Word) : (s.busXfer out).cfg = s.cfg := rfl
@[simp] theorem State.busXfer_buffer (s : State) (out : Word) : (s.busXfer out).buffer = s.buffer := rfl
@[simp] theorem State.busXfer_params (s : State) (out : Word) : (s.busXfer out).params = s.params := rfl
@[simp] theorem State.busXfer_address (s : State) (out : Word) : (s.busXfer out).address = s.address := rfl
@[simp] theorem State.busXfer_errorCount (s : State) (out : Word) : (s.busXfer out).errorCount = s.errorCount := rfl
@[simp] theorem State.busXfer_mode (s : State) (out : Word) : (s.busXfer out).mode = s.mode := rfl
@[simp] theorem State.busXfer_resetActiveHigh (s : State) (out : Word) : (s.busXfer out).resetActiveHigh = s.resetActiveHigh := rfl
@[simp] theorem State.busXfer_progressCounter (s : State) (out : Word) : (s.busXfer out).progressCounter = s.progressCounter := rfl
@[simp] theorem State.busXfer_lampOn (s : State) (out : Word) : (s.busXfer out).lampOn = s.lampOn := rfl
@[simp] theorem State.busXfer_lines (s : State) (out : Word) : (s.busXfer out).lines = busLines (s.history ++ [.bus out (receivedWord s.cfg.bitOrder out (s.nextAnswer out))]) s := rfl
@[simp] theorem State.busXfer_busOn (s : State) (out : Word) : (s.busXfer out).busOn = s.busOn := rfl
@[simp] theorem State.busXfer_got (s : State) (out : Word) : (s.busXfer out).got = s.got := rfl
@[simp] theorem State.busXfer_busResult (s : State) (out : Word) : (s.busXfer out).busResult = byteOf (receivedWord s.cfg.bitOrder out (s.nextAnswer out)) 3 := rfl
@[simp] theorem State.busXfer_wave (s : State) (out : Word) : (s.busXfer out).wave = (if s.busOn then busWave s.cfg out else s.cfg.freeWave s.draws (s.history ++ [.bus out (receivedWord s.cfg.bitOrder out (s.nextAnswer out))])) := rfl
@[simp] theorem State.busXfer_hostIn (s : State) (out : Word) : (s.busXfer out).hostIn = s.hostIn := rfl
@[simp] theorem State.busXfer_targetIn (s : State) (out : Word) : (s.busXfer out).targetIn = s.targetIn.tail := rfl
@[simp] theorem State.busXfer_busCalls (s : State) (out : Word) : (s.busXfer out).busCalls = s.busCalls := rfl
@[simp] theorem State.busXfer_draws (s : State) (out : Word) : (s.busXfer out).draws = s.draws + 1 := rfl
@[simp] theorem State.busXfer_history (s : State) (out : Word) : (s.busXfer out).history = s.history ++ [.bus out (receivedWord s.cfg.bitOrder out (s.nextAnswer out))] := rfl

/-! ### `State.countError` -/

@[simp] theorem State.countError_cfg (s : State) : (s.countError).cfg = s.cfg := rfl
@[simp] theorem State.countError_buffer (s : State) : (s.countError).buffer = s.buffer := rfl
@[simp] theorem State.countError_params (s : State) : (s.countError).params = s.params := rfl
@[simp] theorem State.countError_address (s : State) : (s.countError).address = s.address := rfl
@[simp] theorem State.countError_errorCount (s : State) : (s.countError).errorCount = s.errorCount + 1 := rfl
@[simp] theorem State.countError_mode (s : State) : (s.countError).mode = s.mode := rfl
@[simp] theorem State.countError_resetActiveHigh (s : State) : (s.countError).resetActiveHigh = s.resetActiveHigh := rfl
@[simp] theorem State.countError_progressCounter (s : State) : (s.countError).progressCounter = s.progressCounter := rfl
@[simp] theorem State.countError_lampOn (s : State) : (s.countError).lampOn = s.lampOn := rfl
@[simp] theorem State.countError_lines (s : State) : (s.countError).lines = s.lines := rfl
@[simp] theorem State.countError_busOn (s : State) : (s.countError).busOn = s.busOn := rfl
@[simp] theorem State.countError_got (s : State) : (s.countError).got = s.got := rfl
@[simp] theorem State.countError_busResult (s : State) : (s.countError).busResult = s.busResult := rfl
@[simp] theorem State.countError_wave (s : State) : (s.countError).wave = s.wave := rfl
@[simp] theorem State.countError_hostIn (s : State) : (s.countError).hostIn = s.hostIn := rfl
@[simp] theorem State.countError_targetIn (s : State) : (s.countError).targetIn = s.targetIn := rfl
@[simp] theorem State.countError_busCalls (s : State) : (s.countError).busCalls = s.busCalls := rfl
@[simp] theorem State.countError_draws (s : State) : (s.countError).draws = s.draws := rfl
@[simp] theorem State.countError_history (s : State) : (s.countError).history = s.history := rfl

/-- Two states with the same fields are the same. -/
theorem State.ext_fields {s t : State}
    (h0 : s.cfg = t.cfg) (h1 : s.buffer = t.buffer) (h2 : s.params = t.params) (h3 : s.address = t.address)
    (h4 : s.errorCount = t.errorCount) (h5 : s.mode = t.mode) (h6 : s.resetActiveHigh = t.resetActiveHigh)
    (h7 : s.progressCounter = t.progressCounter) (h8 : s.lampOn = t.lampOn) (h9 : s.lines = t.lines)
    (h10 : s.busOn = t.busOn) (h11 : s.got = t.got) (h12 : s.busResult = t.busResult)
    (h13 : s.hostIn = t.hostIn) (h14 : s.targetIn = t.targetIn) (h15 : s.busCalls = t.busCalls)
    (h16 : s.draws = t.draws) (h17 : s.history = t.history) (h18 : s.wave = t.wave) : s = t := by
  cases s
  cases t
  simp_all

end Sys2Proof.Machine
end

