-- ==== Sys2Proof/Laws/Memory.lean ====
section
/-! SUPPORT. The session buffer: a read after a write, and the canonical form. -/

namespace Sys2Proof.Machine

/-- A written byte reads back. -/
theorem Memory.get_put_same (m : Memory) (a : Nat) (v : Byte) (h : m.Pairwise (fun c d => c.1 < d.1)) :
    Memory.get (Memory.put m a v) a = v := by
  induction m with
  | nil => by_cases hv : v = Memory.unlisted <;> simp [Memory.put, Memory.get, hv]
  | cons c m ih =>
    obtain ⟨k, x⟩ := c
    have hlt : ∀ d ∈ m, k < d.1 := (List.pairwise_cons.mp h).1
    have absent : ∀ n : Memory, (∀ d ∈ n, a < d.1) → Memory.get n a = Memory.unlisted := by
      intro n hn
      induction n with
      | nil => rfl
      | cons d n ihn =>
        have := hn d (by simp)
        simp [Memory.get, Nat.ne_of_gt this, ihn fun e he => hn e (by simp [he])]
    by_cases h1 : a < k
    · by_cases hv : v = Memory.unlisted
      · simp only [Memory.put, h1, hv, if_true]
        apply absent
        intro d hd
        rcases List.mem_cons.mp hd with rfl | hd
        · exact h1
        · exact Nat.lt_trans h1 (hlt d hd)
      · simp [Memory.put, h1, hv, Memory.get]
    · by_cases h2 : a = k
      · subst h2
        by_cases hv : v = Memory.unlisted
        · simp only [Memory.put, lt_irrefl, hv, if_true, if_false]
          exact absent m hlt
        · simp [Memory.put, hv, Memory.get]
      · simp [Memory.put, h1, h2, Memory.get, Ne.symm h2, ih (List.pairwise_cons.mp h).2]

/-- A write leaves every other byte alone. -/
theorem Memory.get_put_other (m : Memory) (a b : Nat) (v : Byte) (hab : a ≠ b) :
    Memory.get (Memory.put m a v) b = Memory.get m b := by
  induction m with
  | nil => by_cases hv : v = Memory.unlisted <;> simp [Memory.put, Memory.get, hv, hab]
  | cons c m ih =>
    obtain ⟨k, x⟩ := c
    simp only [Memory.put]
    split
    · split <;> simp [Memory.get, hab]
    · split
      · next h => subst h; split <;> simp [Memory.get, hab]
      · simp [Memory.get, ih]

/-- The addresses after a write are the old ones and the one written. -/
theorem Memory.mem_put (m : Memory) (a : Nat) (v : Byte) (c : Host.Cell) (h : c ∈ Memory.put m a v) :
    c ∈ m ∨ (c = (a, v) ∧ v ≠ Memory.unlisted) := by
  induction m with
  | nil =>
    simp only [Memory.put] at h
    split at h <;> simp_all
  | cons d m ih =>
    obtain ⟨k, x⟩ := d
    simp only [Memory.put] at h
    split at h
    · split at h
      · exact .inl h
      · rcases List.mem_cons.mp h with rfl | h
        · exact .inr ⟨rfl, ‹_›⟩
        · exact .inl h
    · split at h
      · split at h
        · exact .inl (List.mem_cons_of_mem _ h)
        · rcases List.mem_cons.mp h with rfl | h
          · exact .inr ⟨rfl, ‹_›⟩
          · exact .inl (List.mem_cons_of_mem _ h)
      · rcases List.mem_cons.mp h with rfl | h
        · exact .inl (by simp)
        · rcases ih h with h | h
          · exact .inl (List.mem_cons_of_mem _ h)
          · exact .inr h

/-- A write keeps the addresses strictly rising. -/
theorem Memory.put_rising (m : Memory) (a : Nat) (v : Byte) (h : m.Pairwise (fun c d => c.1 < d.1)) :
    (Memory.put m a v).Pairwise (fun c d => c.1 < d.1) := by
  induction m with
  | nil => simp only [Memory.put]; split <;> simp
  | cons d m ih =>
    obtain ⟨k, x⟩ := d
    obtain ⟨hk, hm⟩ := List.pairwise_cons.mp h
    simp only [Memory.put]
    split
    · next hlt =>
      split
      · exact h
      · refine List.pairwise_cons.mpr ⟨fun c hc => ?_, h⟩
        rcases List.mem_cons.mp hc with rfl | hc
        · exact hlt
        · exact Nat.lt_trans hlt (hk c hc)
    · split
      · next heq =>
        subst heq
        split
        · exact hm
        · exact List.pairwise_cons.mpr ⟨hk, hm⟩
      · refine List.pairwise_cons.mpr ⟨fun c hc => ?_, ih hm⟩
        rcases Memory.mem_put m a v c hc with hc | ⟨rfl, -⟩
        · exact hk c hc
        · simp only
          omega

/-- A write inside the buffer keeps the canonical form. -/
theorem Memory.put_wf (m : Memory) (a : Nat) (v : Byte) (ha : a < bufSize) (h : Memory.wf m) :
    Memory.wf (Memory.put m a v) := by
  refine ⟨Memory.put_rising m a v h.1, fun c hc => ?_⟩
  rcases Memory.mem_put m a v c hc with hc | ⟨rfl, hv⟩
  · exact h.2 c hc
  · exact ⟨ha, hv⟩

/-- `buffer[i] <- v` keeps the canonical form. -/
theorem State.memWrite_wf (s : State) (i : BitVec 8) (v : Byte) (h : Memory.wf s.buffer) :
    Memory.wf (s.memWrite i v).buffer := Memory.put_wf _ _ _ i.isLt h

/-- `buffer[x] <- v` keeps the canonical form. -/
theorem State.fillAt_wf (s : State) (x : Nat) (v : Byte) (h : Memory.wf s.buffer) :
    Memory.wf (s.fillAt x v).buffer := State.memWrite_wf _ _ _ h

/-- What a byte of the buffer reads after a write. -/
theorem State.memRead_memWrite (s : State) (i j : BitVec 8) (v : Byte) (h : Memory.wf s.buffer) :
    (s.memWrite i v).memRead j = if j = i then v else s.memRead j := by
  unfold State.memRead State.memWrite
  split
  · next hji => subst hji; exact Memory.get_put_same _ _ _ h.1
  · next hji => exact Memory.get_put_other _ _ _ _ fun he => hji (BitVec.eq_of_toNat_eq he.symm)

end Sys2Proof.Machine
end

