-- ==== Sys2Proof/Laws/Bytes.lean ====
section
/-! SUPPORT. Byte order: bytes taken out of halves and words, and put together again; the bytes of a transaction; what a
byte shifted bit by bit is received as. -/

namespace Sys2Proof

theorem half_bit (hi lo : Byte) (i : Nat) :
    (half hi lo).getLsbD i = if i < 8 then lo.getLsbD i else hi.getLsbD (i - 8) :=
  (BitVec.getLsbD_append (x := hi) (y := lo) (i := i)).trans (by by_cases h : i < 8 <;> simp [h])

theorem word4_bit (b0 b1 b2 b3 : Byte) (i : Nat) :
    (word4 b0 b1 b2 b3).getLsbD i = if i < 8 then b3.getLsbD i else if i < 16 then b2.getLsbD (i - 8)
      else if i < 24 then b1.getLsbD (i - 16) else b0.getLsbD (i - 24) := by
  refine (BitVec.getLsbD_append (x := b0 ++ b1 ++ b2) (y := b3) (i := i)).trans ?_
  rw [BitVec.getLsbD_append, BitVec.getLsbD_append, Nat.sub_sub, Nat.sub_sub]
  by_cases h : i < 8
  · simp [h]
  by_cases h2 : i < 16
  · simp [h, h2, show i - 8 < 8 by omega]
  by_cases h3 : i < 24
  · simp [h, h2, h3, show ¬ i - 8 < 8 by omega, show i - 16 < 8 by omega]
  · simp [h, h2, h3, show ¬ i - 8 < 8 by omega, show ¬ i - 16 < 8 by omega]

@[simp] theorem hi8_half (hi lo : Byte) : hi8 (half hi lo) = hi := by
  ext i h
  simp [hi8, half_bit, ← BitVec.getLsbD_eq_getElem, h]

@[simp] theorem lo8_half (hi lo : Byte) : lo8 (half hi lo) = lo := by
  ext i h
  simp [lo8, half_bit, ← BitVec.getLsbD_eq_getElem, h]

@[simp] theorem half_hi8_lo8 (v : Half) : half (hi8 v) (lo8 v) = v := by
  ext i h
  rw [← BitVec.getLsbD_eq_getElem, half_bit]
  by_cases h8 : i < 8
  · simp [lo8, h8, h]
  · simp [hi8, h8, h, show i - 8 < 8 by omega, show 8 + (i - 8) = i by omega]

@[simp] theorem byteOf_word4_0 (b0 b1 b2 b3 : Byte) : byteOf (word4 b0 b1 b2 b3) 0 = b0 := by
  ext i h
  simp [byteOf, word4_bit, ← BitVec.getLsbD_eq_getElem, h, show ¬ 24 + i < 8 by omega, show ¬ 24 + i < 16 by omega]

@[simp] theorem byteOf_word4_1 (b0 b1 b2 b3 : Byte) : byteOf (word4 b0 b1 b2 b3) 1 = b1 := by
  ext i h
  simp [byteOf, word4_bit, ← BitVec.getLsbD_eq_getElem, h, show ¬ 16 + i < 8 by omega, show 16 + i < 24 by omega]

@[simp] theorem byteOf_word4_2 (b0 b1 b2 b3 : Byte) : byteOf (word4 b0 b1 b2 b3) 2 = b2 := by
  ext i h
  simp [byteOf, word4_bit, ← BitVec.getLsbD_eq_getElem, h, show 8 + i < 16 by omega]

@[simp] theorem byteOf_word4_3 (b0 b1 b2 b3 : Byte) : byteOf (word4 b0 b1 b2 b3) 3 = b3 := by
  ext i h
  simp [byteOf, word4_bit, ← BitVec.getLsbD_eq_getElem, h]

@[simp] theorem word4_byteOf (w : Word) : word4 (byteOf w 0) (byteOf w 1) (byteOf w 2) (byteOf w 3) = w := by
  ext i h
  rw [← BitVec.getLsbD_eq_getElem, word4_bit]
  by_cases h1 : i < 8
  · simp [byteOf, h1, h]
  by_cases h2 : i < 16
  · simp [byteOf, h1, h2, h, show i - 8 < 8 by omega, show 8 + (i - 8) = i by omega]
  by_cases h3 : i < 24
  · simp [byteOf, h1, h2, h3, h, show i - 16 < 8 by omega, show 16 + (i - 16) = i by omega]
  · simp [byteOf, h1, h2, h3, h, show i - 24 < 8 by omega, show 24 + (i - 24) = i by omega]

@[simp] theorem byteOf_busWord_0 (c : Byte) (a : Half) (d : Byte) : byteOf (busWord c a d) 0 = c := by simp [busWord]
@[simp] theorem byteOf_busWord_1 (c : Byte) (a : Half) (d : Byte) : byteOf (busWord c a d) 1 = hi8 a := by simp [busWord]
@[simp] theorem byteOf_busWord_2 (c : Byte) (a : Half) (d : Byte) : byteOf (busWord c a d) 2 = lo8 a := by simp [busWord]
@[simp] theorem byteOf_busWord_3 (c : Byte) (a : Half) (d : Byte) : byteOf (busWord c a d) 3 = d := by simp [busWord]
@[simp] theorem addrOf_busWord (c : Byte) (a : Half) (d : Byte) : addrOf (busWord c a d) = a := by simp [addrOf, busWord]

/-- A word is the transaction of its command byte, address and data byte. -/
theorem busWord_fields (w : Word) : busWord (byteOf w 0) (addrOf w) (byteOf w 3) = w := by simp [busWord, addrOf]

/-- Two words with the same bytes are equal. -/
theorem word_ext (v w : Word) (h : ∀ k < 4, byteOf v k = byteOf w k) : v = w := by
  rw [← word4_byteOf v, ← word4_byteOf w, h 0 (by omega), h 1 (by omega), h 2 (by omega), h 3 (by omega)]

/-- Two bytes as a number, the first the more significant (42 R191). -/
theorem half_ofNat (hi lo : Byte) : half hi lo = BitVec.ofNat 16 (256 * hi.toNat + lo.toNat) := by
  apply BitVec.eq_of_toNat_eq
  have h1 := hi.isLt
  have h2 := lo.isLt
  show (hi ++ lo).toNat = _
  rw [BitVec.toNat_append, ← Nat.shiftLeft_add_eq_or_of_lt h2, Nat.shiftLeft_eq, BitVec.toNat_ofNat]
  omega

/-- Four bytes as a number. -/
theorem word4_ofNat (b0 b1 b2 b3 : Byte) : word4 b0 b1 b2 b3 =
    BitVec.ofNat 32 (b0.toNat * 2 ^ 24 + b1.toNat * 2 ^ 16 + b2.toNat * 2 ^ 8 + b3.toNat) := by
  apply BitVec.eq_of_toNat_eq
  have h0 := b0.isLt
  have h1 := b1.isLt
  have h2 := b2.isLt
  have h3 := b3.isLt
  show (b0 ++ b1 ++ b2 ++ b3).toNat = _
  rw [BitVec.toNat_append, BitVec.toNat_append, BitVec.toNat_append, ← Nat.shiftLeft_add_eq_or_of_lt h1,
    ← Nat.shiftLeft_add_eq_or_of_lt h2, ← Nat.shiftLeft_add_eq_or_of_lt h3, Nat.shiftLeft_eq, Nat.shiftLeft_eq,
    Nat.shiftLeft_eq, BitVec.toNat_ofNat]
  omega

namespace Machine

/-- What is received does not depend on what is presented. -/
theorem shiftBits_received_indep (o : BitOrder) (x y m : Byte) :
    ∀ (n : Nat) (r : Byte), (shiftBits o x m n r).2 = (shiftBits o y m n r).2
  | 0, _ => rfl
  | n + 1, r => by simp only [shiftBits]; exact shiftBits_received_indep o x y m n _

/-- What is sampled over eight clock periods, in either bit order, is the target's byte (41 R173). -/
theorem shiftByte_received_zero (o : BitOrder) : ∀ m : Byte, (shiftByte o 0 m).2 = m := by cases o <;> decide

@[simp] theorem shiftByte_received (o : BitOrder) (x m : Byte) : (shiftByte o x m).2 = m :=
  (shiftBits_received_indep o x 0 m 8 0).trans (shiftByte_received_zero o m)

@[simp] theorem receivedWord_eq (o : BitOrder) (out ans : Word) : receivedWord o out ans = ans := by simp [receivedWord]

/-- The levels presented are the bits of the byte in the bit order. -/
theorem shiftBits_levels (o : BitOrder) (x m : Byte) : ∀ (n : Nat) (r : Byte),
    (shiftBits o x m n r).1 = ((List.range n).reverse.map fun k => levelOf (x.getLsbD (bitIndex o k)))
  | 0, _ => rfl
  | n + 1, r => by
    simp only [shiftBits, shiftBits_levels o x m n, List.range_succ, List.reverse_append, List.reverse_cons,
      List.reverse_nil, List.nil_append, List.cons_append, List.map_cons]

/-- One level a clock period. -/
@[simp] theorem mosiLevels_length (o : BitOrder) (out : Word) : (mosiLevels o out).length = 32 := by
  simp [mosiLevels, wordBytes, shiftByte, shiftBits_levels]

/-- Two halves a clock period. -/
@[simp] theorem busWave_length (cfg : Config) (out : Word) : (busWave cfg out).length = 64 := by
  have h : ∀ l, (clockPeriod cfg.busMode l).length = 2 := fun l => by unfold clockPeriod; split <;> rfl
  simp [busWave, List.length_flatMap, h]

end Machine

end Sys2Proof
end

