-- ==== Sys2Proof/Laws/Replies.lean ====
section
/-! SUPPORT. The dispatch class of every opcode byte, and the closed forms of the reply helpers. -/

namespace Sys2Proof

/-- `EOP` where an opcode is expected (40 R147). -/
@[simp] theorem classify_eop (cfg : Config) : classify cfg eopByte = .bareEop := by simp [classify]

@[simp] theorem classify_signOn (cfg : Config) (h : cfg.WellFormed) : classify cfg cfg.opcodes.signOn = .signOn := by
  obtain ⟨h, -⟩ := h
  simp only [Opcodes.toList, List.nodup_cons, List.mem_cons, not_or] at h
  simp [classify, h, Ne.symm]

@[simp] theorem classify_getSync (cfg : Config) (h : cfg.WellFormed) : classify cfg cfg.opcodes.getSync = .getSync := by
  obtain ⟨h, -⟩ := h
  simp only [Opcodes.toList, List.nodup_cons, List.mem_cons, not_or] at h
  simp [classify, h, Ne.symm]

@[simp] theorem classify_getParam (cfg : Config) (h : cfg.WellFormed) : classify cfg cfg.opcodes.getParam = .getParam := by
  obtain ⟨h, -⟩ := h
  simp only [Opcodes.toList, List.nodup_cons, List.mem_cons, not_or] at h
  simp [classify, h, Ne.symm]

@[simp] theorem classify_setParams (cfg : Config) (h : cfg.WellFormed) : classify cfg cfg.opcodes.setParams = .setParams := by
  obtain ⟨h, -⟩ := h
  simp only [Opcodes.toList, List.nodup_cons, List.mem_cons, not_or] at h
  simp [classify, h, Ne.symm]

@[simp] theorem classify_setExt (cfg : Config) (h : cfg.WellFormed) : classify cfg cfg.opcodes.setExt = .setExt := by
  obtain ⟨h, -⟩ := h
  simp only [Opcodes.toList, List.nodup_cons, List.mem_cons, not_or] at h
  simp [classify, h, Ne.symm]

@[simp] theorem classify_enter (cfg : Config) (h : cfg.WellFormed) : classify cfg cfg.opcodes.enter = .enter := by
  obtain ⟨h, -⟩ := h
  simp only [Opcodes.toList, List.nodup_cons, List.mem_cons, not_or] at h
  simp [classify, h, Ne.symm]

@[simp] theorem classify_leave (cfg : Config) (h : cfg.WellFormed) : classify cfg cfg.opcodes.leave = .leave := by
  obtain ⟨h, -⟩ := h
  simp only [Opcodes.toList, List.nodup_cons, List.mem_cons, not_or] at h
  simp [classify, h, Ne.symm]

@[simp] theorem classify_setAddr (cfg : Config) (h : cfg.WellFormed) : classify cfg cfg.opcodes.setAddr = .setAddr := by
  obtain ⟨h, -⟩ := h
  simp only [Opcodes.toList, List.nodup_cons, List.mem_cons, not_or] at h
  simp [classify, h, Ne.symm]

@[simp] theorem classify_progFlash (cfg : Config) (h : cfg.WellFormed) : classify cfg cfg.opcodes.progFlash = .progFlash := by
  obtain ⟨h, -⟩ := h
  simp only [Opcodes.toList, List.nodup_cons, List.mem_cons, not_or] at h
  simp [classify, h, Ne.symm]

@[simp] theorem classify_progData (cfg : Config) (h : cfg.WellFormed) : classify cfg cfg.opcodes.progData = .progData := by
  obtain ⟨h, -⟩ := h
  simp only [Opcodes.toList, List.nodup_cons, List.mem_cons, not_or] at h
  simp [classify, h, Ne.symm]

@[simp] theorem classify_progPage (cfg : Config) (h : cfg.WellFormed) : classify cfg cfg.opcodes.progPage = .progPage := by
  obtain ⟨h, -⟩ := h
  simp only [Opcodes.toList, List.nodup_cons, List.mem_cons, not_or] at h
  simp [classify, h, Ne.symm]

@[simp] theorem classify_readPage (cfg : Config) (h : cfg.WellFormed) : classify cfg cfg.opcodes.readPage = .readPage := by
  obtain ⟨h, -⟩ := h
  simp only [Opcodes.toList, List.nodup_cons, List.mem_cons, not_or] at h
  simp [classify, h, Ne.symm]

@[simp] theorem classify_universal (cfg : Config) (h : cfg.WellFormed) : classify cfg cfg.opcodes.universal = .universal := by
  obtain ⟨h, -⟩ := h
  simp only [Opcodes.toList, List.nodup_cons, List.mem_cons, not_or] at h
  simp [classify, h, Ne.symm]

@[simp] theorem classify_readSig (cfg : Config) (h : cfg.WellFormed) : classify cfg cfg.opcodes.readSig = .readSig := by
  obtain ⟨h, -⟩ := h
  simp only [Opcodes.toList, List.nodup_cons, List.mem_cons, not_or] at h
  simp [classify, h, Ne.symm]

/-- An opcode byte outside the map (30 R99). -/
theorem classify_unknown (cfg : Config) (b : Byte) (h : b ≠ eopByte) (hb : b ∉ cfg.opcodes.toList) :
    classify cfg b = .unknown := by
  simp only [Opcodes.toList, List.mem_cons, not_or, List.not_mem_nil, not_false_iff] at hb
  simp [classify, h, hb]

/-- What the class of a byte says of the byte. -/
def ClassSays (cfg : Config) (b : Byte) : Command → Prop
  | .signOn => b = cfg.opcodes.signOn
  | .getSync => b = cfg.opcodes.getSync
  | .getParam => b = cfg.opcodes.getParam
  | .setParams => b = cfg.opcodes.setParams
  | .setExt => b = cfg.opcodes.setExt
  | .enter => b = cfg.opcodes.enter
  | .leave => b = cfg.opcodes.leave
  | .setAddr => b = cfg.opcodes.setAddr
  | .progFlash => b = cfg.opcodes.progFlash
  | .progData => b = cfg.opcodes.progData
  | .progPage => b = cfg.opcodes.progPage
  | .readPage => b = cfg.opcodes.readPage
  | .universal => b = cfg.opcodes.universal
  | .readSig => b = cfg.opcodes.readSig
  | .bareEop => b = eopByte
  | .unknown => b ≠ eopByte ∧ b ∉ cfg.opcodes.toList

/-- The class of a byte says which byte it is. -/
theorem classify_says (cfg : Config) (b : Byte) : ClassSays cfg b (classify cfg b) := by
  unfold classify
  repeat refine iteInduction (fun h => h) fun _ => ?_
  refine ⟨‹_›, ?_⟩
  simp only [Opcodes.toList, List.mem_cons, List.not_mem_nil, or_false, not_or]
  exact ⟨‹_›, ‹_›, ‹_›, ‹_›, ‹_›, ‹_›, ‹_›, ‹_›, ‹_›, ‹_›, ‹_›, ‹_›, ‹_›, ‹_›⟩

theorem classSays_of (cfg : Config) (b : Byte) (c : Command) (h : classify cfg b = c) : ClassSays cfg b c :=
  h ▸ classify_says cfg b

namespace Machine

theorem State.hostWrites_eq (s : State) (bs : List Byte) :
    s.hostWrites bs = { s with history := s.history ++ bs.map .hostWrite } := by
  unfold State.hostWrites
  induction bs generalizing s with
  | nil => simp
  | cons b bs ih => rw [List.foldl_cons, ih]; simp [State.hostWrite, State.emit]

theorem State.replyOK_eq (s : State) (bs : List Byte) :
    s.replyOK bs = { s with
      got := []
      history := s.history ++ [.hostWrite insync] ++ bs.map .hostWrite ++ [.hostWrite okByte] } := by
  simp [State.replyOK, State.hostWrites_eq, State.hostWrite, State.emit, State.endCommand]

theorem State.answerError_eq (s : State) (e : ErrorClass) :
    s.answerError e = { s with got := [], history := s.history ++ (errorReply e).map .hostWrite } := by
  simp [State.answerError, State.hostWrites_eq, State.endCommand]

theorem State.raise_eq (s : State) (e : ErrorClass) :
    s.raise e = { s with
      got := [], errorCount := s.errorCount + 1, history := s.history ++ (errorReply e).map .hostWrite } := by
  simp [State.raise, State.answerError_eq, State.countError]

/-- What `CheckEOP` can answer (00 R13): the command goes on, or a framing error ends it. -/
theorem checkEop_cases (eop : Byte) (k : State → Result) (s : State) :
    (eop = eopByte ∧ checkEop eop k s = k (s.hostRead eopByte)) ∨
      (eop ≠ eopByte ∧ checkEop eop k s = .next ((s.hostRead eop).raise .framing)) := by
  unfold checkEop
  by_cases h : eop = eopByte
  · exact .inl ⟨h, by simp [h]⟩
  · exact .inr ⟨h, by simp [h]⟩

@[simp] theorem checkEop_synced (k : State → Result) (s : State) :
    checkEop eopByte k s = k (s.hostRead eopByte) := by simp [checkEop]

theorem checkEop_bad (eop : Byte) (h : eop ≠ eopByte) (k : State → Result) (s : State) :
    checkEop eop k s = .next ((s.hostRead eop).raise .framing) := by simp [checkEop, h]

end Machine

end Sys2Proof
end

