-- ==== Sys2Proof/Laws/Sequencer.lean ====
section
/-! SUPPORT. The shared effects of Machine/Sequencer.lean, field by field. -/

namespace Sys2Proof.Machine

/-! ### `clearErrors` -/

@[simp] theorem clearErrors_cfg (s : State) : (clearErrors s).cfg = s.cfg := rfl
@[simp] theorem clearErrors_buffer (s : State) : (clearErrors s).buffer = s.buffer := rfl
@[simp] theorem clearErrors_params (s : State) : (clearErrors s).params = s.params := rfl
@[simp] theorem clearErrors_address (s : State) : (clearErrors s).address = s.address := rfl
@[simp] theorem clearErrors_errorCount (s : State) : (clearErrors s).errorCount = 0 := rfl
@[simp] theorem clearErrors_mode (s : State) : (clearErrors s).mode = s.mode := rfl
@[simp] theorem clearErrors_resetActiveHigh (s : State) : (clearErrors s).resetActiveHigh = s.resetActiveHigh := rfl
@[simp] theorem clearErrors_progressCounter (s : State) : (clearErrors s).progressCounter = s.progressCounter := rfl
@[simp] theorem clearErrors_lampOn (s : State) : (clearErrors s).lampOn = s.lampOn := rfl
@[simp] theorem clearErrors_lines (s : State) : (clearErrors s).lines = s.lines := rfl
@[simp] theorem clearErrors_busOn (s : State) : (clearErrors s).busOn = s.busOn := rfl
@[simp] theorem clearErrors_got (s : State) : (clearErrors s).got = s.got := rfl
@[simp] theorem clearErrors_busResult (s : State) : (clearErrors s).busResult = s.busResult := rfl
@[simp] theorem clearErrors_wave (s : State) : (clearErrors s).wave = s.wave := rfl
@[simp] theorem clearErrors_hostIn (s : State) : (clearErrors s).hostIn = s.hostIn := rfl
@[simp] theorem clearErrors_targetIn (s : State) : (clearErrors s).targetIn = s.targetIn := rfl
@[simp] theorem clearErrors_busCalls (s : State) : (clearErrors s).busCalls = s.busCalls := rfl
@[simp] theorem clearErrors_draws (s : State) : (clearErrors s).draws = s.draws := rfl
@[simp] theorem clearErrors_history (s : State) : (clearErrors s).history = s.history := rfl

/-! ### `setAddress` -/

@[simp] theorem setAddress_cfg (s : State) (lo hi : Byte) : (setAddress lo hi s).cfg = s.cfg := rfl
@[simp] theorem setAddress_buffer (s : State) (lo hi : Byte) : (setAddress lo hi s).buffer = s.buffer := rfl
@[simp] theorem setAddress_params (s : State) (lo hi : Byte) : (setAddress lo hi s).params = s.params := rfl
@[simp] theorem setAddress_address (s : State) (lo hi : Byte) : (setAddress lo hi s).address = half hi lo := rfl
@[simp] theorem setAddress_errorCount (s : State) (lo hi : Byte) : (setAddress lo hi s).errorCount = s.errorCount := rfl
@[simp] theorem setAddress_mode (s : State) (lo hi : Byte) : (setAddress lo hi s).mode = s.mode := rfl
@[simp] theorem setAddress_resetActiveHigh (s : State) (lo hi : Byte) : (setAddress lo hi s).resetActiveHigh = s.resetActiveHigh := rfl
@[simp] theorem setAddress_progressCounter (s : State) (lo hi : Byte) : (setAddress lo hi s).progressCounter = s.progressCounter := rfl
@[simp] theorem setAddress_lampOn (s : State) (lo hi : Byte) : (setAddress lo hi s).lampOn = s.lampOn := rfl
@[simp] theorem setAddress_lines (s : State) (lo hi : Byte) : (setAddress lo hi s).lines = s.lines := rfl
@[simp] theorem setAddress_busOn (s : State) (lo hi : Byte) : (setAddress lo hi s).busOn = s.busOn := rfl
@[simp] theorem setAddress_got (s : State) (lo hi : Byte) : (setAddress lo hi s).got = s.got := rfl
@[simp] theorem setAddress_busResult (s : State) (lo hi : Byte) : (setAddress lo hi s).busResult = s.busResult := rfl
@[simp] theorem setAddress_wave (s : State) (lo hi : Byte) : (setAddress lo hi s).wave = s.wave := rfl
@[simp] theorem setAddress_hostIn (s : State) (lo hi : Byte) : (setAddress lo hi s).hostIn = s.hostIn := rfl
@[simp] theorem setAddress_targetIn (s : State) (lo hi : Byte) : (setAddress lo hi s).targetIn = s.targetIn := rfl
@[simp] theorem setAddress_busCalls (s : State) (lo hi : Byte) : (setAddress lo hi s).busCalls = s.busCalls := rfl
@[simp] theorem setAddress_draws (s : State) (lo hi : Byte) : (setAddress lo hi s).draws = s.draws := rfl
@[simp] theorem setAddress_history (s : State) (lo hi : Byte) : (setAddress lo hi s).history = s.history := rfl

/-! ### `decodeParameters` -/

@[simp] theorem decodeParameters_cfg (s : State) : (decodeParameters s).cfg = s.cfg := rfl
@[simp] theorem decodeParameters_buffer (s : State) : (decodeParameters s).buffer = s.buffer := rfl
@[simp] theorem decodeParameters_params (s : State) : (decodeParameters s).params = decodeBlock (s.bufferBytes 0 paramLen) := rfl
@[simp] theorem decodeParameters_address (s : State) : (decodeParameters s).address = s.address := rfl
@[simp] theorem decodeParameters_errorCount (s : State) : (decodeParameters s).errorCount = s.errorCount := rfl
@[simp] theorem decodeParameters_mode (s : State) : (decodeParameters s).mode = s.mode := rfl
@[simp] theorem decodeParameters_resetActiveHigh (s : State) : (decodeParameters s).resetActiveHigh = polarityOf (decodeBlock (s.bufferBytes 0 paramLen)).deviceCode := rfl
@[simp] theorem decodeParameters_progressCounter (s : State) : (decodeParameters s).progressCounter = s.progressCounter := rfl
@[simp] theorem decodeParameters_lampOn (s : State) : (decodeParameters s).lampOn = s.lampOn := rfl
@[simp] theorem decodeParameters_lines (s : State) : (decodeParameters s).lines = s.lines := rfl
@[simp] theorem decodeParameters_busOn (s : State) : (decodeParameters s).busOn = s.busOn := rfl
@[simp] theorem decodeParameters_got (s : State) : (decodeParameters s).got = s.got := rfl
@[simp] theorem decodeParameters_busResult (s : State) : (decodeParameters s).busResult = s.busResult := rfl
@[simp] theorem decodeParameters_wave (s : State) : (decodeParameters s).wave = s.wave := rfl
@[simp] theorem decodeParameters_hostIn (s : State) : (decodeParameters s).hostIn = s.hostIn := rfl
@[simp] theorem decodeParameters_targetIn (s : State) : (decodeParameters s).targetIn = s.targetIn := rfl
@[simp] theorem decodeParameters_busCalls (s : State) : (decodeParameters s).busCalls = s.busCalls := rfl
@[simp] theorem decodeParameters_draws (s : State) : (decodeParameters s).draws = s.draws := rfl
@[simp] theorem decodeParameters_history (s : State) : (decodeParameters s).history = s.history := rfl

@[simp] theorem flip_low : Level.flip .low = .high := rfl
@[simp] theorem flip_high : Level.flip .high = .low := rfl

/-- The line operations of the sequencer read the polarity only. -/
theorem assertLevel_eq (s t : State) (h : t.resetActiveHigh = s.resetActiveHigh) : t.assertLevel = s.assertLevel := by
  simp [State.assertLevel, h]

theorem deassertLevel_eq (s t : State) (h : t.resetActiveHigh = s.resetActiveHigh) :
    t.deassertLevel = s.deassertLevel := by
  simp [State.deassertLevel, assertLevel_eq s t h]

/-- The events of the entry sequence before its transaction (43 R211). -/
def entryLead (s : State) : List Event :=
  [.drive .reset s.assertLevel, .setDir .reset .output, .drive .sck .low, .setDir .sck .output, .setDir .mosi .output,
    .delay tSckDischarge, .drive .reset s.deassertLevel, .delay tResetPulse, .drive .reset s.assertLevel,
    .delay tResetSettle]

/-- What the target answers to the transaction of the entry sequence. -/
def entryAnswer (s : State) : Word :=
  s.targetIn.headD (s.cfg.targetWord (s.draws + 1) (s.history ++ entryLead s) s.cfg.bus.progEnable)

/-- The events of the entry sequence (43 R211). -/
def entryEvents (s : State) : List Event := entryLead s ++ [.bus s.cfg.bus.progEnable (entryAnswer s)]

/-- The events of the exit sequence (43 R217). -/
def exitEvents (s : State) : List Event :=
  [.setDir .mosi .input, .setDir .sck .input, .drive .reset s.deassertLevel, .setDir .reset .input]

/-! ### `entrySequence` -/

@[simp] theorem entrySequence_cfg (s : State) : (entrySequence s).cfg = s.cfg := by simp [entrySequence, State.assertReset, State.deassertReset]
@[simp] theorem entrySequence_buffer (s : State) : (entrySequence s).buffer = s.buffer := by simp [entrySequence, State.assertReset, State.deassertReset]
@[simp] theorem entrySequence_params (s : State) : (entrySequence s).params = s.params := by simp [entrySequence, State.assertReset, State.deassertReset]
@[simp] theorem entrySequence_address (s : State) : (entrySequence s).address = s.address := by simp [entrySequence, State.assertReset, State.deassertReset]
@[simp] theorem entrySequence_errorCount (s : State) : (entrySequence s).errorCount = s.errorCount := by simp [entrySequence, State.assertReset, State.deassertReset]
@[simp] theorem entrySequence_mode (s : State) : (entrySequence s).mode = .programming := by simp [entrySequence, State.assertReset, State.deassertReset]
@[simp] theorem entrySequence_resetActiveHigh (s : State) : (entrySequence s).resetActiveHigh = s.resetActiveHigh := by simp [entrySequence, State.assertReset, State.deassertReset]
@[simp] theorem entrySequence_progressCounter (s : State) : (entrySequence s).progressCounter = s.progressCounter := by simp [entrySequence, State.assertReset, State.deassertReset]
@[simp] theorem entrySequence_lampOn (s : State) : (entrySequence s).lampOn = s.lampOn := by simp [entrySequence, State.assertReset, State.deassertReset]
@[simp] theorem entrySequence_lines (s : State) : (entrySequence s).lines = ⟨⟨.output, s.assertLevel⟩, ⟨.output, s.cfg.busMode.idle⟩, ⟨.output, s.cfg.freeMosi (s.draws + 1) (s.history ++ entryEvents s)⟩⟩ := by
  simp [entrySequence, State.assertReset, State.deassertReset, State.assertLevel,
    State.deassertLevel, State.nextAnswer, entryEvents, entryAnswer, entryLead, busLines, Lines.setDir, Lines.drive]
@[simp] theorem entrySequence_busOn (s : State) : (entrySequence s).busOn = true := by simp [entrySequence, State.assertReset, State.deassertReset]
@[simp] theorem entrySequence_got (s : State) : (entrySequence s).got = s.got := by simp [entrySequence, State.assertReset, State.deassertReset]
@[simp] theorem entrySequence_busResult (s : State) : (entrySequence s).busResult = byteOf (entryAnswer s) 3 := by
  simp [entrySequence, State.assertReset, State.deassertReset, State.assertLevel, State.deassertLevel,
    State.nextAnswer, entryAnswer, entryLead]
@[simp] theorem entrySequence_wave (s : State) : (entrySequence s).wave = busWave s.cfg s.cfg.bus.progEnable := by simp [entrySequence, State.assertReset, State.deassertReset]
@[simp] theorem entrySequence_hostIn (s : State) : (entrySequence s).hostIn = s.hostIn := by simp [entrySequence, State.assertReset, State.deassertReset]
@[simp] theorem entrySequence_targetIn (s : State) : (entrySequence s).targetIn = s.targetIn.tail := by simp [entrySequence, State.assertReset, State.deassertReset]
@[simp] theorem entrySequence_busCalls (s : State) : (entrySequence s).busCalls = s.busCalls := by simp [entrySequence, State.assertReset, State.deassertReset]
@[simp] theorem entrySequence_draws (s : State) : (entrySequence s).draws = s.draws + 2 := by simp [entrySequence, State.assertReset, State.deassertReset]
@[simp] theorem entrySequence_history (s : State) : (entrySequence s).history = s.history ++ entryEvents s := by
  simp [entrySequence, State.assertReset, State.deassertReset, State.assertLevel, State.deassertLevel,
    State.nextAnswer, entryEvents, entryAnswer, entryLead]

/-! ### `exitSequence` -/

@[simp] theorem exitSequence_cfg (s : State) : (exitSequence s).cfg = s.cfg := by simp [exitSequence, State.deassertReset]
@[simp] theorem exitSequence_buffer (s : State) : (exitSequence s).buffer = s.buffer := by simp [exitSequence, State.deassertReset]
@[simp] theorem exitSequence_params (s : State) : (exitSequence s).params = s.params := by simp [exitSequence, State.deassertReset]
@[simp] theorem exitSequence_address (s : State) : (exitSequence s).address = s.address := by simp [exitSequence, State.deassertReset]
@[simp] theorem exitSequence_errorCount (s : State) : (exitSequence s).errorCount = s.errorCount := by simp [exitSequence, State.deassertReset]
@[simp] theorem exitSequence_mode (s : State) : (exitSequence s).mode = .ended := by simp [exitSequence, State.deassertReset]
@[simp] theorem exitSequence_resetActiveHigh (s : State) : (exitSequence s).resetActiveHigh = s.resetActiveHigh := by simp [exitSequence, State.deassertReset]
@[simp] theorem exitSequence_progressCounter (s : State) : (exitSequence s).progressCounter = s.progressCounter := by simp [exitSequence, State.deassertReset]
@[simp] theorem exitSequence_lampOn (s : State) : (exitSequence s).lampOn = s.lampOn := by simp [exitSequence, State.deassertReset]
@[simp] theorem exitSequence_lines (s : State) : (exitSequence s).lines = ⟨⟨.input, s.deassertLevel⟩, ⟨.input, s.lines.sck.level⟩, ⟨.input, s.lines.mosi.level⟩⟩ := by
  simp [exitSequence, State.deassertReset, State.assertLevel, State.deassertLevel, Lines.setDir, Lines.drive]
@[simp] theorem exitSequence_busOn (s : State) : (exitSequence s).busOn = false := by simp [exitSequence, State.deassertReset]
@[simp] theorem exitSequence_got (s : State) : (exitSequence s).got = s.got := by simp [exitSequence, State.deassertReset]
@[simp] theorem exitSequence_busResult (s : State) : (exitSequence s).busResult = s.busResult := by simp [exitSequence, State.deassertReset]
@[simp] theorem exitSequence_wave (s : State) : (exitSequence s).wave = s.wave := by simp [exitSequence, State.deassertReset]
@[simp] theorem exitSequence_hostIn (s : State) : (exitSequence s).hostIn = s.hostIn := by simp [exitSequence, State.deassertReset]
@[simp] theorem exitSequence_targetIn (s : State) : (exitSequence s).targetIn = s.targetIn := by simp [exitSequence, State.deassertReset]
@[simp] theorem exitSequence_busCalls (s : State) : (exitSequence s).busCalls = s.busCalls := by simp [exitSequence, State.deassertReset]
@[simp] theorem exitSequence_draws (s : State) : (exitSequence s).draws = s.draws := by simp [exitSequence, State.deassertReset]
@[simp] theorem exitSequence_history (s : State) : (exitSequence s).history = s.history ++ exitEvents s := by
  simp [exitSequence, State.deassertReset, State.assertLevel, State.deassertLevel, exitEvents]

/-- The entry sequence in one record (43 R211). -/
theorem entrySequence_eq (s : State) : entrySequence s = { s with
    mode := .programming
    busOn := true
    lines := ⟨⟨.output, s.assertLevel⟩, ⟨.output, s.cfg.busMode.idle⟩, ⟨.output, s.cfg.freeMosi (s.draws + 1) (s.history ++ entryEvents s)⟩⟩
    busResult := byteOf (entryAnswer s) 3
    wave := busWave s.cfg s.cfg.bus.progEnable
    targetIn := s.targetIn.tail
    draws := s.draws + 2
    history := s.history ++ entryEvents s } := by
  apply State.ext_fields <;> simp

/-- The exit sequence in one record (43 R217). -/
theorem exitSequence_eq (s : State) : exitSequence s = { s with
    mode := .ended
    busOn := false
    lines := ⟨⟨.input, s.deassertLevel⟩, ⟨.input, s.lines.sck.level⟩, ⟨.input, s.lines.mosi.level⟩⟩
    history := s.history ++ exitEvents s } := by
  apply State.ext_fields <;> simp

end Sys2Proof.Machine
end

