-- ==== Sys2Proof/Laws/Acts.lean ====
section
/-! SUPPORT. Once and for all, what an instruction can do to the state: `exec` and `step` are sequences of the actions below,
and each instruction uses only some of them. An invariant of the machine is one case per action (`Acts.induct`). -/

namespace Sys2Proof.Machine

/-- The kinds of action. -/
inductive Act where
  | read
  | write
  | fill
  | count
  | clear
  | address
  | params
  | bus
  | delay
  | lamp
  | entry
  | exit
  | done
  deriving DecidableEq, Repr

/-- `t` comes from `s` by a sequence of actions of the kinds in `A`. -/
inductive Acts (A : Act → Prop) : State → State → Prop where
  | refl (s : State) : Acts A s s
  | trans {s t u : State} : Acts A s t → Acts A t u → Acts A s u
  | read (s : State) (b : Byte) : A .read → Acts A s (s.hostRead b)
  | write (s : State) (b : Byte) : A .write → Acts A s (s.hostWrite b)
  | fill (s : State) (i : BitVec 8) (v : Byte) : A .fill → Acts A s (s.memWrite i v)
  | count (s : State) : A .count → Acts A s s.countError
  | clear (s : State) : A .clear → Acts A s (clearErrors s)
  | address (s : State) (a : Half) : A .address → Acts A s { s with address := a }
  | params (s : State) : A .params → Acts A s (decodeParameters s)
  | bus (s : State) (w : Word) : A .bus → Acts A s (s.busXfer w)
  | delay (s : State) (t : Nat) : A .delay → Acts A s (s.delay t)
  | lamp (s : State) (on : Bool) : A .lamp → Acts A s (s.lamp on)
  | entry (s : State) : A .entry → s.mode ≠ .programming → Acts A s (entrySequence s)
  | exit (s : State) : A .exit → Acts A s (exitSequence s)
  | done (s : State) : A .done → Acts A s s.endCommand

variable {A B : Act → Prop} {s t u : State}

/-- A relation kept by every allowed action is kept by every sequence of them. -/
theorem Acts.induct (R : State → State → Prop) (refl : ∀ s, R s s) (trans : ∀ s t u, R s t → R t u → R s u)
    (read : A .read → ∀ s b, R s (s.hostRead b)) (write : A .write → ∀ s b, R s (s.hostWrite b))
    (fill : A .fill → ∀ s i v, R s (s.memWrite i v)) (count : A .count → ∀ s, R s s.countError)
    (clear : A .clear → ∀ s, R s (clearErrors s)) (address : A .address → ∀ s a, R s { s with address := a })
    (params : A .params → ∀ s, R s (decodeParameters s)) (bus : A .bus → ∀ s w, R s (s.busXfer w))
    (delay : A .delay → ∀ s t, R s (s.delay t)) (lamp : A .lamp → ∀ s on, R s (s.lamp on))
    (entry : A .entry → ∀ s, s.mode ≠ .programming → R s (entrySequence s))
    (exit : A .exit → ∀ s, R s (exitSequence s)) (done : A .done → ∀ s, R s s.endCommand) (h : Acts A s t) : R s t := by
  induction h with
  | refl s => exact refl s
  | trans _ _ ih1 ih2 => exact trans _ _ _ ih1 ih2
  | read s b h => exact read h s b
  | write s b h => exact write h s b
  | fill s i v h => exact fill h s i v
  | count s h => exact count h s
  | clear s h => exact clear h s
  | address s a h => exact address h s a
  | params s h => exact params h s
  | bus s w h => exact bus h s w
  | delay s t h => exact delay h s t
  | lamp s on h => exact lamp h s on
  | entry s h hm => exact entry h s hm
  | exit s h => exact exit h s
  | done s h => exact done h s

theorem Acts.mono (hAB : ∀ a, A a → B a) (h : Acts A s t) : Acts B s t := by
  induction h with
  | refl s => exact .refl s
  | trans _ _ ih1 ih2 => exact .trans ih1 ih2
  | read s b h => exact .read s b (hAB _ h)
  | write s b h => exact .write s b (hAB _ h)
  | fill s i v h => exact .fill s i v (hAB _ h)
  | count s h => exact .count s (hAB _ h)
  | clear s h => exact .clear s (hAB _ h)
  | address s a h => exact .address s a (hAB _ h)
  | params s h => exact .params s (hAB _ h)
  | bus s w h => exact .bus s w (hAB _ h)
  | delay s t h => exact .delay s t (hAB _ h)
  | lamp s on h => exact .lamp s on (hAB _ h)
  | entry s h hm => exact .entry s (hAB _ h) hm
  | exit s h => exact .exit s (hAB _ h)
  | done s h => exact .done s (hAB _ h)

/-! ### The shared effects -/

theorem acts_hostWrites (h : A .write) (bs : List Byte) (s : State) : Acts A s (s.hostWrites bs) := by
  unfold State.hostWrites
  induction bs generalizing s with
  | nil => exact .refl s
  | cons b bs ih => exact .trans (.write s b h) (ih _)

theorem acts_answerError (hw : A .write) (hd : A .done) (e : ErrorClass) (s : State) : Acts A s (s.answerError e) :=
  .trans (acts_hostWrites hw _ s) (.done _ hd)

theorem acts_raise (hc : A .count) (hw : A .write) (hd : A .done) (e : ErrorClass) (s : State) : Acts A s (s.raise e) :=
  .trans (.count s hc) (acts_answerError hw hd e _)

theorem acts_replyOK (hw : A .write) (hd : A .done) (bs : List Byte) (s : State) : Acts A s (s.replyOK bs) :=
  .trans (.write s insync hw) (.trans (acts_hostWrites hw bs _) (.trans (.write _ okByte hw) (.done _ hd)))

theorem acts_enterEffect (h : A .entry) (s : State) : Acts A s (enterEffect s) := by
  unfold enterEffect
  split
  · exact .refl s
  · exact .entry s h ‹_›

theorem acts_early {f : State → State} (h : ∀ s, Acts A s (f s)) (s : State) : Acts A s (early f s) := by
  unfold early
  split
  · exact h s
  · exact .refl s

theorem acts_writeEepromBytes (hb : A .bus) (hd : A .delay) :
    ∀ (n x : Nat) (e : Half) (s : State), Acts A s (writeEepromBytes n x e s)
  | 0, _, _, s => .refl s
  | n + 1, x, e, s =>
    .trans (.trans (.bus s _ hb) (.delay _ _ hd)) (acts_writeEepromBytes hb hd n (x + 1) (e + 1) _)

theorem acts_afterEepromByte (hf : A .fill) (hb : A .bus) (hd : A .delay) (len : Half) (j : Nat) (b : Byte) (s : State) :
    Acts A s (afterEepromByte len j b s) := by
  unfold afterEepromByte
  have hfill : Acts A s (s.fillAt (j % eeChunk) b) := .fill s _ _ hf
  dsimp only
  split
  · exact .trans hfill (acts_writeEepromBytes hb hd _ _ _ _)
  · exact hfill

/-! ### Receiving the bytes before the EOP position -/

/-- The actions that can follow a byte of a command of this class before its EOP position. -/
def Command.receives : Command → Act → Bool
  | .signOn, a => a = .clear
  | .getSync, _ => false
  | .getParam, _ => false
  | .setParams, a => a = .fill || a = .params
  | .setExt, a => a = .fill
  | .enter, a => a = .entry
  | .leave, a => a = .exit
  | .setAddr, a => a = .address
  | .progFlash, _ => false
  | .progData, _ => false
  | .progPage, a => a = .fill || a = .bus || a = .delay || a = .count
  | .readPage, _ => false
  | .universal, a => a = .fill || a = .bus
  | .readSig, _ => false
  | .bareEop, _ => false
  | .unknown, a => a = .count

theorem acts_afterOpcode (op : Byte) (s : State) (hA : ∀ a, Command.receives (classify s.cfg op) a = true → A a) :
    Acts A s (afterOpcode op s) := by
  unfold afterOpcode
  split <;> rename_i hc <;> simp only [hc] at hA
  · exact .count s (hA _ rfl)
  · exact acts_early (fun s => .clear s (hA _ rfl)) s
  · exact acts_early (acts_enterEffect (hA _ rfl)) s
  · exact acts_early (fun s => .exit s (hA _ rfl)) s
  all_goals exact .refl s

theorem acts_afterPageByte (hf : A .fill) (hb : A .bus) (hd : A .delay) (hc : A .count) (pay : List Byte) (b : Byte)
    (s : State) : Acts A s (afterPageByte pay b s) := by
  unfold afterPageByte
  split
  · split
    · exact .count s hc
    · exact .refl s
  · split
    · exact .fill s _ _ hf
    · split
      · exact .refl s
      · exact acts_afterEepromByte hf hb hd _ _ _ s
  · exact .refl s

theorem acts_afterPayload (op : Byte) (pay : List Byte) (b : Byte) (s : State)
    (hA : ∀ a, Command.receives (classify s.cfg op) a = true → A a) : Acts A s (afterPayload op pay b s) := by
  unfold afterPayload
  split <;> rename_i hc <;> simp only [hc] at hA
  · dsimp only
    have hfill : Acts A s (s.fillAt pay.length b) := .fill s _ _ (hA _ rfl)
    split
    · exact .trans hfill (acts_early (fun s => .params s (hA _ rfl)) _)
    · exact hfill
  · exact .fill s _ _ (hA _ rfl)
  · dsimp only
    have hfill : Acts A s (s.fillAt pay.length b) := .fill s _ _ (hA _ rfl)
    split
    · exact .trans hfill (acts_early (fun s => .bus s _ (hA _ rfl)) _)
    · exact hfill
  · split
    · exact acts_early (fun s => .address s _ (hA _ rfl)) s
    · exact .refl s
  · exact acts_afterPageByte (hA _ rfl) (hA _ rfl) (hA _ rfl) (hA _ rfl) pay b s
  all_goals exact .refl s

/-- The byte that gives the class of the command, `b` being the next byte read. -/
def opcodeAt (s : State) (b : Byte) : Byte := s.got.headD b

theorem acts_receiveByte (s : State) (b : Byte) (hr : A .read)
    (hA : ∀ a, Command.receives (classify s.cfg (opcodeAt s b)) a = true → A a) : Acts A s (receiveByte s b) := by
  unfold receiveByte
  refine .trans (.read s b hr) ?_
  split
  · next h => exact acts_afterOpcode b _ (by simpa [opcodeAt, h] using hA)
  · next op pay h => exact acts_afterPayload op pay b _ (by simpa [opcodeAt, h] using hA)

/-- Actions other than `read` and `done` leave the position in the command and the parameters of the machine alone. -/
theorem Acts.got_eq (hr : ¬A .read) (hd : ¬A .done) (h : Acts A s t) : t.got = s.got := by
  refine h.induct (fun s t => t.got = s.got) (fun _ => rfl) (fun _ _ _ h1 h2 => h2.trans h1) ?_ ?_ ?_ ?_ ?_ ?_ ?_ ?_ ?_ ?_
    ?_ ?_ ?_ <;> intros <;> first | contradiction | simp

/-- No action writes the parameters of the machine, the unread host bytes or the handed-over transactions. -/
theorem Acts.inputs_eq (h : Acts A s t) : t.cfg = s.cfg ∧ t.hostIn = s.hostIn ∧ t.busCalls = s.busCalls := by
  refine h.induct (fun s t => t.cfg = s.cfg ∧ t.hostIn = s.hostIn ∧ t.busCalls = s.busCalls) (fun _ => ⟨rfl, rfl, rfl⟩)
    (fun _ _ _ h1 h2 => ⟨h2.1.trans h1.1, h2.2.1.trans h1.2.1, h2.2.2.trans h1.2.2⟩) ?_ ?_ ?_ ?_ ?_ ?_ ?_ ?_ ?_ ?_ ?_ ?_ ?_ <;>
    intros <;> simp

/-- The actions after a byte, none of which moves the position. -/
theorem receives_not_read (c : Command) : ¬Command.receives c .read = true ∧ ¬Command.receives c .done = true := by
  cases c <;> simp [Command.receives]

@[simp] theorem receiveByte_got (s : State) (b : Byte) : (receiveByte s b).got = s.got ++ [b] := by
  unfold receiveByte
  split
  · next h =>
    have := Acts.got_eq (receives_not_read _).1 (receives_not_read _).2 (acts_afterOpcode b (s.hostRead b) fun a ha => ha)
    rw [this, State.hostRead_got]
  · next op pay h =>
    have := Acts.got_eq (receives_not_read _).1 (receives_not_read _).2
      (acts_afterPayload op pay b (s.hostRead b) fun a ha => ha)
    rw [this, State.hostRead_got]

theorem acts_receiveAll (bs : List Byte) (s : State) (hr : A .read)
    (hA : ∀ a, Command.receives (classify s.cfg ((s.got ++ bs).headD 0)) a = true → A a) :
    Acts A s (bs.foldl receiveByte s) := by
  induction bs generalizing s with
  | nil => exact .refl s
  | cons b bs ih =>
    have hop : (s.got ++ b :: bs).headD 0 = opcodeAt s b := by
      unfold opcodeAt
      cases s.got <;> simp
    rw [hop] at hA
    have h1 : Acts A s (receiveByte s b) := acts_receiveByte s b hr hA
    refine .trans h1 (ih _ ?_)
    rw [receiveByte_got, h1.inputs_eq.1]
    have : ((s.got ++ [b]) ++ bs).headD 0 = opcodeAt s b := by
      unfold opcodeAt
      cases s.got <;> simp
    rwa [this]

@[simp] theorem receiveAll_got (bs : List Byte) (s : State) : (bs.foldl receiveByte s).got = s.got ++ bs := by
  induction bs generalizing s with
  | nil => simp
  | cons b bs ih => simp [ih]

/-- Receiving from a command's start is receiving every byte. -/
theorem receive_start (bytes : List Byte) (s : State) (h : s.got = []) :
    receive bytes s = bytes.foldl receiveByte s := by simp [receive, h]

theorem acts_receive_any (h : ∀ a, A a) (bytes : List Byte) (s : State) : Acts A s (receive bytes s) :=
  acts_receiveAll _ s (h _) fun a _ => h a

theorem acts_receive (op : Byte) (bytes : List Byte) (s : State) (hs : s.got = []) (hr : A .read)
    (hA : ∀ a, Command.receives (classify s.cfg op) a = true → A a) : Acts A s (receive (op :: bytes) s) := by
  rw [receive_start _ _ hs]
  exact acts_receiveAll _ s hr (by simpa [hs] using hA)

/-! ### The writers and readers -/

theorem acts_commit (hb : A .bus) (hd : A .delay) (hl : A .lamp) (p : Half) (s : State) : Acts A s (commit p s) :=
  .trans (.lamp s false hl) (.trans (.bus _ _ hb) (.trans (.delay _ _ hd) (.lamp _ true hl)))

theorem acts_loadWord (hb : A .bus) (ha : A .address) (x : Nat) (s : State) : Acts A s (loadWord x s) :=
  .trans (.bus s _ hb) (.trans (.bus _ _ hb) (.address _ _ ha))

theorem acts_writeWords (hb : A .bus) (hd : A .delay) (hl : A .lamp) (ha : A .address) :
    ∀ (n x : Nat) (page : Half) (s : State), Acts A s (writeWords n x page s).2
  | 0, _, _, s => .refl s
  | n + 1, x, page, s => by
    unfold writeWords
    dsimp only
    refine .trans ?_ (acts_writeWords hb hd hl ha n _ _ _)
    split
    · exact .trans (acts_commit hb hd hl _ s) (acts_loadWord hb ha x _)
    · exact acts_loadWord hb ha x s

theorem acts_writeFlashPages (hb : A .bus) (hd : A .delay) (hl : A .lamp) (ha : A .address) (len : Nat) (s : State) :
    Acts A s (writeFlashPages len s) :=
  .trans (acts_writeWords hb hd hl ha (len / 2) 0 _ s) (acts_commit hb hd hl _ _)

theorem acts_forward (hb : A .bus) (hw : A .write) (w : Word) (s : State) : Acts A s (forward w s) :=
  .trans (.bus s w hb) (.write _ _ hw)

theorem acts_readWords (hb : A .bus) (hw : A .write) (ha : A .address) :
    ∀ (n : Nat) (s : State), Acts A s (readWords n s)
  | 0, s => .refl s
  | n + 1, s =>
    .trans (.trans (acts_forward hb hw _ s) (.trans (acts_forward hb hw _ _) (.address _ _ ha)))
      (acts_readWords hb hw ha n _)

theorem acts_readEeprom (hb : A .bus) (hw : A .write) :
    ∀ (n : Nat) (e : Half) (s : State), Acts A s (readEeprom n e s)
  | 0, _, s => .refl s
  | n + 1, e, s => .trans (acts_forward hb hw _ s) (acts_readEeprom hb hw n (e + 1) _)

theorem acts_streamed (hw : A .write) (hd : A .done) {f : State → State} (hf : ∀ s, Acts A s (f s)) (s : State) :
    Acts A s (streamed f s) :=
  .trans (.write s _ hw) (.trans (hf _) (.trans (.write _ _ hw) (.done _ hd)))

theorem acts_readSig (hb : A .bus) (hw : A .write) (s : State) :
    Acts A s (readSigByte 2 (readSigByte 1 (readSigByte 0 s))) :=
  .trans (acts_forward hb hw _ s) (.trans (acts_forward hb hw _ _) (acts_forward hb hw _ _))

/-! ### The EOP check -/

theorem acts_checkEop (hr : A .read) (hc : A .count) (hw : A .write) (hd : A .done) {k : State → Result} {eop : Byte}
    {s t : State} (hk : ∀ u, k (s.hostRead eop) = .next u → Acts A (s.hostRead eop) u)
    (h : checkEop eop k s = .next t) : Acts A s t := by
  unfold checkEop at h
  refine .trans (.read s eop hr) ?_
  dsimp only at h
  split at h
  · exact hk t h
  · cases h
    exact acts_raise hc hw hd .framing _

theorem acts_framed (hr : A .read) (hc : A .count) (hw : A .write) (hd : A .done) {f : State → State}
    {r : State → List Byte} {eop : Byte} {s t : State} (hf : ∀ s, Acts A s (f s)) (h : framed eop f r s = .next t) :
    Acts A s t := by
  refine acts_checkEop hr hc hw hd (fun u hu => ?_) h
  dsimp only at hu
  cases hu
  split
  · exact acts_replyOK hw hd _ _
  · exact .trans (hf _) (acts_replyOK hw hd _ _)

theorem acts_answered (hr : A .read) (hc : A .count) (hw : A .write) (hd : A .done) {r : State → List Byte} {eop : Byte}
    {s t : State} (h : answered eop r s = .next t) : Acts A s t := by
  refine acts_checkEop hr hc hw hd (fun u hu => ?_) h
  cases hu
  exact acts_replyOK hw hd _ _

theorem acts_flashReadPage (hb : A .bus) (hw : A .write) (ha : A .address) (hd : A .done) {len : Half} {s t : State}
    (h : flashReadPage len s = .next t) : Acts A s t := by
  unfold flashReadPage at h
  split at h
  · cases h
  · cases h
    exact acts_streamed hw hd (acts_readWords hb hw ha _) s

theorem acts_eepromReadPage (hb : A .bus) (hw : A .write) (hd : A .done) {len : Half} {s t : State}
    (h : eepromReadPage len s = .next t) : Acts A s t := by
  cases h
  exact acts_streamed hw hd (acts_readEeprom hb hw _ _) s

/-! ### The instructions -/

/-- The actions an instruction can use, from a command's start. -/
def Instr.does : Instr → Act → Bool
  | .signOn _, a => a = .read || a = .count || a = .write || a = .done || a = .clear
  | .getSync _, a => a = .read || a = .count || a = .write || a = .done
  | .getParam _ _, a => a = .read || a = .count || a = .write || a = .done
  | .setParams _ _, a => a = .read || a = .count || a = .write || a = .done || a = .fill || a = .params
  | .setExt _ _, a => a = .read || a = .count || a = .write || a = .done || a = .fill
  | .enterPmode _, a => a = .read || a = .count || a = .write || a = .done || a = .entry
  | .leavePmode _, a => a = .read || a = .count || a = .write || a = .done || a = .exit
  | .setAddr _ _ _, a => a = .read || a = .count || a = .write || a = .done || a = .address
  | .universal _ _ _ _ _, a => a = .read || a = .count || a = .write || a = .done || a = .fill || a = .bus
  | .progFlash _ _, a => a = .read || a = .count || a = .write || a = .done
  | .progData _ _, a => a = .read || a = .count || a = .write || a = .done
  | .progPage _ _ _, a => a != .clear && a != .params && a != .entry && a != .exit
  | .progPageF _ _ _, a => a != .clear && a != .params && a != .entry && a != .exit
  | .progPageE _ _ _, a =>
    a = .read || a = .count || a = .write || a = .done || a = .fill || a = .bus || a = .delay
  | .readPage _ _ _, a => a = .read || a = .count || a = .write || a = .done || a = .bus || a = .address
  | .readPageF _ _, a => a = .read || a = .count || a = .write || a = .done || a = .bus || a = .address
  | .readPageE _ _, a => a = .read || a = .count || a = .write || a = .done || a = .bus
  | .readSig _, a => a = .read || a = .count || a = .write || a = .done || a = .bus
  | .bareEop, a => a = .read || a = .count || a = .write || a = .done
  | .unknownOpcode _ _, a => a = .read || a = .count || a = .write || a = .done
  | .busProgEnable, a => a = .bus
  | .busLoadLo _ _, a => a = .bus
  | .busLoadHi _ _, a => a = .bus
  | .busWritePage _, a => a = .bus
  | .busReadLo _, a => a = .bus
  | .busReadHi _, a => a = .bus
  | .busEeWrite _ _, a => a = .bus
  | .busEeRead _, a => a = .bus
  | .busReadSig _, a => a = .bus
  | .busUniversal _ _ _ _, a => a = .bus

/-- The bytes of an instruction before its EOP position are received by these actions: `A` allows them. Either `A` allows
everything, or the command is at its start and its opcode byte has a class whose actions `A` allows. -/
theorem exec_acts_of (i : Instr) (s t : State) (h : exec i s = .next t) (hA : ∀ a, Instr.does i a = true → A a)
    (hrecv : i.isBus = false → ∀ op bytes, op :: bytes <+: encode s.cfg i → Acts A s (receive (op :: bytes) s)) : Acts A s t := by
  have flash : ∀ (len : Half) (d : List Byte) (e : Byte),
      (∀ a, (a != .clear && a != .params && a != .entry && a != .exit) = true → A a) →
      Acts A s (receive (pageHeader s.cfg.opcodes.progPage len s.cfg.memtagFlash ++ d) s) →
      flashProgramPage len d e s = .next t → Acts A s t := by
    intro len d e hA hr h
    unfold flashProgramPage at h
    split at h
    · cases h
    · refine .trans hr (acts_checkEop (hA _ rfl) (hA _ rfl) (hA _ rfl) (hA _ rfl) (fun u hu => ?_) h)
      cases hu
      exact .trans (acts_writeFlashPages (hA _ rfl) (hA _ rfl) (hA _ rfl) (hA _ rfl) _ _)
        (acts_replyOK (hA _ rfl) (hA _ rfl) _ _)
  have eeprom : ∀ (len : Half) (d : List Byte) (e : Byte),
      (∀ a, (a = .read ∨ a = .count ∨ a = .write ∨ a = .done ∨ a = .fill ∨ a = .bus ∨ a = .delay) → A a) →
      Acts A s (receive (pageHeader s.cfg.opcodes.progPage len s.cfg.memtagEeprom ++ d) s) →
      eepromProgramPage len d e s = .next t → Acts A s t := by
    intro len d e hA hr h
    refine .trans hr (acts_checkEop (hA _ (by simp)) (hA _ (by simp)) (hA _ (by simp)) (hA _ (by simp)) (fun u hu => ?_) h)
    cases hu
    split
    · exact acts_answerError (hA _ (by simp)) (hA _ (by simp)) _ _
    · exact acts_replyOK (hA _ (by simp)) (hA _ (by simp)) _ _
  cases i with
  | signOn e =>
    simp only [exec, execSignOn] at h
    exact .trans (hrecv rfl s.cfg.opcodes.signOn [] (by simp [encode])) (acts_framed (hA _ rfl) (hA _ rfl) (hA _ rfl) (hA _ rfl)
      (fun s => .clear s (hA _ rfl)) h)
  | getSync e =>
    simp only [exec, execGetSync] at h
    exact .trans (hrecv rfl s.cfg.opcodes.getSync [] (by simp [encode])) (acts_answered (hA _ rfl) (hA _ rfl) (hA _ rfl) (hA _ rfl) h)
  | getParam sub e =>
    simp only [exec, execGetParam] at h
    exact .trans (hrecv rfl s.cfg.opcodes.getParam [sub] (by simp [encode])) (acts_answered (hA _ rfl) (hA _ rfl) (hA _ rfl) (hA _ rfl) h)
  | setParams p e =>
    simp only [exec, execSetParams] at h
    exact .trans (hrecv rfl s.cfg.opcodes.setParams p (by simp [encode])) (acts_framed (hA _ rfl) (hA _ rfl) (hA _ rfl) (hA _ rfl)
      (fun s => .params s (hA _ rfl)) h)
  | setExt x e =>
    simp only [exec, execSetExt] at h
    exact .trans (hrecv rfl s.cfg.opcodes.setExt x (by simp [encode])) (acts_answered (hA _ rfl) (hA _ rfl) (hA _ rfl) (hA _ rfl) h)
  | enterPmode e =>
    simp only [exec, execEnterPmode] at h
    exact .trans (hrecv rfl s.cfg.opcodes.enter [] (by simp [encode])) (acts_framed (hA _ rfl) (hA _ rfl) (hA _ rfl) (hA _ rfl)
      (acts_enterEffect (hA _ rfl)) h)
  | leavePmode e =>
    simp only [exec, execLeavePmode] at h
    exact .trans (hrecv rfl s.cfg.opcodes.leave [] (by simp [encode])) (acts_framed (hA _ rfl) (hA _ rfl) (hA _ rfl) (hA _ rfl)
      (fun s => .exit s (hA _ rfl)) h)
  | setAddr lo hi e =>
    simp only [exec, execSetAddr] at h
    exact .trans (hrecv rfl s.cfg.opcodes.setAddr [lo, hi] (by simp [encode])) (acts_framed (hA _ rfl) (hA _ rfl) (hA _ rfl) (hA _ rfl)
      (fun s => .address s _ (hA _ rfl)) h)
  | universal b0 b1 b2 b3 e =>
    simp only [exec, execUniversal] at h
    exact .trans (hrecv rfl s.cfg.opcodes.universal [b0, b1, b2, b3] (by simp [encode])) (acts_framed (hA _ rfl) (hA _ rfl) (hA _ rfl) (hA _ rfl)
      (fun s => .bus s _ (hA _ rfl)) h)
  | progFlash d e =>
    simp only [exec, execProgFlash] at h
    exact .trans (hrecv rfl s.cfg.opcodes.progFlash d (by simp [encode])) (acts_answered (hA _ rfl) (hA _ rfl) (hA _ rfl) (hA _ rfl) h)
  | progData d e =>
    simp only [exec, execProgData] at h
    exact .trans (hrecv rfl s.cfg.opcodes.progData d (by simp [encode])) (acts_answered (hA _ rfl) (hA _ rfl) (hA _ rfl) (hA _ rfl) h)
  | progPage len tag body =>
    have he : ∀ a, (a = .read ∨ a = .count ∨ a = .write ∨ a = .done ∨ a = .fill ∨ a = .bus ∨ a = .delay) → A a := by
      intro a ha
      rcases ha with rfl | rfl | rfl | rfl | rfl | rfl | rfl <;> exact hA _ rfl
    simp only [exec, execProgPage] at h
    cases hst : headerStop s.cfg len tag with
    | some r => rw [hst] at h; cases h
    | none =>
      rw [hst] at h
      have htag : tag = s.cfg.memtagFlash ∨ (tag ≠ s.cfg.memtagFlash ∧ tag = s.cfg.memtagEeprom) := by
        unfold headerStop at hst
        split at hst
        · exact .inl ‹_›
        · split at hst
          · exact .inr ⟨‹_›, ‹_›⟩
          · cases hst
      cases body with
      | none =>
        cases h
        exact hrecv rfl _ _ (by simp [encode, pageHeader, bodyBytes])
      | some b =>
        obtain ⟨d, e⟩ := b
        rcases htag with rfl | ⟨hne, rfl⟩
        · exact flash len d e hA (hrecv rfl _ _ (by simp [encode, bodyBytes, pageHeader])) (by simpa using h)
        · refine eeprom len d e he (hrecv rfl _ _ (by simp [encode, bodyBytes, pageHeader])) ?_
          simpa [hne] using h
  | progPageF len d e => exact flash len d e hA (hrecv rfl _ _ (by simp [encode, pageHeader])) h
  | progPageE len d e =>
    refine eeprom len d e (fun a ha => ?_) (hrecv rfl _ _ (by simp [encode, pageHeader])) h
    rcases ha with rfl | rfl | rfl | rfl | rfl | rfl | rfl <;> exact hA _ rfl
  | readPage len tag e =>
    simp only [exec, execReadPage] at h
    refine .trans (hrecv rfl s.cfg.opcodes.readPage [hi8 len, lo8 len, tag] (by simp [encode, pageHeader])) (acts_checkEop (hA _ rfl) (hA _ rfl) (hA _ rfl) (hA _ rfl)
      (fun u hu => ?_) h)
    split at hu
    · exact acts_flashReadPage (hA _ rfl) (hA _ rfl) (hA _ rfl) (hA _ rfl) hu
    · split at hu
      · exact acts_eepromReadPage (hA _ rfl) (hA _ rfl) (hA _ rfl) hu
      · cases hu
  | readPageF len e =>
    simp only [exec, execReadPageF] at h
    exact .trans (hrecv rfl s.cfg.opcodes.readPage [hi8 len, lo8 len, s.cfg.memtagFlash] (by simp [encode, pageHeader])) (acts_checkEop (hA _ rfl) (hA _ rfl) (hA _ rfl) (hA _ rfl)
      (fun u hu => acts_flashReadPage (hA _ rfl) (hA _ rfl) (hA _ rfl) (hA _ rfl) hu) h)
  | readPageE len e =>
    simp only [exec, execReadPageE] at h
    exact .trans (hrecv rfl s.cfg.opcodes.readPage [hi8 len, lo8 len, s.cfg.memtagEeprom] (by simp [encode, pageHeader])) (acts_checkEop (hA _ rfl) (hA _ rfl) (hA _ rfl) (hA _ rfl)
      (fun u hu => acts_eepromReadPage (hA _ rfl) (hA _ rfl) (hA _ rfl) hu) h)
  | readSig e =>
    simp only [exec, execReadSig] at h
    refine .trans (hrecv rfl s.cfg.opcodes.readSig [] (by simp [encode])) (acts_checkEop (hA _ rfl) (hA _ rfl) (hA _ rfl) (hA _ rfl)
      (fun u hu => ?_) h)
    cases hu
    exact acts_streamed (hA _ rfl) (hA _ rfl) (acts_readSig (hA _ rfl) (hA _ rfl)) _
  | bareEop =>
    cases h
    exact .trans (.read s _ (hA _ rfl)) (acts_raise (hA _ rfl) (hA _ rfl) (hA _ rfl) _ _)
  | unknownOpcode op b =>
    simp only [exec, execUnknownOpcode] at h
    cases h
    refine .trans (.trans (hrecv rfl op [] (by simp [encode])) (.read _ b (hA _ rfl))) ?_
    split <;> exact acts_answerError (hA _ rfl) (hA _ rfl) _ _
  | busProgEnable => cases h; exact .bus s _ (hA _ rfl)
  | busLoadLo a d => cases h; exact .bus s _ (hA _ rfl)
  | busLoadHi a d => cases h; exact .bus s _ (hA _ rfl)
  | busWritePage p => cases h; exact .bus s _ (hA _ rfl)
  | busReadLo a => cases h; exact .bus s _ (hA _ rfl)
  | busReadHi a => cases h; exact .bus s _ (hA _ rfl)
  | busEeWrite e d => cases h; exact .bus s _ (hA _ rfl)
  | busEeRead e => cases h; exact .bus s _ (hA _ rfl)
  | busReadSig i => cases h; exact .bus s _ (hA _ rfl)
  | busUniversal b0 b1 b2 b3 => cases h; exact .bus s _ (hA _ rfl)

/-- Every instruction, in every state, is a sequence of actions. -/
theorem exec_acts (i : Instr) (s t : State) (h : exec i s = .next t) : Acts (fun _ => True) s t :=
  exec_acts_of i s t h (fun _ _ => trivial) fun _ _ _ _ => acts_receive_any (fun _ => trivial) _ s

/-- From a command's start, an instruction the decoder can give uses its own actions only. -/
theorem exec_does (i : Instr) (s t : State) (hs : s.got = []) (hc : s.cfg.WellFormed) {ee : Half}
    (hi : i.WellFormed s.cfg ee) (h : exec i s = .next t) : Acts (fun a => Instr.does i a = true) s t := by
  refine exec_acts_of i s t h (fun _ ha => ha) fun hbus op bytes hp => ?_
  have start : ∀ (c : Command), classify s.cfg op = c → (∀ a, Command.receives c a = true → Instr.does i a = true) →
      Instr.does i .read = true → Acts (fun a => Instr.does i a = true) s (receive (op :: bytes) s) :=
    fun c hc hd hr => acts_receive op bytes s hs hr (by rw [hc]; exact hd)
  cases i with
  | signOn e =>
    obtain rfl : op = _ := (List.cons_prefix_cons.mp hp).1
    exact start .signOn (classify_signOn _ hc) (fun a => by cases a <;> simp [Command.receives, Instr.does]) rfl
  | getSync e =>
    obtain rfl : op = _ := (List.cons_prefix_cons.mp hp).1
    exact start .getSync (classify_getSync _ hc) (fun a => by cases a <;> simp [Command.receives, Instr.does]) rfl
  | getParam sub e =>
    obtain rfl : op = _ := (List.cons_prefix_cons.mp hp).1
    exact start .getParam (classify_getParam _ hc) (fun a => by cases a <;> simp [Command.receives, Instr.does]) rfl
  | setParams p e =>
    obtain rfl : op = _ := (List.cons_prefix_cons.mp hp).1
    exact start .setParams (classify_setParams _ hc) (fun a => by cases a <;> simp [Command.receives, Instr.does]) rfl
  | setExt x e =>
    obtain rfl : op = _ := (List.cons_prefix_cons.mp hp).1
    exact start .setExt (classify_setExt _ hc) (fun a => by cases a <;> simp [Command.receives, Instr.does]) rfl
  | enterPmode e =>
    obtain rfl : op = _ := (List.cons_prefix_cons.mp hp).1
    exact start .enter (classify_enter _ hc) (fun a => by cases a <;> simp [Command.receives, Instr.does]) rfl
  | leavePmode e =>
    obtain rfl : op = _ := (List.cons_prefix_cons.mp hp).1
    exact start .leave (classify_leave _ hc) (fun a => by cases a <;> simp [Command.receives, Instr.does]) rfl
  | setAddr lo hi e =>
    obtain rfl : op = _ := (List.cons_prefix_cons.mp hp).1
    exact start .setAddr (classify_setAddr _ hc) (fun a => by cases a <;> simp [Command.receives, Instr.does]) rfl
  | universal b0 b1 b2 b3 e =>
    obtain rfl : op = _ := (List.cons_prefix_cons.mp hp).1
    exact start .universal (classify_universal _ hc) (fun a => by cases a <;> simp [Command.receives, Instr.does]) rfl
  | progFlash d e =>
    obtain rfl : op = _ := (List.cons_prefix_cons.mp hp).1
    exact start .progFlash (classify_progFlash _ hc) (fun a => by cases a <;> simp [Command.receives, Instr.does]) rfl
  | progData d e =>
    obtain rfl : op = _ := (List.cons_prefix_cons.mp hp).1
    exact start .progData (classify_progData _ hc) (fun a => by cases a <;> simp [Command.receives, Instr.does]) rfl
  | progPage len tag body =>
    obtain rfl : op = _ := (List.cons_prefix_cons.mp hp).1
    exact start .progPage (classify_progPage _ hc) (fun a => by cases a <;> simp [Command.receives, Instr.does]) rfl
  | progPageF len d e =>
    obtain rfl : op = _ := (List.cons_prefix_cons.mp hp).1
    exact start .progPage (classify_progPage _ hc) (fun a => by cases a <;> simp [Command.receives, Instr.does]) rfl
  | progPageE len d e =>
    obtain rfl : op = _ := (List.cons_prefix_cons.mp hp).1
    exact start .progPage (classify_progPage _ hc) (fun a => by cases a <;> simp [Command.receives, Instr.does]) rfl
  | readPage len tag e =>
    obtain rfl : op = _ := (List.cons_prefix_cons.mp hp).1
    exact start .readPage (classify_readPage _ hc) (fun a => by cases a <;> simp [Command.receives, Instr.does]) rfl
  | readPageF len e =>
    obtain rfl : op = _ := (List.cons_prefix_cons.mp hp).1
    exact start .readPage (classify_readPage _ hc) (fun a => by cases a <;> simp [Command.receives, Instr.does]) rfl
  | readPageE len e =>
    obtain rfl : op = _ := (List.cons_prefix_cons.mp hp).1
    exact start .readPage (classify_readPage _ hc) (fun a => by cases a <;> simp [Command.receives, Instr.does]) rfl
  | readSig e =>
    obtain rfl : op = _ := (List.cons_prefix_cons.mp hp).1
    exact start .readSig (classify_readSig _ hc) (fun a => by cases a <;> simp [Command.receives, Instr.does]) rfl
  | bareEop =>
    obtain rfl : op = _ := (List.cons_prefix_cons.mp hp).1
    exact start .bareEop (classify_eop _) (fun a => by cases a <;> simp [Command.receives, Instr.does]) rfl
  | unknownOpcode o b =>
    obtain rfl : op = _ := (List.cons_prefix_cons.mp hp).1
    exact start .unknown (classify_unknown _ _ hi.1 hi.2) (fun a => by cases a <;> simp [Command.receives, Instr.does]) rfl
  | busProgEnable => cases hbus
  | busLoadLo a d => cases hbus
  | busLoadHi a d => cases hbus
  | busWritePage p => cases hbus
  | busReadLo a => cases hbus
  | busReadHi a => cases hbus
  | busEeWrite e d => cases hbus
  | busEeRead e => cases hbus
  | busReadSig i => cases hbus
  | busUniversal b0 b1 b2 b3 => cases hbus

/-- Every step is a sequence of actions, after the bytes or the transaction it takes have left the inputs. -/
theorem step_acts (s t : State) (h : step s = .next t) :
    ∃ u, (u = { s with busCalls := u.busCalls } ∨ u = { s with hostIn := u.hostIn }) ∧ Acts (fun _ => True) u t := by
  unfold step at h
  split at h
  · next w ws _ => exact ⟨{ s with busCalls := ws }, .inl rfl, exec_acts _ _ _ h⟩
  · split at h
    · next i rest _ => exact ⟨{ s with hostIn := rest }, .inr rfl, exec_acts _ _ _ h⟩
    · cases h
      exact ⟨{ s with hostIn := [] }, .inr rfl, acts_receiveAll _ _ trivial fun _ _ => trivial⟩

end Sys2Proof.Machine
end

