-- ==== Sys2Proof/Laws/Receive.lean ====
section
/-! SUPPORT. What receiving the bytes of a command before its EOP position comes to, command by command, from the command's
start. -/

namespace Sys2Proof.Machine

/-! ### Filling the buffer -/

/-- The bytes written from index `x` upward. -/
def Memory.fill : Memory → Nat → List Byte → Memory
  | m, _, [] => m
  | m, x, b :: bs => Memory.fill (Memory.put m (BitVec.ofNat 8 x).toNat b) (x + 1) bs

theorem Memory.fill_append (m : Memory) (x : Nat) (bs cs : List Byte) :
    Memory.fill m x (bs ++ cs) = Memory.fill (Memory.fill m x bs) (x + bs.length) cs := by
  induction bs generalizing m x with
  | nil => simp [Memory.fill]
  | cons b bs ih => simp [Memory.fill, ih, Nat.add_assoc, Nat.add_comm 1]

theorem Memory.fill_wf (m : Memory) (x : Nat) (bs : List Byte) (h : Memory.wf m) : Memory.wf (Memory.fill m x bs) := by
  induction bs generalizing m x with
  | nil => exact h
  | cons b bs ih => exact ih _ _ (Memory.put_wf _ _ _ (BitVec.isLt _) h)

/-- What a byte reads after a fill that does not wrap. -/
theorem Memory.get_fill (m : Memory) (x : Nat) (bs : List Byte) (h : Memory.wf m) (hx : x + bs.length ≤ 256) (i : Nat) :
    Memory.get (Memory.fill m x bs) i =
      if x ≤ i ∧ i < x + bs.length then bs.getD (i - x) 0 else Memory.get m i := by
  induction bs generalizing m x with
  | nil =>
    simp [Memory.fill]
  | cons b bs ih =>
    rw [List.length_cons] at hx
    have hput : Memory.wf (Memory.put m (BitVec.ofNat 8 x).toNat b) := Memory.put_wf _ _ _ (BitVec.isLt _) h
    have hofx : (BitVec.ofNat 8 x).toNat = x := by rw [BitVec.toNat_ofNat]; omega
    simp only [Memory.fill]
    rw [ih _ _ hput (by omega), List.length_cons, hofx]
    by_cases hi : i = x
    · subst hi
      rw [if_neg (by omega), if_pos (by omega), Memory.get_put_same _ _ _ h.1]
      simp
    · by_cases hin : x + 1 ≤ i ∧ i < x + 1 + bs.length
      · rw [if_pos hin, if_pos (by omega), show i - x = (i - (x + 1)) + 1 by omega]
        simp
      · rw [if_neg hin, if_neg (by omega), Memory.get_put_other _ _ _ _ (Ne.symm hi)]

/-- Filling from index 0 holds the bytes. -/
theorem State.filled_fill (s : State) (bs : List Byte) (h : Memory.wf s.buffer) (hl : bs.length ≤ 256) :
    s.Filled bs (Memory.fill s.buffer 0 bs) := by
  refine ⟨Memory.fill_wf _ _ _ h, fun i => ?_⟩
  rw [Memory.get_fill _ _ _ h (by omega)]
  simp [State.memRead]

/-- A filled buffer as a list of its bytes. -/
theorem State.bufferAt_filled (s t : State) (bs : List Byte) (h : s.Filled bs t.buffer) (x : Nat) (hx : x < bs.length)
    (hl : bs.length ≤ 256) : t.bufferAt x = bs.getD x 0 := by
  have hofx : (BitVec.ofNat 8 x).toNat = x := by rw [BitVec.toNat_ofNat]; omega
  have := h.2 (BitVec.ofNat 8 x)
  rw [hofx, if_pos hx] at this
  rw [State.bufferAt, State.memRead, hofx, this]

theorem reads_append (bs cs : List Byte) : reads (bs ++ cs) = reads bs ++ reads cs := by simp [reads]
@[simp] theorem reads_nil : reads [] = [] := rfl
@[simp] theorem reads_cons (b : Byte) (bs : List Byte) : reads (b :: bs) = .hostRead b :: reads bs := rfl
@[simp] theorem writes_nil : writes [] = [] := rfl
@[simp] theorem writes_cons (b : Byte) (bs : List Byte) : writes (b :: bs) = .hostWrite b :: writes bs := rfl
theorem writes_append (bs cs : List Byte) : writes (bs ++ cs) = writes bs ++ writes cs := by simp [writes]

/-! ### One byte -/

theorem receiveByte_start (s : State) (b : Byte) (h : s.got = []) :
    receiveByte s b = afterOpcode b (s.hostRead b) := by simp [receiveByte, h]

theorem receiveByte_payload (s : State) (op b : Byte) (pay : List Byte) (h : s.got = op :: pay) :
    receiveByte s b = afterPayload op pay b (s.hostRead b) := by simp [receiveByte, h]

/-- The classes whose opcode byte does nothing before the EOP position. -/
def Command.quietOpcode : Command → Bool
  | .unknown => false
  | .signOn => false
  | .enter => false
  | .leave => false
  | _ => true

theorem afterOpcode_quiet (op : Byte) (s : State) (h : Command.quietOpcode (classify s.cfg op) = true) : afterOpcode op s = s := by
  unfold afterOpcode
  split <;> rename_i hc <;> first | rfl | (rw [hc] at h; cases h)

/-- The classes whose payload bytes do nothing before the EOP position. -/
def Command.quietPayload : Command → Bool
  | .setParams => false
  | .setExt => false
  | .universal => false
  | .setAddr => false
  | .progPage => false
  | _ => true

theorem afterPayload_quiet (op b : Byte) (pay : List Byte) (s : State) (h : Command.quietPayload (classify s.cfg op) = true) :
    afterPayload op pay b s = s := by
  unfold afterPayload
  split <;> rename_i hc <;> first | rfl | (rw [hc] at h; cases h)

/-- Payload bytes of a quiet class are only read. -/
theorem receiveAll_quiet (op : Byte) (pay bs : List Byte) (s : State) (hg : s.got = op :: pay)
    (h : Command.quietPayload (classify s.cfg op) = true) :
    bs.foldl receiveByte s = { s with got := s.got ++ bs, history := s.history ++ reads bs } := by
  induction bs generalizing pay s with
  | nil => simp
  | cons b bs ih =>
    rw [List.foldl_cons, receiveByte_payload s op b pay hg, afterPayload_quiet _ _ _ _ (by simpa using h),
      ih (pay ++ [b]) _ (by simp [hg]) (by simpa using h)]
    simp [State.hostRead]

/-- A command that does nothing before its EOP position has only been read (40 R131). -/
theorem receive_quiet (op : Byte) (bs : List Byte) (s : State) (hg : s.got = [])
    (ho : Command.quietOpcode (classify s.cfg op) = true) (hp : Command.quietPayload (classify s.cfg op) = true) :
    receive (op :: bs) s = { s with got := op :: bs, history := s.history ++ reads (op :: bs) } := by
  rw [receive_start _ _ hg, List.foldl_cons, receiveByte_start _ _ hg, afterOpcode_quiet _ _ (by simpa using ho),
    receiveAll_quiet op [] _ _ (by simp [hg]) (by simpa using hp)]
  simp [State.hostRead, hg]

/-- The opcode byte of a command with a payload is only read. -/
theorem receive_opcode (op : Byte) (bs : List Byte) (s : State) (hg : s.got = [])
    (ho : Command.quietOpcode (classify s.cfg op) = true) :
    receive (op :: bs) s = bs.foldl receiveByte (s.hostRead op) := by
  rw [receive_start _ _ hg, List.foldl_cons, receiveByte_start _ _ hg, afterOpcode_quiet _ _ (by simpa using ho)]

/-! ### Commands without payload -/

theorem receive_signOn (s : State) (hg : s.got = []) (hc : s.cfg.WellFormed) :
    receive [s.cfg.opcodes.signOn] s = early clearErrors (s.hostRead s.cfg.opcodes.signOn) := by
  rw [receive_start _ _ hg]
  simp [receiveByte_start _ _ hg, afterOpcode, classify_signOn _ hc]

theorem receive_enter (s : State) (hg : s.got = []) (hc : s.cfg.WellFormed) :
    receive [s.cfg.opcodes.enter] s = early enterEffect (s.hostRead s.cfg.opcodes.enter) := by
  rw [receive_start _ _ hg]
  simp [receiveByte_start _ _ hg, afterOpcode, classify_enter _ hc]

theorem receive_leave (s : State) (hg : s.got = []) (hc : s.cfg.WellFormed) :
    receive [s.cfg.opcodes.leave] s = early exitSequence (s.hostRead s.cfg.opcodes.leave) := by
  rw [receive_start _ _ hg]
  simp [receiveByte_start _ _ hg, afterOpcode, classify_leave _ hc]

theorem receive_unknown (s : State) (op : Byte) (hg : s.got = []) (h : classify s.cfg op = .unknown) :
    receive [op] s = (s.hostRead op).countError := by
  rw [receive_start _ _ hg]
  simp [receiveByte_start _ _ hg, afterOpcode, h]

theorem receive_setAddr (s : State) (lo hi : Byte) (hg : s.got = []) (hc : s.cfg.WellFormed) :
    receive [s.cfg.opcodes.setAddr, lo, hi] s =
      early (setAddress lo hi) (((s.hostRead s.cfg.opcodes.setAddr).hostRead lo).hostRead hi) := by
  rw [receive_opcode _ _ _ hg (by simp [classify_setAddr _ hc, Command.quietOpcode])]
  simp [receiveByte, hg, afterPayload, classify_setAddr _ hc]

/-! ### Commands that fill the buffer -/

/-- Payload bytes of a filling class, the last one of set-parameters and of universal excepted. -/
theorem receiveAll_fill (op : Byte) (pay bs : List Byte) (s : State) (hg : s.got = op :: pay)
    (h : classify s.cfg op = .setExt ∨ (classify s.cfg op = .setParams ∧ pay.length + bs.length < paramLen) ∨
      (classify s.cfg op = .universal ∧ pay.length + bs.length < 4)) :
    bs.foldl receiveByte s =
      { s with
        buffer := Memory.fill s.buffer pay.length bs
        got := s.got ++ bs
        history := s.history ++ reads bs } := by
  induction bs generalizing pay s with
  | nil => simp [Memory.fill]
  | cons b bs ih =>
    rw [List.length_cons] at h
    have hone : receiveByte s b = (s.hostRead b).fillAt pay.length b := by
      rw [receiveByte_payload s op b pay hg]
      unfold afterPayload
      simp only [State.hostRead_cfg]
      rcases h with h | ⟨h, hl⟩ | ⟨h, hl⟩
      · simp only [h]
      · simp only [h]; rw [if_neg (by omega)]
      · simp only [h]; rw [if_neg (by omega)]
    rw [List.foldl_cons, hone, ih (pay ++ [b]) _ (by simp [hg])]
    · simp [State.fillAt, State.memWrite, State.hostRead, Memory.fill]
    · simpa [Nat.add_assoc, Nat.add_comm 1] using h

/-- Set-parameters before its EOP position: the block in the buffer, and under Legacy decoded. -/
theorem receive_setParams (s : State) (p : List Byte) (hg : s.got = []) (hc : s.cfg.WellFormed) (hl : p.length = paramLen) :
    receive (s.cfg.opcodes.setParams :: p) s = early decodeParameters { s with
      buffer := Memory.fill s.buffer 0 p
      got := s.cfg.opcodes.setParams :: p
      history := s.history ++ reads (s.cfg.opcodes.setParams :: p) } := by
  have hcl := classify_setParams _ hc
  rw [receive_opcode _ _ _ hg (by rw [hcl]; rfl)]
  obtain ⟨q, b, rfl⟩ : ∃ q b, p = q ++ [b] := by
    rcases List.eq_nil_or_concat p with rfl | ⟨q, b, rfl⟩
    · cases hl
    · exact ⟨q, b, List.concat_eq_append⟩
  rw [List.length_append, List.length_singleton] at hl
  rw [List.foldl_append, receiveAll_fill s.cfg.opcodes.setParams [] q _ (by simp [hg])
    (.inr (.inl ⟨by simpa using hcl, by simp; omega⟩)), List.foldl_cons, List.foldl_nil,
    receiveByte_payload _ s.cfg.opcodes.setParams b q (by simp [hg])]
  unfold afterPayload
  simp only [State.hostRead_cfg, hcl]
  rw [if_pos hl]
  simp [State.fillAt, State.memWrite, State.hostRead, hg, Memory.fill_append, Memory.fill, reads_append]

/-- A block that fills the buffer is what is decoded (42 R190, R193). -/
theorem decodeParameters_filled (s t : State) (p : List Byte) (h : s.Filled p t.buffer) (hl : p.length = 20) :
    decodeParameters t = { t with
      params := decodeBlock p, resetActiveHigh := polarityOf (blockByte p 0) } := by
  have : t.bufferBytes 0 paramLen = p := by
    apply List.ext_getElem
    · simp [State.bufferBytes, hl, paramLen]
    · intro i h1 h2
      simp only [State.bufferBytes, List.getElem_map, List.getElem_range, Nat.zero_add]
      rw [State.bufferAt_filled s t p h i h2 (by omega)]
      simp [h2]
  rw [decodeParameters, this]
  rfl

/-- Set-extended-parameters before its EOP position. -/
theorem receive_setExt (s : State) (x : List Byte) (hg : s.got = []) (hc : s.cfg.WellFormed) :
    receive (s.cfg.opcodes.setExt :: x) s = { s with
      buffer := Memory.fill s.buffer 0 x
      got := s.cfg.opcodes.setExt :: x
      history := s.history ++ reads (s.cfg.opcodes.setExt :: x) } := by
  have hcl := classify_setExt _ hc
  rw [receive_opcode _ _ _ hg (by rw [hcl]; rfl), receiveAll_fill s.cfg.opcodes.setExt [] x _ (by simp [hg])
    (.inl (by simpa using hcl))]
  simp [State.hostRead, hg]

/-- Universal before its EOP position: the four bytes in the buffer, and under Legacy exchanged. -/
theorem receive_universal (s : State) (b0 b1 b2 b3 : Byte) (hg : s.got = []) (hc : s.cfg.WellFormed) :
    receive [s.cfg.opcodes.universal, b0, b1, b2, b3] s = early universalEffect { s with
      buffer := Memory.fill s.buffer 0 [b0, b1, b2, b3]
      got := [s.cfg.opcodes.universal, b0, b1, b2, b3]
      history := s.history ++ reads [s.cfg.opcodes.universal, b0, b1, b2, b3] } := by
  have hcl := classify_universal _ hc
  rw [receive_opcode _ _ _ hg (by rw [hcl]; rfl), show [b0, b1, b2, b3] = [b0, b1, b2] ++ [b3] from rfl,
    List.foldl_append, receiveAll_fill s.cfg.opcodes.universal [] [b0, b1, b2] _ (by simp [hg])
    (.inr (.inr ⟨by simpa using hcl, by simp⟩)), List.foldl_cons, List.foldl_nil,
    receiveByte_payload _ s.cfg.opcodes.universal b3 [b0, b1, b2] (by simp [hg])]
  unfold afterPayload
  simp [hcl, State.fillAt, State.memWrite, State.hostRead, hg, Memory.fill]

/-! ### Program-page -/

/-- The header of a program-page: at the tag byte an EEPROM capacity failure is counted (45 R266). -/
theorem receive_pageHeader (s : State) (len : Half) (tag : Byte) (bs : List Byte) (hg : s.got = []) (hc : s.cfg.WellFormed) :
    receive (pageHeader s.cfg.opcodes.progPage len tag ++ bs) s = bs.foldl receiveByte { s with
      got := pageHeader s.cfg.opcodes.progPage len tag
      errorCount :=
        if tag ≠ s.cfg.memtagFlash ∧ tag = s.cfg.memtagEeprom ∧ s.overCapacity len then s.errorCount + 1 else s.errorCount
      history := s.history ++ reads (pageHeader s.cfg.opcodes.progPage len tag) } := by
  have hcl := classify_progPage _ hc
  have hover : ∀ t : State, t.params = s.params → t.overCapacity len = s.overCapacity len := by
    intro t ht
    simp [State.overCapacity, ht]
  rw [pageHeader, List.cons_append, receive_opcode _ _ _ hg (by rw [hcl]; rfl)]
  simp only [List.cons_append, List.nil_append, List.foldl_cons]
  congr 1
  simp [receiveByte, hg, afterPayload, hcl, afterPageByte]
  rw [hover _ (by simp)]
  split <;> simp [State.hostRead, State.countError, hg]

/-- The data of a flash program-page goes to the buffer. -/
theorem receiveAll_flash (lh ll : Byte) (data bs : List Byte) (s : State) (hc : s.cfg.WellFormed)
    (hg : s.got = s.cfg.opcodes.progPage :: lh :: ll :: s.cfg.memtagFlash :: data) :
    bs.foldl receiveByte s =
      { s with
        buffer := Memory.fill s.buffer data.length bs
        got := s.got ++ bs
        history := s.history ++ reads bs } := by
  induction bs generalizing data s with
  | nil => simp [Memory.fill]
  | cons b bs ih =>
    have hone : receiveByte s b = (s.hostRead b).fillAt data.length b := by
      rw [receiveByte_payload s _ b _ hg]
      unfold afterPayload
      simp [classify_progPage _ hc, afterPageByte]
    rw [List.foldl_cons, hone, ih (data ++ [b]) _ (by simpa using hc) (by simp [hg])]
    simp [State.fillAt, State.memWrite, State.hostRead, Memory.fill]

/-- A flash program-page before its EOP position (44 R238). -/
theorem receive_flash (s : State) (len : Half) (data : List Byte) (hg : s.got = []) (hc : s.cfg.WellFormed) :
    receive (pageHeader s.cfg.opcodes.progPage len s.cfg.memtagFlash ++ data) s = { s with
      buffer := Memory.fill s.buffer 0 data
      got := pageHeader s.cfg.opcodes.progPage len s.cfg.memtagFlash ++ data
      history := s.history ++ reads (pageHeader s.cfg.opcodes.progPage len s.cfg.memtagFlash ++ data) } := by
  rw [receive_pageHeader s len _ data hg hc,
    receiveAll_flash (hi8 len) (lo8 len) [] data _ (by simpa using hc) (by simp [pageHeader])]
  simp [reads_append]

/-- The data of a capacity failure is discarded (45 R266). -/
theorem receiveAll_capacity (len : Half) (data bs : List Byte) (s : State) (hc : s.cfg.WellFormed)
    (ho : s.overCapacity len = true)
    (hg : s.got = pageHeader s.cfg.opcodes.progPage len s.cfg.memtagEeprom ++ data) :
    bs.foldl receiveByte s = { s with got := s.got ++ bs, history := s.history ++ reads bs } := by
  induction bs generalizing data s with
  | nil => simp
  | cons b bs ih =>
    have hone : receiveByte s b = s.hostRead b := by
      rw [receiveByte_payload s _ b _ (by rw [hg]; rfl)]
      unfold afterPayload
      have hn : s.cfg.memtagEeprom ≠ s.cfg.memtagFlash := Ne.symm hc.2
      have : (s.hostRead b).overCapacity len = true := ho
      simp [classify_progPage _ hc, afterPageByte, hn, this]
    rw [List.foldl_cons, hone, ih (data ++ [b]) (s.hostRead b) hc ho (by simp [hg])]
    simp [State.hostRead]

/-- A capacity failure before its EOP position (45 R266): counted, the data read and discarded. -/
theorem receive_capacity (s : State) (len : Half) (data : List Byte) (hg : s.got = []) (hc : s.cfg.WellFormed)
    (ho : s.params.eepromSize < len) :
    receive (pageHeader s.cfg.opcodes.progPage len s.cfg.memtagEeprom ++ data) s = { s with
      got := pageHeader s.cfg.opcodes.progPage len s.cfg.memtagEeprom ++ data
      errorCount := s.errorCount + 1
      history := s.history ++ reads (pageHeader s.cfg.opcodes.progPage len s.cfg.memtagEeprom ++ data) } := by
  have hn : s.cfg.memtagEeprom ≠ s.cfg.memtagFlash := Ne.symm hc.2
  have hover : s.overCapacity len = true := decide_eq_true ho
  rw [receive_pageHeader s len _ data hg hc,
    receiveAll_capacity len [] data { s with
      got := pageHeader s.cfg.opcodes.progPage len s.cfg.memtagEeprom
      errorCount := _
      history := _ } hc hover (by simp)]
  simp [reads_append, hn, hover]

end Sys2Proof.Machine
end

