-- ==== Sys2Proof/Laws/Writers.lean ====
section
/-! SUPPORT. What the flash writer and the EEPROM writer do, as event lists; everything they leave alone, once (`Did`). -/

namespace Sys2Proof.Machine

/-! ### What only transactions, delays and the host channel have changed -/

/-- From `s` to `t` the events `es` have come, `k` answers of the target have been taken, and of the session record only the
buffer and `address` can have changed. -/
structure Did (s t : State) (es : List Event) (k : Nat) : Prop where
  cfg : t.cfg = s.cfg
  params : t.params = s.params
  errorCount : t.errorCount = s.errorCount
  mode : t.mode = s.mode
  resetActiveHigh : t.resetActiveHigh = s.resetActiveHigh
  busOn : t.busOn = s.busOn
  hostIn : t.hostIn = s.hostIn
  busCalls : t.busCalls = s.busCalls
  history : t.history = s.history ++ es
  targetIn : t.targetIn = s.targetIn.drop k
  lines : s.BusLinesOnly t.lines

variable {s t u : State} {es fs : List Event} {k l : Nat}

theorem BusLinesOnly.same (s : State) : s.BusLinesOnly s.lines := ⟨rfl, rfl, rfl, fun _ => .inr rfl⟩

theorem Did.refl (s : State) : Did s s [] 0 :=
  ⟨rfl, rfl, rfl, rfl, rfl, rfl, rfl, rfl, by simp, rfl, BusLinesOnly.same s⟩

theorem Did.trans (h : Did s t es k) (h' : Did t u fs l) : Did s u (es ++ fs) (k + l) where
  cfg := h'.cfg.trans h.cfg
  params := h'.params.trans h.params
  errorCount := h'.errorCount.trans h.errorCount
  mode := h'.mode.trans h.mode
  resetActiveHigh := h'.resetActiveHigh.trans h.resetActiveHigh
  busOn := h'.busOn.trans h.busOn
  hostIn := h'.hostIn.trans h.hostIn
  busCalls := h'.busCalls.trans h.busCalls
  history := by rw [h'.history, h.history, List.append_assoc]
  targetIn := by rw [h'.targetIn, h.targetIn, List.drop_drop]
  lines := by
    obtain ⟨a1, a2, a3, a4⟩ := h.lines
    obtain ⟨b1, b2, b3, b4⟩ := h'.lines
    refine ⟨b1.trans a1, b2.trans a2, b3.trans a3, fun hb => ?_⟩
    rcases b4 (h.busOn.trans hb) with h5 | h5
    · exact .inl (h5.trans (by rw [h.cfg]))
    · rw [h5]; exact a4 hb

theorem did_busXfer (w : Word) (s : State) : Did s (s.busXfer w) [.bus w (s.nextAnswer w)] 1 where
  cfg := rfl
  params := rfl
  errorCount := rfl
  mode := rfl
  resetActiveHigh := rfl
  busOn := rfl
  hostIn := rfl
  busCalls := rfl
  history := by simp [State.busXfer]
  targetIn := by simp [State.busXfer]
  lines := ⟨rfl, rfl, rfl, fun h => .inl (by simp [State.busXfer, busLines, Lines.drive, h])⟩

theorem did_delay (n : Nat) (s : State) : Did s (s.delay n) [.delay n] 0 :=
  ⟨rfl, rfl, rfl, rfl, rfl, rfl, rfl, rfl, rfl, rfl, BusLinesOnly.same s⟩

theorem did_lamp (on : Bool) (s : State) : Did s (s.lamp on) [] 0 :=
  ⟨rfl, rfl, rfl, rfl, rfl, rfl, rfl, rfl, by simp, rfl, BusLinesOnly.same s⟩

theorem did_hostRead (b : Byte) (s : State) : Did s (s.hostRead b) [.hostRead b] 0 :=
  ⟨rfl, rfl, rfl, rfl, rfl, rfl, rfl, rfl, rfl, rfl, BusLinesOnly.same s⟩

theorem did_hostWrite (b : Byte) (s : State) : Did s (s.hostWrite b) [.hostWrite b] 0 :=
  ⟨rfl, rfl, rfl, rfl, rfl, rfl, rfl, rfl, rfl, rfl, BusLinesOnly.same s⟩

theorem did_fillAt (x : Nat) (b : Byte) (s : State) : Did s (s.fillAt x b) [] 0 :=
  ⟨rfl, rfl, rfl, rfl, rfl, rfl, rfl, rfl, by simp, rfl, BusLinesOnly.same s⟩

theorem did_address (a : Half) (s : State) : Did s { s with address := a } [] 0 :=
  ⟨rfl, rfl, rfl, rfl, rfl, rfl, rfl, rfl, by simp, rfl, BusLinesOnly.same s⟩

/-- A state with what `Did` does not speak of named is determined. -/
theorem Did.eq (h : Did s t es k) : t = { s with
    buffer := t.buffer, address := t.address, history := s.history ++ es, targetIn := s.targetIn.drop k, got := t.got
    busResult := t.busResult, wave := t.wave, lines := t.lines, draws := t.draws, lampOn := t.lampOn
    progressCounter := t.progressCounter } := by
  obtain ⟨h1, h2, h3, h4, h5, h6, h7, h8, h9, h10, -⟩ := h
  cases t
  simp_all

theorem busWords_append (es fs : List Event) : busWords (es ++ fs) = busWords es ++ busWords fs := by
  induction es with
  | nil => rfl
  | cons e es ih => cases e <;> simp [busWords, ih]

theorem minMicros_append (es fs : List Event) : minMicros (es ++ fs) = minMicros es + minMicros fs := by
  induction es with
  | nil => simp [minMicros]
  | cons e es ih => cases e <;> simp [minMicros, ih, Nat.add_assoc]

theorem writtenBytes_append (es fs : List Event) : writtenBytes (es ++ fs) = writtenBytes es ++ writtenBytes fs := by
  induction es with
  | nil => rfl
  | cons e es ih => cases e <;> simp [writtenBytes, ih]

/-- What the target answers does not change what was sent. -/
theorem busWords_sent (es : List Event) : busWords (es.map Event.sent) = busWords es := by
  induction es with
  | nil => rfl
  | cons e es ih => cases e <;> simp [busWords, Event.sent, ih]

theorem minMicros_sent (es : List Event) : minMicros (es.map Event.sent) = minMicros es := by
  induction es with
  | nil => rfl
  | cons e es ih => cases e <;> simp [minMicros, Event.sent, ih]

theorem writtenBytes_sent (es : List Event) : writtenBytes (es.map Event.sent) = writtenBytes es := by
  induction es with
  | nil => rfl
  | cons e es ih => cases e <;> simp [writtenBytes, Event.sent, ih]

@[simp] theorem busWords_reads (bs : List Byte) : busWords (reads bs) = [] := by
  induction bs with
  | nil => rfl
  | cons b bs ih => simpa [busWords] using ih

@[simp] theorem busWords_writes (bs : List Byte) : busWords (writes bs) = [] := by
  induction bs with
  | nil => rfl
  | cons b bs ih => simpa [busWords] using ih

@[simp] theorem minMicros_reads (bs : List Byte) : minMicros (reads bs) = 0 := by
  induction bs with
  | nil => rfl
  | cons b bs ih => simpa [minMicros] using ih

@[simp] theorem minMicros_writes (bs : List Byte) : minMicros (writes bs) = 0 := by
  induction bs with
  | nil => rfl
  | cons b bs ih => simpa [minMicros] using ih

@[simp] theorem writtenBytes_reads (bs : List Byte) : writtenBytes (reads bs) = [] := by
  induction bs with
  | nil => rfl
  | cons b bs ih => simpa [writtenBytes] using ih

@[simp] theorem writtenBytes_writes (bs : List Byte) : writtenBytes (writes bs) = bs := by
  induction bs with
  | nil => rfl
  | cons b bs ih => simpa [writtenBytes] using ih

@[simp] theorem sent_reads (bs : List Byte) : (reads bs).map Event.sent = reads bs := by
  simp [reads, Event.sent]

@[simp] theorem sent_writes (bs : List Byte) : (writes bs).map Event.sent = writes bs := by
  simp [writes, Event.sent]

/-- A command's own bytes around its effect add no reply, no delay and no transaction. -/
theorem writtenBytes_effectEvents (cfg : Config) (before : List Byte) (e : Byte) (effect : List Event) :
    writtenBytes (effectEvents cfg before e effect) = writtenBytes effect := by
  unfold effectEvents
  split <;> simp [writtenBytes_append, writtenBytes]

theorem minMicros_effectEvents (cfg : Config) (before : List Byte) (e : Byte) (effect : List Event) :
    minMicros (effectEvents cfg before e effect) = minMicros effect := by
  unfold effectEvents
  split <;> simp [minMicros_append, minMicros]

/-! ### The flash writer -/

/-- From `s` to `t` the flash writer has sent `sent`: the record is as it was but for `address`. -/
def Sent (s t : State) (sent : List Event) : Prop :=
  ∃ es, Did s t es (busWords es).length ∧ es.map Event.sent = sent ∧ t.buffer = s.buffer ∧ t.got = s.got

theorem Sent.trans {a b : List Event} (h : Sent s t a) (h' : Sent t u b) : Sent s u (a ++ b) := by
  obtain ⟨es, h1, h2, h3, h4⟩ := h
  obtain ⟨fs, g1, g2, g3, g4⟩ := h'
  refine ⟨es ++ fs, ?_, by simp [h2, g2], g3.trans h3, g4.trans h4⟩
  rw [busWords_append, List.length_append]
  exact h1.trans g1

theorem sent_refl (s : State) : Sent s s [] := ⟨[], Did.refl s, rfl, rfl, rfl⟩

theorem sent_busXfer (w : Word) (s : State) : Sent s (s.busXfer w) [.bus w 0] :=
  ⟨_, did_busXfer w s, rfl, rfl, rfl⟩

theorem sent_delay (n : Nat) (s : State) : Sent s (s.delay n) [.delay n] := ⟨_, did_delay n s, rfl, rfl, rfl⟩

theorem sent_lamp (on : Bool) (s : State) : Sent s (s.lamp on) [] := ⟨_, did_lamp on s, rfl, rfl, rfl⟩

/-- `Commit(p)` (44 R233). -/
theorem sent_commit (p : Half) (s : State) : Sent s (commit p s) (commitSent s.cfg p) :=
  (((sent_lamp false s).trans (sent_busXfer _ _)).trans (sent_delay _ _)).trans (sent_lamp true _)

@[simp] theorem commit_address (p : Half) (s : State) : (commit p s).address = s.address := rfl

/-- One word of the flash writer (44 R234). -/
theorem sent_loadWord (x : Nat) (s : State) :
    Sent s (loadWord x s) [.bus (busWord s.cfg.bus.loadLo s.address (s.bufferAt x)) 0,
      .bus (busWord s.cfg.bus.loadHi s.address (s.bufferAt (x + 1))) 0] :=
  ((sent_busXfer _ s).trans (sent_busXfer _ _)).trans ⟨_, did_address _ _, rfl, rfl, rfl⟩

@[simp] theorem loadWord_address (x : Nat) (s : State) : (loadWord x s).address = s.address + 1 := rfl

/-- The loop of the flash writer, from word `k` on (44 R234), `s₀` being the state at its start. -/
theorem sent_writeWords (s₀ : State) (d : List Byte) : ∀ (n k : Nat) (s : State),
    s.cfg = s₀.cfg → s.params = s₀.params → s.address = s₀.wordAddr k →
    (∀ j, j < 2 * (k + n) → s.bufferAt j = d.getD j 0) →
    (writeWords n (2 * k) (s₀.wordPage (k - 1)) s).1 = s₀.wordPage (k + n - 1) ∧
    (writeWords n (2 * k) (s₀.wordPage (k - 1)) s).2.address = s₀.wordAddr (k + n) ∧
    Sent s (writeWords n (2 * k) (s₀.wordPage (k - 1)) s).2 ((List.range' k n).flatMap fun k =>
      (if s₀.turnsPage k then commitSent s₀.cfg (s₀.wordPage (k - 1)) else []) ++
        [.bus (busWord s₀.cfg.bus.loadLo (s₀.wordAddr k) (d.getD (2 * k) 0)) 0,
          .bus (busWord s₀.cfg.bus.loadHi (s₀.wordAddr k) (d.getD (2 * k + 1) 0)) 0])
  | 0, k, s, _, _, ha, _ => ⟨rfl, ha, sent_refl s⟩
  | n + 1, k, s, hc, hp, ha, hd => by
    have hhere : s.currentPage s.address = s₀.wordPage k := by
      simp [State.currentPage, State.wordPage, hc, hp, ha]
    have hturn : (s₀.wordPage k ≠ s₀.wordPage (k - 1)) ↔ s₀.turnsPage k := by
      refine ⟨fun h => ⟨?_, h⟩, fun h => h.2⟩
      rintro rfl
      exact h rfl
    unfold writeWords
    dsimp only
    rw [hhere]
    generalize ht : (if s₀.wordPage k ≠ s₀.wordPage (k - 1) then commit (s₀.wordPage (k - 1)) s else s) = t
    have hst : Sent s t (if s₀.turnsPage k then commitSent s₀.cfg (s₀.wordPage (k - 1)) else []) := by
      by_cases hk : s₀.turnsPage k
      · rw [if_pos hk, ← ht, if_pos (hturn.mpr hk), ← hc]
        exact sent_commit _ s
      · rw [if_neg hk, ← ht, if_neg (fun h => hk (hturn.mp h))]
        exact sent_refl s
    have hta : t.address = s.address := by
      rw [← ht]
      split <;> rfl
    obtain ⟨es, hdid, hes, hbuf, hgot⟩ := hst
    have hat : ∀ j, t.bufferAt j = s.bufferAt j := fun j => by simp [State.bufferAt, State.memRead, hbuf]
    have hload := sent_loadWord (2 * k) t
    rw [hdid.cfg, hc, hta, ha, hat, hat, hd (2 * k) (by omega), hd (2 * k + 1) (by omega)] at hload
    have hnext := sent_writeWords s₀ d n (k + 1) (loadWord (2 * k) t)
      ((by rfl : (loadWord (2 * k) t).cfg = t.cfg).trans (hdid.cfg.trans hc))
      ((by rfl : (loadWord (2 * k) t).params = t.params).trans (hdid.params.trans hp))
      (by rw [loadWord_address, hta, ha, State.wordAddr, State.wordAddr, BitVec.add_assoc, BitVec.ofNat_add]; rfl)
      (fun j hj => ((by rfl : (loadWord (2 * k) t).bufferAt j = t.bufferAt j).trans (hat j)).trans (hd j (by omega)))
    rw [Nat.add_sub_cancel, show 2 * (k + 1) = 2 * k + 2 by omega] at hnext
    refine ⟨hnext.1.trans (by congr 1; omega), hnext.2.1.trans (by congr 1; omega), ?_⟩
    rw [List.range'_succ, List.flatMap_cons]
    exact (Sent.trans ⟨es, hdid, hes, hbuf, hgot⟩ hload).trans hnext.2.2

/-- `WriteFlashPages(L)` (44 R234, R236, R240, R241) on the data `d` the buffer holds. -/
theorem sent_writeFlashPages (s : State) (d : List Byte) (he : d.length % 2 = 0)
    (hd : ∀ j, j < d.length → s.bufferAt j = d.getD j 0) :
    Sent s (writeFlashPages d.length s) (s.flashSent d) ∧
      (writeFlashPages d.length s).address = s.address + BitVec.ofNat 16 (d.length / 2) := by
  have h := sent_writeWords s d (d.length / 2) 0 s rfl rfl (by simp [State.wordAddr]) (fun j hj => hd j (by omega))
  simp only [Nat.mul_zero, Nat.zero_add, Nat.zero_sub] at h
  have h0 : s.wordPage 0 = s.currentPage s.address := by simp [State.wordPage, State.wordAddr]
  rw [h0] at h
  unfold writeFlashPages
  obtain ⟨h1, h2, h3⟩ := h
  have hcfg : (writeWords (d.length / 2) 0 (s.currentPage s.address) s).2.cfg = s.cfg := by
    obtain ⟨es, hdid, -⟩ := h3
    exact hdid.cfg
  refine ⟨?_, h2⟩
  show Sent s (commit (writeWords (d.length / 2) 0 (s.currentPage s.address) s).1
    (writeWords (d.length / 2) 0 (s.currentPage s.address) s).2) _
  have hfin := sent_commit (writeWords (d.length / 2) 0 (s.currentPage s.address) s).1
    (writeWords (d.length / 2) 0 (s.currentPage s.address) s).2
  rw [hcfg] at hfin
  have := h3.trans hfin
  rw [← List.range_eq_range', h1] at this
  rw [h1]
  exact this

end Sys2Proof.Machine
end

