-- ==== Sys2Proof/Laws/Eeprom.lean ====
section
/-! SUPPORT. What an accepted EEPROM program-page does with its data, chunk by chunk. -/

namespace Sys2Proof.Machine

variable {s t u : State}

/-- From `s` to `t` the EEPROM writer has done `sent`: `k` transactions, no change of `address` or of the indicator, and none
of the buffer from index `b` on. -/
def Wrote (s t : State) (sent : List Event) (k b : Nat) : Prop :=
  ∃ es, Did s t es k ∧ es.map Event.sent = sent ∧ (t.address = s.address ∧ t.lampOn = s.lampOn ∧
    t.progressCounter = s.progressCounter) ∧ Memory.wf t.buffer ∧
    ∀ i : BitVec 8, b ≤ i.toNat → t.memRead i = s.memRead i

theorem Wrote.trans {a c : List Event} {k l b : Nat} (h : Wrote s t a k b) (h' : Wrote t u c l b) :
    Wrote s u (a ++ c) (k + l) b := by
  obtain ⟨es, h1, h2, h3, -, h4⟩ := h
  obtain ⟨fs, g1, g2, g3, gw, g4⟩ := h'
  exact ⟨es ++ fs, h1.trans g1, by simp [h2, g2], ⟨g3.1.trans h3.1, g3.2.1.trans h3.2.1, g3.2.2.trans h3.2.2⟩, gw, fun i hi => (g4 i hi).trans (h4 i hi)⟩

/-- The writes of a chunk (45 R263), its bytes `ch` in the buffer, from its byte `x` on. -/
theorem wrote_writeEepromBytes (s₀ : State) (j : Nat) (ch : List Byte) : ∀ (n x : Nat) (e : Half) (s : State),
    s.cfg = s₀.cfg → e = 2 * s₀.address + BitVec.ofNat 16 (j + x) → Memory.wf s.buffer →
    (∀ i, i < x + n → s.bufferAt i = ch.getD i 0) →
    Wrote s (writeEepromBytes n x e s)
        ((List.range' x n).flatMap fun i => s₀.eepromSent (j + i) (ch.getD i 0)) n 0 ∧
      (writeEepromBytes n x e s).buffer = s.buffer
  | 0, _, _, s, _, _, hw, _ => ⟨⟨[], Did.refl s, rfl, ⟨rfl, rfl, rfl⟩, hw, fun _ _ => rfl⟩, rfl⟩
  | n + 1, x, e, s, hc, he, hw, hb => by
    have hone : Wrote s (writeEepromByte e (s.bufferAt x) s) (s₀.eepromSent (j + x) (ch.getD x 0)) 1 0 := by
      refine ⟨_, (did_busXfer _ s).trans (did_delay _ _), ?_, ⟨rfl, rfl, rfl⟩, hw, fun _ _ => rfl⟩
      rw [State.eepromSent, ← hc, ← he, ← hb x (by omega)]
      rfl
    have hnext := wrote_writeEepromBytes s₀ j ch n (x + 1) (e + 1) (writeEepromByte e (s.bufferAt x) s) hc
      (by rw [he, BitVec.add_assoc, ← Nat.add_assoc, BitVec.ofNat_add (j + x) 1]; rfl) hw (fun i hi => hb i (by omega))
    refine ⟨?_, hnext.2⟩
    have := hone.trans hnext.1
    rw [Nat.add_comm 1 n] at this
    rwa [List.range'_succ, List.flatMap_cons]

/-- One byte of an accepted EEPROM program-page. -/
theorem receiveByte_eeprom (s : State) (len : Half) (pre : List Byte) (b : Byte) (hc : s.cfg.WellFormed)
    (ha : s.overCapacity len = false)
    (hg : s.got = pageHeader s.cfg.opcodes.progPage len s.cfg.memtagEeprom ++ pre) :
    receiveByte s b = afterEepromByte len pre.length b (s.hostRead b) := by
  rw [receiveByte_payload s _ b _ (by rw [hg]; rfl)]
  unfold afterPayload
  have hn : s.cfg.memtagEeprom ≠ s.cfg.memtagFlash := Ne.symm hc.2
  have : (s.hostRead b).overCapacity len = false := ha
  simp [classify_progPage _ hc, afterPageByte, hn, this]

/-- Bytes inside a chunk only fill the buffer. -/
theorem receiveAll_inChunk (len : Half) (pre bs : List Byte) (s : State) (hc : s.cfg.WellFormed)
    (ha : s.overCapacity len = false)
    (hg : s.got = pageHeader s.cfg.opcodes.progPage len s.cfg.memtagEeprom ++ pre)
    (h32 : pre.length % 32 + bs.length < 32) (hl : pre.length + bs.length < len.toNat) :
    bs.foldl receiveByte s =
      { s with
        buffer := Memory.fill s.buffer (pre.length % 32) bs
        got := s.got ++ bs
        history := s.history ++ reads bs } := by
  induction bs generalizing pre s with
  | nil => simp [Memory.fill]
  | cons b bs ih =>
    rw [List.length_cons] at h32 hl
    have hone : receiveByte s b = (s.hostRead b).fillAt (pre.length % 32) b := by
      rw [receiveByte_eeprom s len pre b hc ha hg]
      unfold afterEepromByte
      rw [if_neg (by simp only [eeChunk]; omega)]
      rfl
    rw [List.foldl_cons, hone, ih (pre ++ [b]) ((s.hostRead b).fillAt (pre.length % 32) b) hc ha (by simp [hg])
      (by rw [List.length_append, List.length_singleton]; omega)
      (by rw [List.length_append, List.length_singleton]; omega)]
    have hmod : (pre ++ [b]).length % 32 = pre.length % 32 + 1 := by
      rw [List.length_append, List.length_singleton]; omega
    rw [hmod]
    simp [State.fillAt, State.memWrite, State.hostRead, Memory.fill]

/-- One chunk (45 R263): its bytes are read, then written. -/
theorem wrote_chunk (len : Half) (pre ch : List Byte) (s : State) (hc : s.cfg.WellFormed) (hw : Memory.wf s.buffer)
    (ha : s.overCapacity len = false)
    (hg : s.got = pageHeader s.cfg.opcodes.progPage len s.cfg.memtagEeprom ++ pre)
    (hpre : pre.length % 32 = 0) (hne : ch ≠ []) (hch : ch.length ≤ 32)
    (hend : (ch.length = 32 ∧ pre.length + 32 ≤ len.toNat) ∨ pre.length + ch.length = len.toNat) :
    Wrote s (ch.foldl receiveByte s)
      (reads ch ++ (List.range ch.length).flatMap fun i => s.eepromSent (pre.length + i) (ch.getD i 0))
      ch.length ch.length := by
  obtain ⟨bs, b, rfl⟩ : ∃ bs b, ch = bs ++ [b] := by
    rcases List.eq_nil_or_concat ch with rfl | ⟨q, b, rfl⟩
    · exact absurd rfl hne
    · exact ⟨q, b, List.concat_eq_append⟩
  simp only [List.length_append, List.length_singleton] at hch hend ⊢
  have hj : (pre ++ bs).length = pre.length + bs.length := List.length_append
  have hmod : (pre.length + bs.length) % 32 = bs.length := by omega
  rw [List.foldl_append, receiveAll_inChunk len pre bs s hc ha hg (by omega) (by omega), List.foldl_cons, List.foldl_nil,
    receiveByte_eeprom _ len (pre ++ bs) b (by exact hc) (by exact ha) (by simp [hg])]
  unfold afterEepromByte
  dsimp only
  rw [hj, if_pos (by simp only [eeChunk]; omega)]
  simp only [eeChunk, hmod, hpre]
  generalize hm : (State.hostRead b { s with
    buffer := Memory.fill s.buffer 0 bs, got := s.got ++ bs, history := s.history ++ reads bs }).fillAt bs.length b = m
  have hbuf : m.buffer = Memory.fill s.buffer 0 (bs ++ [b]) := by
    rw [← hm, Memory.fill_append, Nat.zero_add]
    rfl
  have hmw : Memory.wf m.buffer := by rw [hbuf]; exact Memory.fill_wf _ _ _ hw
  have hdid : Wrote s m (reads (bs ++ [b])) 0 (bs.length + 1) := by
    refine ⟨reads (bs ++ [b]), ?_, sent_reads _, by rw [← hm]; exact ⟨rfl, rfl, rfl⟩, hmw, fun i hi => ?_⟩
    · rw [← hm]
      exact ⟨rfl, rfl, rfl, rfl, rfl, rfl, rfl, rfl, by simp [reads_append], rfl, BusLinesOnly.same s⟩
    · rw [State.memRead, hbuf, Memory.get_fill _ _ _ hw (by simp only [List.length_append, List.length_singleton]; omega),
        if_neg (by simp only [List.length_append, List.length_singleton]; omega)]
      rfl
  have hmc : m.cfg = s.cfg := by rw [← hm]; rfl
  have hma : m.eepromAddr (pre.length + bs.length - bs.length) = 2 * s.address + BitVec.ofNat 16 (pre.length + 0) := by
    rw [State.eepromAddr, Nat.add_sub_cancel, Nat.add_zero, ← hm]
    rfl
  have hfilled : ∀ i, i < 0 + (bs.length + 1) → m.bufferAt i = (bs ++ [b]).getD i 0 := by
    intro i hi
    refine State.bufferAt_filled s m (bs ++ [b]) ?_ i (by simpa using hi) (by simp; omega)
    rw [hbuf]
    exact State.filled_fill s _ hw (by simp; omega)
  have hwr := (wrote_writeEepromBytes s pre.length (bs ++ [b]) (bs.length + 1) 0 _ m hmc hma hmw hfilled).1
  rw [← List.range_eq_range'] at hwr
  have hwr' : Wrote m (writeEepromChunk (m.eepromAddr (pre.length + bs.length - bs.length)) (bs.length + 1) m)
      ((List.range (bs.length + 1)).flatMap fun i => s.eepromSent (pre.length + i) ((bs ++ [b]).getD i 0))
      (bs.length + 1) (bs.length + 1) := by
    obtain ⟨es, h1, h2, h3, h4, h5⟩ := hwr
    exact ⟨es, h1, h2, h3, h4, fun i _ => h5 i (Nat.zero_le _)⟩
  have := hdid.trans hwr'
  rw [Nat.zero_add] at this
  subst hm
  exact this

/-- The events of chunk `c` of the data `d`. -/
def State.chunkEvents (s : State) (d : List Byte) (c : Nat) : List Event :=
  reads ((d.drop (32 * c)).take 32) ++
    (List.range ((d.drop (32 * c)).take 32).length).flatMap fun i => s.eepromSent (32 * c + i) (d.getD (32 * c + i) 0)

theorem State.eepromEvents_chunks (s : State) (d : List Byte) :
    s.eepromEvents d = (List.range ((d.length + 31) / 32)).flatMap (s.chunkEvents d) := rfl

/-- Data that has come to the end of a chunk: all `len` bytes, or whole chunks of them. -/
abbrev WholeChunks (len : Half) (d : List Byte) : Prop :=
  d.length = len.toNat ∨ d.length % 32 = 0 ∧ d.length ≤ len.toNat

/-- The data of an accepted EEPROM program-page from chunk `c` on (45 R262). -/
theorem wrote_chunks (s₀ : State) (len : Half) (d : List Byte) (hd : WholeChunks len d) :
    ∀ (m c : Nat) (s : State), s.cfg = s₀.cfg → s.address = s₀.address → s.cfg.WellFormed → Memory.wf s.buffer →
      s.overCapacity len = false → c + m = (d.length + 31) / 32 →
      s.got = pageHeader s.cfg.opcodes.progPage len s.cfg.memtagEeprom ++ d.take (32 * c) →
      Wrote s ((d.drop (32 * c)).foldl receiveByte s) ((List.range' c m).flatMap (s₀.chunkEvents d))
        (d.length - 32 * c) (min d.length 32)
  | 0, c, s, _, _, _, hw, _, hm, _ => by
    have : d.drop (32 * c) = [] := List.drop_eq_nil_of_le (by omega)
    rw [this, show d.length - 32 * c = 0 by omega]
    exact ⟨[], Did.refl s, rfl, ⟨rfl, rfl, rfl⟩, hw, fun _ _ => rfl⟩
  | m + 1, c, s, hc, had, hcw, hw, ha, hm, hg => by
    have hlt : 32 * c < d.length := by omega
    have hpre : (d.take (32 * c)).length = 32 * c := by rw [List.length_take]; omega
    have hlen : ((d.drop (32 * c)).take 32).length = min 32 (d.length - 32 * c) := by
      rw [List.length_take, List.length_drop]
    have hone := wrote_chunk len (d.take (32 * c)) ((d.drop (32 * c)).take 32) s hcw hw ha hg (by rw [hpre]; omega)
      (by intro h; rw [h] at hlen; simp only [List.length_nil] at hlen; omega) (by omega)
      (by rw [hpre]; omega)
    generalize ht : ((d.drop (32 * c)).take 32).foldl receiveByte s = t at hone
    have hgot : t.got = pageHeader s.cfg.opcodes.progPage len s.cfg.memtagEeprom ++ d.take (32 * (c + 1)) := by
      rw [← ht, receiveAll_got, hg, List.append_assoc, show 32 * (c + 1) = 32 * c + 32 by omega, List.take_add]
    obtain ⟨es, h1, h2, h3, h4, h5⟩ := hone
    have hnext := wrote_chunks s₀ len d hd m (c + 1) t (h1.cfg.trans hc) (h3.1.trans had) (h1.cfg ▸ hcw) h4
      (by rw [State.overCapacity, h1.params]; exact ha) (by omega) (by rw [h1.cfg]; exact hgot)
    have hsplit : d.drop (32 * c) = (d.drop (32 * c)).take 32 ++ d.drop (32 * (c + 1)) := by
      rw [show 32 * (c + 1) = 32 * c + 32 by omega, ← List.drop_drop, List.take_append_drop]
    rw [hsplit, List.foldl_append, ht, List.range'_succ, List.flatMap_cons,
      show d.length - 32 * c = ((d.drop (32 * c)).take 32).length + (d.length - 32 * (c + 1)) by rw [hlen]; omega]
    refine Wrote.trans ⟨es, h1, ?_, h3, h4, fun i hi => h5 i (by rw [hlen]; omega)⟩ hnext
    rw [h2, State.chunkEvents, hpre]
    congr 1
    refine List.flatMap_congr fun i hi => ?_
    have hi : i < ((d.drop (32 * c)).take 32).length := List.mem_range.mp hi
    have : ((d.drop (32 * c)).take 32).getD i 0 = d.getD (32 * c + i) 0 := by
      simp only [List.getD_eq_getElem?_getD, List.getElem?_take, List.getElem?_drop]
      rw [if_pos (by omega)]
    rw [this, State.eepromSent, State.eepromSent, hc, had]

/-- An accepted EEPROM program-page, read to the end of a chunk (45 R260, R263). -/
theorem wrote_receive_eeprom (s : State) (len : Half) (d : List Byte) (hs : s.Ready) (ha : len ≤ s.params.eepromSize)
    (hd : WholeChunks len d) :
    Wrote s (receive (pageHeader s.cfg.opcodes.progPage len s.cfg.memtagEeprom ++ d) s)
      (reads (pageHeader s.cfg.opcodes.progPage len s.cfg.memtagEeprom) ++ s.eepromEvents d) d.length
      (min d.length 32) := by
  obtain ⟨hc, hg, hw⟩ := hs
  have hover : s.overCapacity len = false := by
    rw [State.overCapacity, decide_eq_false_iff_not]
    exact BitVec.not_lt.mpr ha
  rw [receive_pageHeader s len _ d hg hc, hover]
  simp only [Bool.false_eq_true, and_false, if_false]
  have := wrote_chunks s len d hd ((d.length + 31) / 32) 0 { s with
    got := pageHeader s.cfg.opcodes.progPage len s.cfg.memtagEeprom
    history := s.history ++ reads (pageHeader s.cfg.opcodes.progPage len s.cfg.memtagEeprom) } rfl rfl hc hw hover
    (by omega) (by simp)
  rw [← List.range_eq_range', Nat.mul_zero, List.drop_zero, Nat.sub_zero] at this
  have h0 : Wrote s { s with
      got := pageHeader s.cfg.opcodes.progPage len s.cfg.memtagEeprom
      history := s.history ++ reads (pageHeader s.cfg.opcodes.progPage len s.cfg.memtagEeprom) }
      (reads (pageHeader s.cfg.opcodes.progPage len s.cfg.memtagEeprom)) 0 (min d.length 32) :=
    ⟨_, ⟨rfl, rfl, rfl, rfl, rfl, rfl, rfl, rfl, rfl, rfl, BusLinesOnly.same s⟩, sent_reads _, ⟨rfl, rfl, rfl⟩, hw,
      fun _ _ => rfl⟩
  have := h0.trans this
  rwa [Nat.zero_add] at this

end Sys2Proof.Machine
end

