-- ==== Sys2Proof/Laws/Readers.lean ====
section
/-! SUPPORT. What the memory reader and the signature reader do, as event lists. -/

namespace Sys2Proof.Machine

variable {s t u : State} {es fs : List Event} {k l : Nat}

/-- Some answers are possible. -/
theorem State.answers_listed (s : State) : s.Answers fun k => s.targetIn.getD k 0 := by
  intro k a h
  simp [h]

/-- Answers one transaction on, with a possible answer to it before them. -/
def consAnswer (a : Word) (ans : Nat → Word) : Nat → Word
  | 0 => a
  | k + 1 => ans k

/-- `a` is a possible answer to the next transaction (41 R172). -/
abbrev State.MayAnswer (s : State) (a : Word) : Prop := ∀ a', s.targetIn[0]? = some a' → a = a'

theorem State.mayAnswer_nextAnswer (s : State) (w : Word) : s.MayAnswer (s.nextAnswer w) := by
  intro a h
  simp [State.nextAnswer, List.headD_eq_head?_getD, List.head?_eq_getElem?, h]

theorem State.Answers.cons {s t : State} {a : Word} {ans : Nat → Word} (h : s.MayAnswer a)
    (ht : t.targetIn = s.targetIn.drop 1) (h' : t.Answers ans) : s.Answers (consAnswer a ans)
  | 0, _, hk => h _ hk
  | k + 1, _, hk => h' k _ (by rw [ht, List.getElem?_drop, Nat.add_comm]; exact hk)

/-- A possible answer to the next transaction begins a possible run of answers. -/
theorem State.MayAnswer.answers {s : State} {a : Word} (h : s.MayAnswer a) :
    s.Answers (consAnswer a fun k => (s.targetIn.drop 1).getD k 0) :=
  State.Answers.cons (t := { s with targetIn := s.targetIn.drop 1 }) h rfl (State.answers_listed _)

@[simp] theorem consAnswer_zero (a : Word) (ans : Nat → Word) : consAnswer a ans 0 = a := rfl

/-- From `s` to `t` a reader has done `es`, with `k` transactions: the record is as it was but for `address`. -/
structure Read (s t : State) (es : List Event) (k : Nat) : Prop where
  did : Did s t es k
  draws : t.draws = s.draws + k
  buffer : t.buffer = s.buffer
  got : t.got = s.got
  lampOn : t.lampOn = s.lampOn
  progressCounter : t.progressCounter = s.progressCounter

theorem Read.refl (s : State) : Read s s [] 0 := ⟨Did.refl s, rfl, rfl, rfl, rfl, rfl⟩

theorem Read.trans (h : Read s t es k) (h' : Read t u fs l) : Read s u (es ++ fs) (k + l) :=
  ⟨h.did.trans h'.did, by rw [h'.draws, h.draws, Nat.add_assoc], h'.buffer.trans h.buffer, h'.got.trans h.got,
    h'.lampOn.trans h.lampOn, h'.progressCounter.trans h.progressCounter⟩

theorem read_hostWrite (b : Byte) (s : State) : Read s (s.hostWrite b) [.hostWrite b] 0 :=
  ⟨did_hostWrite b s, rfl, rfl, rfl, rfl, rfl⟩

/-- A transaction whose answer goes to the host (46 R284). -/
theorem read_forward (w : Word) (s : State) :
    ∃ a, s.MayAnswer a ∧ Read s (forward w s) [.bus w a, .hostWrite (byteOf a 3)] 1 := by
  have h : forward w s = (s.busXfer w).hostWrite (byteOf (s.nextAnswer w) 3) := by simp [forward, State.busXfer]
  rw [h]
  exact ⟨_, s.mayAnswer_nextAnswer w, (did_busXfer w s).trans (did_hostWrite _ _), rfl, rfl, rfl, rfl, rfl⟩

@[simp] theorem forward_address (w : Word) (s : State) : (forward w s).address = s.address := rfl
@[simp] theorem forward_cfg (w : Word) (s : State) : (forward w s).cfg = s.cfg := rfl

/-- One word of the flash reader (46 R280). -/
theorem read_readWord (s : State) : ∃ a b, s.MayAnswer a ∧ (∀ a', s.targetIn[1]? = some a' → b = a') ∧
    Read s (readWord s)
      [.bus (busWord s.cfg.bus.readLo s.address 0) a, .hostWrite (byteOf a 3),
        .bus (busWord s.cfg.bus.readHi s.address 0) b, .hostWrite (byteOf b 3)] 2 := by
  obtain ⟨a, ha, h1⟩ := read_forward (busWord s.cfg.bus.readLo s.address 0) s
  obtain ⟨b, hb, h2⟩ :=
    read_forward (busWord s.cfg.bus.readHi s.address 0) (forward (busWord s.cfg.bus.readLo s.address 0) s)
  have h := h1.trans h2
  refine ⟨a, b, ha, fun a' h' => hb a' ?_, h.did.trans (did_address _ _), h.draws, h.buffer, h.got, h.lampOn,
    h.progressCounter⟩
  rw [h1.did.targetIn, List.getElem?_drop]
  exact h'

@[simp] theorem readWord_address (s : State) : (readWord s).address = s.address + 1 := rfl
@[simp] theorem readWord_cfg (s : State) : (readWord s).cfg = s.cfg := rfl

/-- The flash reader (46 R280). -/
theorem read_flash : ∀ (n : Nat) (s : State), ∃ ans, s.Answers ans ∧
    Read s (readWords n s) (s.flashReadEvents ans n) (2 * n) ∧
      (readWords n s).address = s.address + BitVec.ofNat 16 n
  | 0, s => ⟨_, s.answers_listed, Read.refl s, by simp [readWords]⟩
  | n + 1, s => by
    obtain ⟨a, b, ha, hb, h⟩ := read_readWord s
    obtain ⟨ans, hans, h', had⟩ := read_flash n (readWord s)
    refine ⟨consAnswer a (consAnswer b ans), ?_, ?_, ?_⟩
    · intro k a' hk
      match k with
      | 0 => exact ha a' hk
      | 1 => exact hb a' hk
      | k + 2 => exact hans k a' (by rw [h.did.targetIn, List.getElem?_drop, Nat.add_comm]; exact hk)
    · have hw : ∀ k, (readWord s).wordAddr k = s.wordAddr (k + 1) := fun k => by
        rw [State.wordAddr, State.wordAddr, readWord_address, BitVec.add_assoc, Nat.add_comm k, BitVec.ofNat_add]; rfl
      have := h.trans h'
      rw [State.flashReadEvents, show 2 + 2 * n = 2 * (n + 1) by omega] at this
      simp only [hw, readWord_cfg] at this
      rw [State.flashReadEvents, List.range_succ_eq_map, List.flatMap_cons, List.flatMap_map]
      simpa [State.wordAddr, Nat.mul_add, consAnswer, readWords] using this
    · rw [readWords, had, readWord_address, BitVec.add_assoc, Nat.add_comm n, BitVec.ofNat_add]; rfl

/-- The events of an EEPROM read of `n` bytes from byte address `e` (46 R281). -/
def readsFrom (cfg : Config) (ans : Nat → Word) (e : Half) (n : Nat) : List Event :=
  (List.range n).flatMap fun j =>
    [.bus (busWord cfg.bus.eeRead (e + BitVec.ofNat 16 j) cfg.bus.eeReadFill) (ans j), .hostWrite (byteOf (ans j) 3)]

/-- The loop of the EEPROM reader. -/
theorem read_readEeprom : ∀ (n : Nat) (e : Half) (s : State), ∃ ans, s.Answers ans ∧
    Read s (readEeprom n e s) (readsFrom s.cfg ans e n) n ∧ (readEeprom n e s).address = s.address
  | 0, _, s => ⟨_, s.answers_listed, Read.refl s, rfl⟩
  | n + 1, e, s => by
    obtain ⟨a, ha, h⟩ := read_forward (busWord s.cfg.bus.eeRead e s.cfg.bus.eeReadFill) s
    obtain ⟨ans, hans, h', had⟩ :=
      read_readEeprom n (e + 1) (forward (busWord s.cfg.bus.eeRead e s.cfg.bus.eeReadFill) s)
    refine ⟨consAnswer a ans, hans.cons ha h.did.targetIn, ?_, had⟩
    have hw : ∀ k : Nat, e + 1 + BitVec.ofNat 16 k = e + BitVec.ofNat 16 (k + 1) := fun k => by
      rw [BitVec.add_assoc, Nat.add_comm k, BitVec.ofNat_add]; rfl
    have := h.trans h'
    rw [readsFrom, Nat.add_comm 1] at this
    simp only [hw, forward_cfg] at this
    rw [readsFrom, List.range_succ_eq_map, List.flatMap_cons, List.flatMap_map]
    simpa [consAnswer, readEeprom] using this

/-- The EEPROM reader (46 R281). -/
theorem read_eeprom (s : State) (n : Nat) : ∃ ans, s.Answers ans ∧
    Read s (readEeprom n (s.eepromAddr 0) s) (s.eepromReadEvents ans n) n ∧
      (readEeprom n (s.eepromAddr 0) s).address = s.address := by
  have h := read_readEeprom n (s.eepromAddr 0) s
  have he : s.eepromAddr 0 = 2 * s.address := by simp [State.eepromAddr]
  simpa only [he, readsFrom, State.eepromReadEvents] using h

/-- The events of a signature read (46 R283). -/
def signatureEvents (cfg : Config) (ans : Nat → Word) : List Event :=
  [.bus (word4 cfg.bus.readSig 0 0 0) (ans 0), .hostWrite (byteOf (ans 0) 3),
    .bus (word4 cfg.bus.readSig 0 1 0) (ans 1), .hostWrite (byteOf (ans 1) 3),
    .bus (word4 cfg.bus.readSig 0 2 0) (ans 2), .hostWrite (byteOf (ans 2) 3)]

/-- The signature reader (46 R283). -/
theorem read_signature (s : State) : ∃ ans, s.Answers ans ∧
    Read s (readSigByte 2 (readSigByte 1 (readSigByte 0 s))) (signatureEvents s.cfg ans) 3 := by
  obtain ⟨a, ha, h0⟩ := read_forward (word4 s.cfg.bus.readSig 0 0 0) s
  obtain ⟨b, hb, h1⟩ := read_forward (word4 s.cfg.bus.readSig 0 1 0) (readSigByte 0 s)
  obtain ⟨c, hc, h2⟩ := read_forward (word4 s.cfg.bus.readSig 0 2 0) (readSigByte 1 (readSigByte 0 s))
  exact ⟨consAnswer a (consAnswer b (consAnswer c _)),
    .cons ha h0.did.targetIn (.cons hb h1.did.targetIn (.cons hc h2.did.targetIn (State.answers_listed _))),
    (h0.trans h1).trans h2⟩

end Sys2Proof.Machine
end

