-- ==== Sys2Proof/Laws/Frames.lean ====
section
/-! SUPPORT. Frames: what splitting off a frame gives, which headers stop, what the EOP check can answer, and small facts
about histories. -/

namespace Sys2Proof

/-- A payload of the right length, the byte after it and the rest are split apart. -/
theorem splitFrame_payload (n : Nat) (d rest : List Byte) (e : Byte) (k : List Byte → Byte → Instr) (h : d.length = n) :
    splitFrame n (d ++ e :: rest) k = .frame (k d e) rest := by
  subst h
  simp [splitFrame]

/-- A frame that is split off has its payload's length. -/
theorem splitFrame_inv (n : Nat) (bs rest : List Byte) (k : List Byte → Byte → Instr) (i : Instr)
    (h : splitFrame n bs k = .frame i rest) :
    ∃ d e, d.length = n ∧ bs = d ++ e :: rest ∧ i = k d e := by
  unfold splitFrame at h
  split at h
  · next e r hd =>
    cases h
    refine ⟨bs.take n, e, ?_, ?_, rfl⟩
    · rw [List.length_take]
      have := congrArg List.length hd
      rw [List.length_drop, List.length_cons] at this
      omega
    · rw [← hd, List.take_append_drop]
  · cases h

/-- How many bytes a frame needs. -/
theorem splitFrame_len (n : Nat) (bs : List Byte) (k : List Byte → Byte → Instr) :
    (splitFrame n bs k = .incomplete ↔ bs.length < n + 1) ∧ ∀ i rest, splitFrame n bs k = .frame i rest → bs.length =
        n + 1 + rest.length := by
  unfold splitFrame
  split
  · next e r hd =>
    have := congrArg List.length hd
    rw [List.length_drop, List.length_cons] at this
    refine ⟨⟨(fun h => by cases h), fun h => by omega⟩, fun i rest h => ?_⟩
    cases h
    omega
  · next hd =>
    have := List.drop_eq_nil_iff.mp hd
    exact ⟨⟨(fun _ => by omega), fun _ => rfl⟩, fun i rest h => by cases h⟩

/-- An EEPROM header never stops. -/
theorem headerStop_eeprom (cfg : Config) (len : Half) (h : cfg.memtagEeprom ≠ cfg.memtagFlash) :
    headerStop cfg len cfg.memtagEeprom = none := by
  simp [headerStop, h]

/-- A flash header of an accepted length does not stop. -/
theorem headerStop_flash (cfg : Config) (len : Half) (h : FlashLength len) : headerStop cfg len cfg.memtagFlash = none := by
  have h2 := h.2
  simp [headerStop, Nat.not_lt.mpr h.1]
  omega

/-- A program-page instruction that the decoder gives is one of the refused headers (60 R306). -/
theorem headerStop_wf (cfg : Config) (ee len : Half) (tag : Byte) (body : Option (List Byte × Byte))
    (h : (Instr.progPage len tag body).WellFormed cfg ee) : ∃ r, headerStop cfg len tag = some r := by
  obtain ⟨-, h1, h2⟩ := h
  unfold headerStop
  split
  · split
    · exact ⟨_, rfl⟩
    · split
      · exact ⟨_, rfl⟩
      · exact absurd ⟨‹_›, by omega, by omega⟩ h2
  · exact ⟨_, rfl⟩

namespace Machine

/-- Behind an EOP check a command that never stops has a next state. -/
theorem checkEop_next (e : Byte) (k : State → State) (s : State) : ∃ t, checkEop e (fun u => .next (k u)) s = .next t := by
  unfold checkEop
  dsimp only
  split <;> exact ⟨_, rfl⟩

/-- The header of read-page is only read. -/
theorem receive_readPage (s : State) (len : Half) (tag : Byte) (hg : s.got = []) (hc : s.cfg.WellFormed) :
    receive (pageHeader s.cfg.opcodes.readPage len tag) s = { s with
      got := pageHeader s.cfg.opcodes.readPage len tag
      history := s.history ++ reads (pageHeader s.cfg.opcodes.readPage len tag) } :=
  receive_quiet s.cfg.opcodes.readPage [hi8 len, lo8 len, tag] s hg (by rw [classify_readPage _ hc]; rfl)
      (by rw [classify_readPage _ hc]; rfl)

/-- A streaming reply about a reader that is one `Read` (46 R284). -/
theorem streamed_reader (s : State) (hs : s.Ready) (bytes : List Byte) (body : State → State)
    (evs : State → (Nat → Word) → List Event) (k : Nat) (a : Half)
    (hb : ∀ u : State, ∃ ans, u.Answers ans ∧ Read u (body u) (evs u ans) k ∧ (body u).address = u.address + a)
    (he : ∀ (u v : State) ans, u.cfg = v.cfg → u.address = v.address → evs u ans = evs v ans) :
    ∃ ans t, s.Answers ans ∧
      streamed body (({ s with got := bytes, history := s.history ++ reads bytes } : State).hostRead eopByte) = t ∧
      s.BusLinesOnly t.lines ∧
      t = { s with
        address := s.address + a
        history := s.history ++ reads (bytes ++ [eopByte]) ++ writes [insync] ++ evs s ans ++ writes [okByte]
        targetIn := s.targetIn.drop k
        busResult := t.busResult
        wave := t.wave
        lines := t.lines
        draws := t.draws } := by
  obtain ⟨hc, hg, hw⟩ := hs
  unfold streamed
  generalize hu : (State.hostWrite insync _) = u
  obtain ⟨ans, hans, h, ha⟩ := hb u
  have h' := h.did.eq
  have hev : evs u ans = evs s ans := by rw [← hu]; exact he _ _ _ rfl rfl
  refine ⟨ans, _, ?_, rfl, ?_, ?_⟩
  · rw [← hu] at hans
    exact hans
  · have hl := h.did.lines
    rw [← hu] at hl ⊢
    exact hl
  · rw [h', h.buffer, h.lampOn, h.progressCounter, ha, hev, ← hu]
    simp [State.hostWrite, State.emit, State.endCommand, State.hostRead, hg, reads_append]

/-- Universal sends the four bytes it has buffered. -/
theorem universalEffect_filled (s t : State) (b0 b1 b2 b3 : Byte) (h : s.Filled [b0, b1, b2, b3] t.buffer) :
    universalEffect t = t.busXfer (word4 b0 b1 b2 b3) := by
  unfold universalEffect
  rw [State.bufferAt_filled s t _ h 0 (by simp) (by simp), State.bufferAt_filled s t _ h 1 (by simp) (by simp),
    State.bufferAt_filled s t _ h 2 (by simp) (by simp), State.bufferAt_filled s t _ h 3 (by simp) (by simp)]
  rfl

/-- What writes no reply byte leaves the reply stream. -/
theorem acts_replies {A : Act → Prop} {s t : State} (hw : ¬ A .write) (h : Acts A s t) : t.replies = s.replies := by
  refine h.induct (fun s t => t.replies = s.replies) (fun _ => rfl) (fun _ _ _ h1 h2 => h2.trans h1) ?_ ?_ ?_ ?_ ?_ ?_
      ?_ ?_ ?_ ?_ ?_ ?_ ?_ <;> intros <;>
   first | contradiction | simp [State.replies, writtenBytes_append, writtenBytes, entryEvents, entryLead, exitEvents]

theorem commitCount_append (cfg : Config) (es fs : List Event) :
    commitCount cfg (es ++ fs) = commitCount cfg es + commitCount cfg fs := by
  simp [commitCount, busWords_append]

theorem commitCount_sent (cfg : Config) (es : List Event) : commitCount cfg (es.map Event.sent) = commitCount cfg es := by
  simp [commitCount, busWords_sent]

end Machine

end Sys2Proof
end

