-- ==== Sys2Proof/Laws/PerInstr.lean ====
section
/-! SUPPORT. What holds of every instruction as syntax, instruction by instruction. -/

namespace Sys2Proof.Laws.F

/-- A transaction is its word's four bytes, and a host command is a byte or more and no word (30 R92, R95). -/
def Statement (i : Instr) : Prop :=
  ∀ cfg : Config,
    if i.isBus then encode cfg i = wordBytes (encodeBus cfg i) else encode cfg i ≠ [] ∧ encodeBus cfg i = 0

theorem signOn : ∀ eop, Statement (.signOn eop) := fun _ _ => ⟨List.cons_ne_nil _ _, rfl⟩
theorem getSync : ∀ eop, Statement (.getSync eop) := fun _ _ => ⟨List.cons_ne_nil _ _, rfl⟩
theorem getParam : ∀ sub eop, Statement (.getParam sub eop) := fun _ _ _ => ⟨List.cons_ne_nil _ _, rfl⟩
theorem setParams : ∀ p eop, Statement (.setParams p eop) := fun _ _ _ => ⟨List.cons_ne_nil _ _, rfl⟩
theorem setExt : ∀ x eop, Statement (.setExt x eop) := fun _ _ _ => ⟨List.cons_ne_nil _ _, rfl⟩
theorem enterPmode : ∀ eop, Statement (.enterPmode eop) := fun _ _ => ⟨List.cons_ne_nil _ _, rfl⟩
theorem leavePmode : ∀ eop, Statement (.leavePmode eop) := fun _ _ => ⟨List.cons_ne_nil _ _, rfl⟩
theorem setAddr : ∀ lo hi eop, Statement (.setAddr lo hi eop) := fun _ _ _ _ => ⟨List.cons_ne_nil _ _, rfl⟩
theorem universal : ∀ b0 b1 b2 b3 eop, Statement (.universal b0 b1 b2 b3 eop) := fun _ _ _ _ _ _ => ⟨List.cons_ne_nil _ _, rfl⟩
theorem progFlash : ∀ payload eop, Statement (.progFlash payload eop) := fun _ _ _ => ⟨List.cons_ne_nil _ _, rfl⟩
theorem progData : ∀ payload eop, Statement (.progData payload eop) := fun _ _ _ => ⟨List.cons_ne_nil _ _, rfl⟩
theorem progPage : ∀ len tag body, Statement (.progPage len tag body) := fun _ _ _ _ => ⟨List.cons_ne_nil _ _, rfl⟩
theorem progPageF : ∀ len data eop, Statement (.progPageF len data eop) := fun _ _ _ _ => ⟨List.cons_ne_nil _ _, rfl⟩
theorem progPageE : ∀ len data eop, Statement (.progPageE len data eop) := fun _ _ _ _ => ⟨List.cons_ne_nil _ _, rfl⟩
theorem readPage : ∀ len tag eop, Statement (.readPage len tag eop) := fun _ _ _ _ => ⟨List.cons_ne_nil _ _, rfl⟩
theorem readPageF : ∀ len eop, Statement (.readPageF len eop) := fun _ _ _ => ⟨List.cons_ne_nil _ _, rfl⟩
theorem readPageE : ∀ len eop, Statement (.readPageE len eop) := fun _ _ _ => ⟨List.cons_ne_nil _ _, rfl⟩
theorem readSig : ∀ eop, Statement (.readSig eop) := fun _ _ => ⟨List.cons_ne_nil _ _, rfl⟩
theorem bareEop : Statement .bareEop := fun _ => ⟨List.cons_ne_nil _ _, rfl⟩
theorem unknownOpcode : ∀ op b, Statement (.unknownOpcode op b) := fun _ _ _ => ⟨List.cons_ne_nil _ _, rfl⟩
theorem busProgEnable : Statement .busProgEnable := fun _ => rfl
theorem busLoadLo : ∀ a d, Statement (.busLoadLo a d) := fun _ _ _ => rfl
theorem busLoadHi : ∀ a d, Statement (.busLoadHi a d) := fun _ _ _ => rfl
theorem busWritePage : ∀ p, Statement (.busWritePage p) := fun _ _ => rfl
theorem busReadLo : ∀ a, Statement (.busReadLo a) := fun _ _ => rfl
theorem busReadHi : ∀ a, Statement (.busReadHi a) := fun _ _ => rfl
theorem busEeWrite : ∀ e d, Statement (.busEeWrite e d) := fun _ _ _ => rfl
theorem busEeRead : ∀ e, Statement (.busEeRead e) := fun _ _ => rfl
theorem busReadSig : ∀ i, Statement (.busReadSig i) := fun _ _ => rfl
theorem busUniversal : ∀ b0 b1 b2 b3, Statement (.busUniversal b0 b1 b2 b3) := fun _ _ _ _ _ => rfl

end Sys2Proof.Laws.F
end

