-- ==== Sys2Proof/Laws/Resume.lean ====
section
/-! SUPPORT. Holding inside a command and taking it up again (40 R149): the bytes to come do not matter to what is done with
the bytes that came, and a command resumed ends as if it had not been interrupted. -/

namespace Sys2Proof

/-- Only program-page's frames depend on the EEPROM size (45 R266). -/
theorem decode_other_ee (cfg : Config) (ee ee' : Half) (bs : List Byte) (h : classify cfg (bs.headD 0) ≠ .progPage) :
    decode cfg ee bs = decode cfg ee' bs := by
  cases bs with
  | nil => rfl
  | cons op bs =>
    simp only [List.headD_cons] at h
    simp only [decode]
    split <;> first | rfl | contradiction

namespace Machine

/-- Only set-parameters writes the parameters as its bytes come. -/
theorem hold_params (l : List Byte) (s : State) (h : classify s.cfg ((s.got ++ l).headD 0) ≠ .setParams) :
    (l.foldl receiveByte s).params = s.params := by
  have ha : Acts (fun a => a ≠ .params) s (l.foldl receiveByte s) := by
    refine acts_receiveAll l s (by simp) ?_
    rintro a ha rfl
    revert ha
    revert h
    cases classify _ _ <;> simp [Command.receives]
  refine ha.induct (fun s t => t.params = s.params) (fun s => rfl) (fun s t u h1 h2 => h2.trans h1) ?_ ?_ ?_ ?_ ?_ ?_
      (fun h => absurd rfl h) ?_ ?_ ?_ ?_ ?_ ?_ <;> intros <;> simp

/-- Reading on does not change how the command in progress is decoded. -/
theorem ee_eq (l : List Byte) (s : State) :
    decode s.cfg (l.foldl receiveByte s).params.eepromSize = decode s.cfg s.params.eepromSize ∨
      classify s.cfg ((s.got ++ l).headD 0) = .setParams := by
  by_cases h : classify s.cfg ((s.got ++ l).headD 0) = .setParams
  · exact .inr h
  · exact .inl (by rw [hold_params l s h])

/-- A framing error ends the command. -/
theorem checkEop_got {e : Byte} {k : State → Result} {s t : State} (hk : ∀ u v, k u = .next v → v.got = [])
    (h : checkEop e k s = .next t) : t.got = [] := by
  rcases checkEop_cases e k s with ⟨he, h'⟩ | ⟨he, h'⟩ <;> rw [h'] at h
  · exact hk _ _ h
  · cases h; rfl

/-- A command that is not refused ends: the next byte is an opcode (40 R130). -/
theorem exec_got (i : Instr) (s t : State) (cfg ee) (hcfg : s.cfg = cfg) (hi : i.WellFormed cfg ee)
    (hb : i.isBus = false) (h : exec i s = .next t) : t.got = [] := by
  subst hcfg
  have hfr : ∀ (len : Half) (u v : State), flashReadPage len u = .next v → v.got = [] := by
    intro len u v h
    unfold flashReadPage at h
    split at h
    · cases h
    · injection h with h; rw [← h]; rfl
  have hans : ∀ (e : Byte) (r : State → List Byte) (u v : State), answered e r u = .next v → v.got = [] := by
    intro e r u v h
    exact checkEop_got (fun a b hab => by injection hab with hab; rw [← hab]; rfl) h
  have hfra :
      ∀ (e : Byte) (f : State → State) (r : State → List Byte) (u v : State), framed e f r u = .next v → v.got = [] := by
    intro e f r u v h
    exact checkEop_got (fun a b hab => by injection hab with hab; rw [← hab]; rfl) h
  cases i
  case progPage len tag body =>
    simp only [exec, execProgPage] at h
    obtain ⟨r, hr⟩ := headerStop_wf _ _ _ _ _ hi
    rw [hr] at h
    cases h
  case progPageF len d e =>
    simp only [exec, execProgPageF, flashProgramPage] at h
    split at h
    · cases h
    · exact checkEop_got (fun u v h => by injection h with h; rw [← h]; rfl) h
  case progPageE len d e =>
    simp only [exec, execProgPageE, eepromProgramPage] at h
    exact checkEop_got (fun u v h => by injection h with h; rw [← h]; split <;> rfl) h
  case readPage len tag e =>
    simp only [exec, execReadPage] at h
    refine checkEop_got (fun u v h => ?_) h
    split at h
    · exact hfr _ _ _ h
    · split at h
      · injection h with h; rw [← h]; rfl
      · cases h
  case readPageF len e =>
    simp only [exec, execReadPageF] at h
    exact checkEop_got (hfr len) h
  case readPageE len e =>
    simp only [exec, execReadPageE] at h
    exact checkEop_got (fun u v h => by injection h with h; rw [← h]; rfl) h
  case readSig e =>
    simp only [exec, execReadSig] at h
    exact checkEop_got (fun u v h => by injection h with h; rw [← h]; rfl) h
  case bareEop =>
    simp only [exec, execBareEop] at h
    injection h with h; rw [← h]; rfl
  case unknownOpcode op b =>
    simp only [exec, execUnknownOpcode] at h
    injection h with h; rw [← h]
    split <;> rfl
  case signOn => simp only [exec, execSignOn] at h; exact hfra _ _ _ _ _ h
  case getSync => simp only [exec, execGetSync] at h; exact hans _ _ _ _ h
  case getParam => simp only [exec, execGetParam] at h; exact hans _ _ _ _ h
  case setParams => simp only [exec, execSetParams] at h; exact hfra _ _ _ _ _ h
  case setExt => simp only [exec, execSetExt] at h; exact hans _ _ _ _ h
  case enterPmode => simp only [exec, execEnterPmode] at h; exact hfra _ _ _ _ _ h
  case leavePmode => simp only [exec, execLeavePmode] at h; exact hfra _ _ _ _ _ h
  case setAddr => simp only [exec, execSetAddr] at h; exact hfra _ _ _ _ _ h
  case universal => simp only [exec, execUniversal] at h; exact hfra _ _ _ _ _ h
  case progFlash => simp only [exec, execProgFlash] at h; exact hans _ _ _ _ h
  case progData => simp only [exec, execProgData] at h; exact hans _ _ _ _ h
  all_goals cases hb

/-- What a held command has read is not read again. -/
theorem receive_resume (body l : List Byte) (s : State) (h : s.got ++ l <+: body) :
    receive body (l.foldl receiveByte s) = receive body s := by
  obtain ⟨m, rfl⟩ := h
  unfold receive
  rw [receiveAll_got, List.drop_left, List.append_assoc, List.drop_left, List.foldl_append]

/-- A state with other bytes to come. -/
def withIn (h : List Byte) (s : State) : State := { s with hostIn := h }

theorem writeEepromBytes_in (h : List Byte) :
    ∀ n x e s, writeEepromBytes n x e (withIn h s) = withIn h (writeEepromBytes n x e s)
  | 0, _, _, _ => rfl
  | n + 1, x, e, s => writeEepromBytes_in h n (x + 1) (e + 1) (writeEepromByte e (s.bufferAt x) s)

theorem early_in (h : List Byte) (f : State → State) (hf : ∀ s, f (withIn h s) = withIn h (f s)) (s : State) :
    early f (withIn h s) = withIn h (early f s) := by
  unfold early
  rw [hf]
  by_cases ho : s.cfg.eopOrder = .legacy
  · rw [if_pos ho, if_pos (by exact ho)]
  · rw [if_neg ho, if_neg (by exact ho)]

theorem enter_in (h : List Byte) (s : State) : enterEffect (withIn h s) = withIn h (enterEffect s) := by
  unfold enterEffect
  by_cases ho : s.mode = .programming
  · rw [if_pos ho, if_pos (by exact ho)]
  · rw [if_neg ho, if_neg (by exact ho)]
    rw [entrySequence_eq, entrySequence_eq]
    rfl

theorem afterOpcode_in (h : List Byte) (u : State) (b : Byte) : afterOpcode b (withIn h u) = withIn h (afterOpcode b u) := by
  have hc : (withIn h u).cfg = u.cfg := rfl
  unfold afterOpcode
  rw [hc]
  cases classify u.cfg b <;> dsimp only
  case signOn => exact early_in h clearErrors (fun _ => rfl) u
  case enter => exact early_in h _ (enter_in h) u
  case leave => exact early_in h _ (fun u => by rw [exitSequence_eq, exitSequence_eq]; rfl) u
  case unknown => rfl

theorem afterPageByte_in (h : List Byte) (pay : List Byte) (u : State) (b : Byte) :
    afterPageByte pay b (withIn h u) = withIn h (afterPageByte pay b u) := by
  have hc : (withIn h u).cfg = u.cfg := rfl
  have ho : ∀ l, (withIn h u).overCapacity l = u.overCapacity l := fun _ => rfl
  unfold afterPageByte
  split
  · rw [hc, ho]; split <;> rfl
  · rw [hc, ho]
    split
    · rfl
    · split
      · rfl
      · unfold afterEepromByte
        dsimp only
        split
        · exact writeEepromBytes_in h _ _ _ (u.fillAt _ b)
        · rfl
  · rfl

theorem afterPayload_in (h : List Byte) (op : Byte) (pay : List Byte) (u : State) (b : Byte) :
    afterPayload op pay b (withIn h u) = withIn h (afterPayload op pay b u) := by
  have hc : (withIn h u).cfg = u.cfg := rfl
  have hf : ∀ x v, (withIn h u).fillAt x v = withIn h (u.fillAt x v) := fun _ _ => rfl
  unfold afterPayload
  rw [hc]
  cases classify u.cfg op <;> dsimp only
  case setParams =>
    rw [hf]
    split
    · exact early_in h decodeParameters (fun _ => rfl) _
    · rfl
  case setExt => rfl
  case universal =>
    rw [hf]
    split
    · exact early_in h universalEffect (fun _ => rfl) _
    · rfl
  case setAddr =>
    split
    · exact early_in h (setAddress _ b) (fun _ => rfl) _
    · rfl
  case progPage => exact afterPageByte_in h pay u b

theorem receiveByte_in (h : List Byte) (s : State) (b : Byte) : receiveByte (withIn h s) b = withIn h (receiveByte s b) := by
  have hg : (withIn h s).got = s.got := rfl
  have hr : (withIn h s).hostRead b = withIn h (s.hostRead b) := rfl
  unfold receiveByte
  rw [hg, hr]
  split
  · exact afterOpcode_in h _ b
  · exact afterPayload_in h _ _ _ b

/-- Reading given bytes does not look at the bytes to come. -/
theorem foldl_in (h : List Byte) (l : List Byte) (s : State) :
    l.foldl receiveByte (withIn h s) = withIn h (l.foldl receiveByte s) := by
  induction l generalizing s with
  | nil => rfl
  | cons b l ih => rw [List.foldl_cons, receiveByte_in, ih, List.foldl_cons]

/-- What is read of a frame that is not whole lies before its last byte. -/
theorem strict_prefix {l body : List Byte} {e : Byte} {X : List Byte} (hX : X = body ++ [e]) (h : l <+: X) (hne : l ≠ X) :
    l <+: body := by
  subst hX
  rcases List.prefix_concat_iff.mp h with h | h
  · exact absurd h hne
  · exact h

/-- A command taken up in the middle ends as the command taken up at its start. -/
theorem exec_resume (i : Instr) (s : State) (l : List Byte) (ee : Half) (hc : s.cfg.WellFormed)
    (hi : i.WellFormed s.cfg ee) (hb : i.isBus = false)
    (hp : s.got ++ l <+: encode s.cfg i) (hne : s.got ++ l ≠ encode s.cfg i) :
        exec i (l.foldl receiveByte s) = exec i s := by
  have hcfg :
      (l.foldl receiveByte s).cfg = s.cfg :=
          (acts_receiveAll (A := fun _ => True) l s trivial (fun _ _ => trivial)).inputs_eq.1
  have key : ∀ body e, encode s.cfg i = body ++ [e] → receive body (l.foldl receiveByte s) = receive body s :=
      fun body e h =>
    receive_resume body l s (strict_prefix h hp hne)
  cases i
  case signOn e => simp only [exec, execSignOn]; rw [hcfg, key _ e rfl]
  case getSync e => simp only [exec, execGetSync]; rw [hcfg, key _ e rfl]
  case getParam sub e => simp only [exec, execGetParam]; rw [hcfg, key _ e rfl]
  case setParams p e => simp only [exec, execSetParams]; rw [hcfg, key _ e rfl]
  case setExt x e => simp only [exec, execSetExt]; rw [hcfg, key _ e rfl]
  case enterPmode e => simp only [exec, execEnterPmode]; rw [hcfg, key _ e rfl]
  case leavePmode e => simp only [exec, execLeavePmode]; rw [hcfg, key _ e rfl]
  case setAddr lo hi e => simp only [exec, execSetAddr]; rw [hcfg, key _ e rfl]
  case universal b0 b1 b2 b3 e => simp only [exec, execUniversal]; rw [hcfg, key _ e rfl]
  case progFlash p e => simp only [exec, execProgFlash]; rw [hcfg, key _ e rfl]
  case progData p e => simp only [exec, execProgData]; rw [hcfg, key _ e rfl]
  case progPage len tag body =>
    simp only [exec, execProgPage]
    rw [hcfg]
    obtain ⟨r, hr⟩ := headerStop_wf _ _ _ _ _ hi
    rw [hr]
  case progPageF len d e =>
    simp only [exec, execProgPageF, flashProgramPage]; rw [hcfg, key _ e (by simp [encode])]
  case progPageE len d e =>
    simp only [exec, execProgPageE, eepromProgramPage]; rw [hcfg, key _ e (by simp [encode])]
    have : (l.foldl receiveByte s).overCapacity len = s.overCapacity len := by
      by_cases he : s.got ++ l = []
      · rw [(List.append_eq_nil_iff.mp he).2]; rfl
      · unfold State.overCapacity
        rw [hold_params l s]
        obtain ⟨m, hm⟩ := hp
        have : (s.got ++ l).headD 0 = s.cfg.opcodes.progPage := by
          cases h : s.got ++ l with
          | nil => exact absurd h he
          | cons a q => rw [h] at hm; exact (List.cons.inj hm).1
        rw [this, classify_progPage _ hc]; simp
    rw [this]
  case readPage len tag e => simp only [exec, execReadPage]; rw [hcfg, key _ e rfl]
  case readPageF len e => simp only [exec, execReadPageF]; rw [hcfg, key _ e rfl]
  case readPageE len e => simp only [exec, execReadPageE]; rw [hcfg, key _ e rfl]
  case readSig e => simp only [exec, execReadSig]; rw [hcfg, key _ e rfl]
  case bareEop =>
    have h0 : s.got ++ l <+: ([] : List Byte) := strict_prefix (e := eopByte) (X := encode s.cfg .bareEop) rfl hp hne
    have : l = [] := by simpa using (List.append_eq_nil_iff.mp (List.prefix_nil.mp h0)).2
    subst this; rfl
  case unknownOpcode op b => simp only [exec, execUnknownOpcode]; rw [key [op] b rfl]
  all_goals cases hb

/-- What counting reads of the state: the parameters of the machine and of the device. -/
theorem State.counted_congr {s t : State} (hc : t.cfg = s.cfg) (hp : t.params = s.params) (bs : List Byte) :
    t.counted bs = s.counted bs := by
  cases s; cases t
  dsimp only at hc hp
  subst hc hp
  rfl

/-- Reading on takes no error back. -/
theorem State.counted_append_le (s : State) (bs cs : List Byte) : s.counted bs ≤ s.counted (bs ++ cs) := by
  cases bs with
  | nil => exact Nat.zero_le _
  | cons op pay =>
    cases hc : classify s.cfg op
    case progPage =>
      match pay with
      | [] => simp [State.counted, hc]
      | [_] => simp [State.counted, hc]
      | [_, _] => simp [State.counted, hc]
      | _ :: _ :: _ :: _ => simp [State.counted, hc]
    all_goals simp [State.counted, hc]

/-- To hold is to read what there is. -/
theorem withIn_hold (s : State) : s.hold = withIn [] (s.hostIn.foldl receiveByte s) := by
  rw [← foldl_in]; rfl

/-- The step where no transaction is handed over. -/
theorem step_eq (s : State) (h : s.busCalls = []) : step s = match s.nextFrame with
    | .frame i rest => exec i { s with hostIn := rest }
    | .incomplete => .next s.hold := by
  unfold step
  split
  · simp_all
  · rfl

end Machine

end Sys2Proof
end

