-- ==== Sys2Proof/Tests/Slice0.lean ====
section
/-! SUPPORT. Small tests: ill-formed terms, words written out from the encoding tables, single steps with the results that
spec/95_test_vectors.md gives (the vector's number is in the comment), and witnesses for the statements' hypotheses. -/

namespace Sys2Proof.Tests

open Sys2Proof.Machine

/-! ### Ill-formed terms -/

theorem test_wf_params : ¬(Instr.setParams (List.replicate 19 0) 0x20).WellFormed defaultConfig 0 := by decide
theorem test_wf_ext : ¬(Instr.setExt [1, 2, 3, 4] 0x20).WellFormed defaultConfig 0 := by decide
theorem test_wf_legacy_flash : ¬(Instr.progFlash [1] 0x20).WellFormed defaultConfig 0 := by decide
theorem test_wf_legacy_data : ¬(Instr.progData [1, 2] 0x20).WellFormed defaultConfig 0 := by decide
theorem test_wf_page_body : ¬(Instr.progPage 2 0x58 (some ([1, 2], 0x20))).WellFormed defaultConfig 0 := by decide
theorem test_wf_page_eeprom : ¬(Instr.progPage 2 0x45 none).WellFormed defaultConfig 0 := by decide
theorem test_wf_page_flash : ¬(Instr.progPage 256 0x46 none).WellFormed defaultConfig 0 := by decide
theorem test_wf_flash_long : ¬(Instr.progPageF 258 (List.replicate 258 0) 0x20).WellFormed defaultConfig 0 := by decide
theorem test_wf_flash_odd : ¬(Instr.progPageF 3 [1, 2, 3] 0x20).WellFormed defaultConfig 0 := by decide
theorem test_wf_flash_data : ¬(Instr.progPageF 4 [1, 2] 0x20).WellFormed defaultConfig 0 := by decide
theorem test_wf_eeprom_data : ¬(Instr.progPageE 3 [1, 2] 0x20).WellFormed defaultConfig 64 := by decide
theorem test_wf_read_tag : ¬(Instr.readPage 2 0x45 0x20).WellFormed defaultConfig 0 := by decide
theorem test_wf_unknown_known : ¬(Instr.unknownOpcode 0x30 0x20).WellFormed defaultConfig 0 := by decide
theorem test_wf_unknown_eop : ¬(Instr.unknownOpcode 0x20 0x20).WellFormed defaultConfig 0 := by decide
theorem test_wf_signature : ¬(Instr.busReadSig 3).WellFormed defaultConfig 0 := by decide
theorem test_wf_raw : ¬(Instr.busUniversal 0x4C 0x00 0x40 0x00).WellFormed defaultConfig 0 := by decide
theorem test_wf_config_opcode :
    ¬Config.WellFormed { defaultConfig with opcodes := { defaultOpcodes with readSig := 0x30 } } := by decide
theorem test_wf_config_eop :
    ¬Config.WellFormed { defaultConfig with opcodes := { defaultOpcodes with readSig := 0x20 } } := by decide
theorem test_wf_config_tags : ¬Config.WellFormed { defaultConfig with memtagEeprom := 0x46 } := by decide
theorem test_bus_distinct :
    let cfg := { defaultConfig with bus := { defaultBusBytes with readHi := 0x20 } }
    cfg.WellFormed ∧ ¬cfg.BusDistinct := by decide
theorem test_wf_default : defaultConfig.WellFormed := by decide

/-! ### Frames written out from 30 R92, R97, and words from 30 R96 -/

/-- The block `B64` of spec/95. -/
def b64 : List Byte :=
  [0x1E, 0x00, 0x00, 0x01, 0x01, 0x01, 0x01, 0x03, 0xFF, 0xFF, 0x00, 0x00, 0x00, 0x40, 0x02, 0x00, 0x00, 0x00, 0x80, 0x00]

/-- What a frame decodes to, and how many bytes are left. -/
def decoded (bs : List Byte) : Option (Instr × Nat) :=
  match decode defaultConfig 512 bs with
  | .frame i rest => some (i, rest.length)
  | .incomplete => none

theorem test_decode_get_sync : decoded [0x31, 0x20] = some (.getSync 0x20, 0) := by decide
theorem test_decode_set_params : decoded (0x42 :: (b64 ++ [0x20])) = some (.setParams b64 0x20, 0) := by decide
theorem test_decode_leave : decoded [0x51, 0x21, 0x30] = some (.leavePmode 0x21, 1) := by decide
theorem test_decode_prog_data : decoded [0x61, 0x12, 0x20] = some (.progData [0x12] 0x20, 0) := by decide
theorem test_decode_read_eeprom : decoded [0x74, 0x01, 0x02, 0x45, 0x20] = some (.readPageE 0x0102 0x20, 0) := by decide
theorem test_decode_read_unknown : decoded [0x74, 0x00, 0x02, 0x58, 0x21] = some (.readPage 2 0x58 0x21, 0) := by decide
theorem test_decode_read_sig : decoded [0x75, 0x20] = some (.readSig 0x20, 0) := by decide
theorem test_decode_page_over : decoded [0x64, 0x01, 0x02, 0x46, 0xAA] = some (.progPage 258 0x46 none, 1) := by decide
theorem test_decode_page_unknown : decoded [0x64, 0x00, 0x02, 0x58] = some (.progPage 2 0x58 none, 0) := by decide
theorem test_decode_page_short : decoded [0x64, 0x00, 0x02, 0x46, 0xAA, 0x55] = none := by decide
theorem test_decode_eeprom_failed :
    decode { defaultConfig with capacityFailConsumes := false } 64 [0x64, 0x00, 0x41, 0x45, 0x20] =
      .frame (.progPageE 65 [] 0x20) [] := by decide
theorem test_word_load_hi : decodeBus defaultConfig 0b01001000000000010010001101010101 = .busLoadHi 0x0123 0x55 := by decide
theorem test_word_read_lo : decodeBus defaultConfig 0b00100000000000000001000000000000 = .busReadLo 0x0010 := by decide
theorem test_word_read_hi : decodeBus defaultConfig 0b00101000000000000001000000000000 = .busReadHi 0x0010 := by decide
theorem test_word_ee_write : decodeBus defaultConfig 0b11000000000000011111111101111111 = .busEeWrite 0x01FF 0x7F := by decide
theorem test_word_sig_out : decodeBus defaultConfig 0x30000300 = .busUniversal 0x30 0x00 0x03 0x00 := by decide
theorem test_word_commit_fill : decodeBus defaultConfig 0x4C000001 = .busUniversal 0x4C 0x00 0x00 0x01 := by decide

/-! ### The table's numbering -/

theorem test_table_signon : decodeTableWord 16 0x2030 = some (.signOn 0x20) := by decide
theorem test_table_addr : decodeTableWord 32 0x4C004000 = some (.busWritePage 0x0040) := by decide
theorem test_table_short : decodeTableWord 8 0x55 = some (.setAddr 0x00 0x00 0x00) := by decide

/-! ### Single steps -/

/-- The state after one step with these bytes at hand. -/
def after (s : State) (bs : List Byte) : State :=
  match step { s with hostIn := bs } with
  | .next t => t
  | .fault _ => s
  | .refused _ => s

/-- The reply of one step, and the error count after it. -/
def reply (s : State) (bs : List Byte) : List Byte × Half := ((after s bs).replies, (after s bs).errorCount)

/-- What one step sends on the bus. -/
def sends (s : State) (bs : List Byte) : List Word := busWords (after s bs).history

/-- The refusal of one step. -/
def refusal (s : State) (bs : List Byte) : Option Refusal :=
  match step { s with hostIn := bs } with
  | .next _ => none
  | .fault _ => none
  | .refused r => some r

/-- A target whose last byte received is listed. -/
def target (bs : List Byte) : List Word := bs.map fun b => word4 0 0 0 b

/-- Five errors counted, and a target to answer. -/
def five : State := { State.reset with errorCount := 5, targetIn := target [0x5A] }

/-- The same with the Legacy EOP order. -/
def legacy : State := { five with cfg := { defaultConfig with eopOrder := .legacy } }

/-- In programming mode at a word address, with a page size and an EEPROM size. -/
def prog (address pageSize eepromSize : Half) : State :=
  { State.reset with
    mode := .programming
    busOn := true
    lines := ⟨⟨.output, .low⟩, ⟨.output, .low⟩, ⟨.output, .low⟩⟩
    address := address
    params := { DeviceParams.zero with pageSize := pageSize, eepromSize := eepromSize } }

/-- L2.1.1. -/
theorem test_sign_on : reply five [0x30, 0x20] = ([0x14, 0x10], 0) := by decide
/-- L2.1.2. -/
theorem test_sign_on_bad : (reply five [0x30, 0x21], reply legacy [0x30, 0x21]) = (([0x15], 6), ([0x15], 1)) := by decide
/-- L2.1.3. -/
theorem test_get_sync : reply five [0x31, 0x20] = ([0x14, 0x41, 0x56, 0x52, 0x20, 0x49, 0x53, 0x50, 0x10], 5) := by decide
/-- L2.1.4. -/
theorem test_get_param : (reply five [0x41, 0x82, 0x20]).1 = [0x14, 0x12, 0x10] := by decide
/-- L2.1.5. -/
theorem test_get_param_default : reply five [0x41, 0x00, 0x20] = ([0x14, 0x00, 0x10], 5) := by decide
/-- L2.3.1. -/
theorem test_set_params : ((after five (0x42 :: (b64 ++ [0x20]))).params, (after five (0x42 :: (b64 ++ [0x20]))).resetActiveHigh) =
    (⟨0x1E, 0, 0, 1, 1, 1, 1, 3, 0xFF, 0, 64, 512, 32768⟩, false) := by decide
/-- L1.10, L2.3.3. -/
theorem test_polarity : ((after five (0x42 :: 0xE0 :: (List.replicate 19 0 ++ [0x20]))).resetActiveHigh,
    (after five (0x42 :: 0xDF :: (List.replicate 19 0 ++ [0x20]))).resetActiveHigh) = (true, false) := by decide
/-- L2.1.6. -/
theorem test_set_ext : reply five [0x45, 1, 2, 3, 4, 5, 0x20] = ([0x14, 0x10], 5) := by decide
/-- L2.4.1, up to the transaction, whose answer and after-state are the target's. -/
theorem test_enter : (after five [0x50, 0x20]).history.map Event.sent =
    [.hostRead 0x50, .hostRead 0x20, .drive .reset .low, .setDir .reset .output, .drive .sck .low, .setDir .sck .output,
      .setDir .mosi .output, .delay 20000, .drive .reset .high, .delay 100, .drive .reset .low, .delay 50000,
      .bus 0xAC530000 0, .hostWrite 0x14, .hostWrite 0x10] := by decide
/-- L2.4.6. -/
theorem test_enter_bad : ((after five [0x50, 0x21]).mode, (after legacy [0x50, 0x21]).mode, reply legacy [0x50, 0x21]) =
    (.idle, .programming, ([0x15], 6)) := by decide
/-- L2.4.3. -/
theorem test_leave : (after (prog 0 64 512) [0x51, 0x20]).history =
    [.hostRead 0x51, .hostRead 0x20, .setDir .mosi .input, .setDir .sck .input, .drive .reset .high, .setDir .reset .input,
      .hostWrite 0x14, .hostWrite 0x10] := by decide
/-- L2.1.21. -/
theorem test_leave_idle : ((after five [0x51, 0x20]).mode, reply five [0x51, 0x20]) = (.ended, ([0x14, 0x10], 5)) := by decide
/-- L2.1.7. -/
theorem test_set_addr : (after five [0x55, 0x34, 0x12, 0x20]).address = 0x1234 := by decide
/-- L2.1.9. -/
theorem test_set_addr_bad : ((after five [0x55, 0x20, 0x00, 0x00]).address, (after legacy [0x55, 0x20, 0x00, 0x00]).address) =
    (0, 0x0020) := by decide
/-- L2.1.10, L2.1.11. -/
theorem test_legacy : (reply five [0x60, 0x12, 0x34, 0x20], reply five [0x61, 0x12, 0x20]) = (([0x14, 0x10], 5), ([0x14, 0x10], 5)) := by
  decide
/-- L2.1.12. -/
theorem test_universal : (reply five [0x56, 0xA0, 0x00, 0x00, 0x00, 0x20], sends five [0x56, 0xA0, 0x00, 0x00, 0x00, 0x20]) =
    (([0x14, 0x5A, 0x10], 5), [0xA0000000]) := by decide
/-- L1.1, row 7. -/
theorem test_universal_bad : (reply five [0x56, 0x30, 0, 0, 0, 0], sends five [0x56, 0x30, 0, 0, 0, 0]) = (([0x15], 6), []) := by decide
/-- L2.1.13. -/
theorem test_bare_eop : (reply State.reset [0x20, 0x30], (after State.reset [0x20, 0x30]).hostIn) = (([0x15], 1), [0x30]) := by decide
/-- L2.1.15, L2.1.16. -/
theorem test_unknown : (reply State.reset [0xFF, 0x41], reply State.reset [0x00, 0x20]) = (([0x15], 1), ([0x14, 0x12], 1)) := by decide
/-- L2.1.18. -/
theorem test_stalled : ((after five [0x41, 0x81]).replies, (after five [0x41, 0x81]).phase) = ([], .inCommand 0x41) := by decide

/-- L2.5.2. -/
theorem test_flash : ((after (prog 0x001E 32 0) [0x64, 0x00, 0x08, 0x46, 1, 2, 3, 4, 5, 6, 7, 8, 0x20]).history.drop 13).map Event.sent =
    [.bus 0x40001E01 0, .bus 0x48001E02 0, .bus 0x40001F03 0, .bus 0x48001F04 0, .bus 0x4C000000 0, .delay 20000,
      .bus 0x40002005 0, .bus 0x48002006 0, .bus 0x40002107 0, .bus 0x48002108 0, .bus 0x4C002000 0, .delay 20000,
      .hostWrite 0x14, .hostWrite 0x10] := by decide
/-- L2.5.4. -/
theorem test_flash_wraps : (sends (prog 0xFFFF 32 0) [0x64, 0x00, 0x04, 0x46, 0x11, 0x22, 0x33, 0x44, 0x20],
      (after (prog 0xFFFF 32 0) [0x64, 0x00, 0x04, 0x46, 0x11, 0x22, 0x33, 0x44, 0x20]).address) =
    ([0x40FFFF11, 0x48FFFF22, 0x4CFFE000, 0x40000033, 0x48000044, 0x4C000000], 1) := by decide
/-- L2.5.5. -/
theorem test_flash_empty : sends (prog 5 64 0) [0x64, 0x00, 0x00, 0x46, 0x20] = [0x4C000000] := by decide
/-- L2.5.9. -/
theorem test_flash_bad : (reply (prog 0 64 0) [0x64, 0x00, 0x04, 0x46, 0xAA, 0x55, 0xAA, 0x55, 0x21],
      sends (prog 0 64 0) [0x64, 0x00, 0x04, 0x46, 0xAA, 0x55, 0xAA, 0x55, 0x21]) = (([0x15], 1), []) := by decide
/-- L2.5.10, L2.5.11, L2.9.5. -/
theorem test_page_refused : (refusal (prog 0 64 0) [0x64, 0x01, 0x02, 0x46], refusal (prog 0 64 0) [0x64, 0x00, 0x03, 0x46],
      refusal (prog 0 64 0) [0x64, 0x00, 0x02, 0x58]) =
    (some .flashLengthOverBuffer, some .oddFlashLength, some .unknownMemoryTag) := by decide

/-- L2.6.1, with one byte of the second chunk's place (L1.6) in `test_eeprom_chunks`. -/
theorem test_eeprom : ((after (prog 8 0 64) [0x64, 0x00, 0x02, 0x45, 0x11, 0x22, 0x20]).history.drop 6).map Event.sent =
    [.bus 0xC0001011 0, .delay 45000, .bus 0xC0001122 0, .delay 45000, .hostRead 0x20, .hostWrite 0x14, .hostWrite 0x10] := by
  decide
/-- L2.6.8. -/
theorem test_eeprom_bad : (reply (prog 0 0 64) [0x64, 0x00, 0x02, 0x45, 0x11, 0x22, 0x21],
      sends (prog 0 0 64) [0x64, 0x00, 0x02, 0x45, 0x11, 0x22, 0x21]) = (([0x15], 1), [0xC0000011, 0xC0000122]) := by decide
/-- L2.6.5. -/
theorem test_eeprom_capacity : (reply (prog 0 0 0) [0x64, 0x00, 0x01, 0x45, 0xAA, 0x20],
      sends (prog 0 0 0) [0x64, 0x00, 0x01, 0x45, 0xAA, 0x20]) = (([0x14, 0x11], 1), []) := by decide
/-- L2.6.7, in the small. -/
theorem test_eeprom_capacity_bad : reply (prog 0 0 0) [0x64, 0x00, 0x01, 0x45, 0xAA, 0x21] = ([0x15], 2) := by decide
/-- L1.6: the 33rd byte is read after the 32nd write. -/
theorem test_eeprom_chunks :
    ((after (prog 0 0 512) ([0x64, 0x00, 0x21, 0x45] ++ List.replicate 33 0x77 ++ [0x20])).history.drop 98).map Event.sent =
      [.bus 0xC0001F77 0, .delay 45000, .hostRead 0x77, .bus 0xC0002077 0, .delay 45000, .hostRead 0x20,
        .hostWrite 0x14, .hostWrite 0x10] := by decide +kernel

/-- L2.7.1. -/
theorem test_read_flash :
    let s : State := { prog 0 0 0 with targetIn := target [0x0C, 0x94, 0x5D, 0xC0] }
    (sends s [0x74, 0x00, 0x04, 0x46, 0x20], (reply s [0x74, 0x00, 0x04, 0x46, 0x20]).1,
        (after s [0x74, 0x00, 0x04, 0x46, 0x20]).address) =
      ([0x20000000, 0x28000000, 0x20000100, 0x28000100], [0x14, 0x0C, 0x94, 0x5D, 0xC0, 0x10], 2) := by decide
/-- L2.7.4. -/
theorem test_read_eeprom :
    let s : State := { prog 0x0010 0 0 with targetIn := target [1, 2, 3] }
    (sends s [0x74, 0x00, 0x03, 0x45, 0x20], (reply s [0x74, 0x00, 0x03, 0x45, 0x20]).1) =
      ([0xA00020FF, 0xA00021FF, 0xA00022FF], [0x14, 1, 2, 3, 0x10]) := by decide
/-- L2.7.6, L2.9.6. -/
theorem test_read_refused : (refusal State.reset [0x74, 0x00, 0x03, 0x46, 0x20], refusal State.reset [0x74, 0x00, 0x02, 0x58, 0x20]) =
    (some .oddFlashLength, some .unknownMemoryTag) := by decide
/-- L2.7.7. -/
theorem test_read_unsynced : reply State.reset [0x74, 0x00, 0x02, 0x58, 0x21] = ([0x15], 1) := by decide
/-- L2.8.1: the replies come between the transactions (46 R284). -/
theorem test_read_sig :
    (after { State.reset with targetIn := target [0x1E, 0x95, 0x0F] } [0x75, 0x20]).history =
      [.hostRead 0x75, .hostRead 0x20, .hostWrite 0x14, .bus 0x30000000 0x1E, .hostWrite 0x1E, .bus 0x30000100 0x95,
        .hostWrite 0x95, .bus 0x30000200 0x0F, .hostWrite 0x0F, .hostWrite 0x10] := by decide

/-- The words of L2.2, each as the instruction handed to the bus engine. -/
def sent (i : Instr) : List Event :=
  match exec i { State.reset with targetIn := [0xDEADBEEF] } with
  | .next t => t.history
  | .fault _ => []
  | .refused _ => []

theorem test_bus_prog_enable : sent .busProgEnable = [.bus 0xAC530000 0xDEADBEEF] := by decide
theorem test_bus_load_lo : sent (.busLoadLo 0xFFFF 0x00) = [.bus 0x40FFFF00 0xDEADBEEF] := by decide
theorem test_bus_load_hi : sent (.busLoadHi 0x0123 0x55) = [.bus 0x48012355 0xDEADBEEF] := by decide
theorem test_bus_write_page : sent (.busWritePage 0xFF00) = [.bus 0x4CFF0000 0xDEADBEEF] := by decide
theorem test_bus_read_lo : sent (.busReadLo 0x0010) = [.bus 0x20001000 0xDEADBEEF] := by decide
theorem test_bus_read_hi : sent (.busReadHi 0x0010) = [.bus 0x28001000 0xDEADBEEF] := by decide
theorem test_bus_ee_write : sent (.busEeWrite 0x01FF 0x7F) = [.bus 0xC001FF7F 0xDEADBEEF] := by decide
theorem test_bus_ee_read : sent (.busEeRead 0x0000) = [.bus 0xA00000FF 0xDEADBEEF] := by decide
theorem test_bus_read_sig : sent (.busReadSig 2) = [.bus 0x30000200 0xDEADBEEF] := by decide
theorem test_bus_universal : sent (.busUniversal 0x4C 0x00 0x00 0x00) = [.bus 0x4C000000 0xDEADBEEF] := by decide

/-- 41 R173: the bits of 0xB1 on `MOSI` in either order, and the byte received. -/
theorem test_shift : shiftByte .msbFirst 0xB1 0x3A = ([.high, .low, .high, .high, .low, .low, .low, .high], 0x3A) ∧
    shiftByte .lsbFirst 0xB1 0x3A = ([.high, .low, .low, .low, .high, .high, .low, .high], 0x3A) := by decide
/-- 41 R173: in mode 0 `SCK` is low while a bit is set up, and rises as it is sampled. -/
theorem test_wave : (busWave defaultConfig 0xAC530000).take 4 = [⟨.low, .high⟩, ⟨.high, .high⟩, ⟨.low, .low⟩, ⟨.high, .low⟩] ∧
    (busWave { defaultConfig with busMode := ⟨.high, .rising⟩ } 0xAC530000).take 2 = [⟨.low, .high⟩, ⟨.high, .high⟩] := by decide
/-- L1.4, both mask modes. -/
theorem test_page_function : (pageOf .docMask 256 0x01FF, pageOf .byteSizedPage 256 0x01FF, pageOf .docMask 32 0x003F,
    pageOf .byteSizedPage 32 0x003F, pageOf .docMask 100 0x1234) = (0x0100, 0x0180, 0x0020, 0x0030, 0x1234) := by decide
/-- 43 R214: the pulse lasts two clock cycles of a target at 20 kHz, and of none slower. -/
theorem test_reset_pulse : defaultConfig.PulseLaw ∧ ¬Config.PulseLaw { defaultConfig with fTargetMin := 19999 } := by decide

/-- An instruction placed by the table's numbering runs in the next step. -/
theorem test_fetch_frame :
    (match step (State.reset.withFetchWord 24 0x208141) with
      | .next t => t.replies
      | .fault _ => []
      | .refused _ => []) = [0x14, 0x01, 0x10] := by decide
theorem test_fetch_transaction :
    (match step (State.reset.withFetchWord 32 0xC001FF7F) with
      | .next t => busWords t.history
      | .fault _ => []
      | .refused _ => []) = [0xC001FF7F] := by decide

/-! ### Witnesses for the statements' hypotheses -/

/-- Before any command, with the Legacy EOP order. -/
def legacyReset : State := { State.reset with cfg := { defaultConfig with eopOrder := .legacy } }

/-- HostFrameRoundTrip, each family of frames at the ends of its lengths. -/
theorem witness_host_frame : defaultConfig.WellFormed ∧
    (Instr.progPageF 256 (List.replicate 256 0xAA) 0x21).WellFormed defaultConfig 0 ∧
    (Instr.progPageE 3 [1, 2, 3] 0x20).WellFormed defaultConfig 3 ∧
    (Instr.progPageE 4 [] 0x20).WellFormed { defaultConfig with capacityFailConsumes := false } 3 ∧
    (Instr.progPage 257 0x46 none).WellFormed defaultConfig 0 ∧ (Instr.readPage 0xFFFF 0x00 0x20).WellFormed defaultConfig 0 ∧
    (Instr.unknownOpcode 0xFF 0x20).WellFormed defaultConfig 0 ∧ (Instr.setParams b64 0x20).WellFormed defaultConfig 0 ∧
    (Instr.progPageF 256 (List.replicate 256 0xAA) 0x21).isBus = false := by decide +kernel
/-- FrameIsItsBytes. -/
theorem witness_frame_bytes :
    decode defaultConfig 0 [0x55, 0xFF, 0xFF, 0x20, 0x30] = .frame (.setAddr 0xFF 0xFF 0x20) [0x30] := by decide
/-- BusWordRoundTrip, CommitCount, AlignedCommitCount, MinimumDurations. -/
theorem witness_bus_word : defaultConfig.BusDistinct ∧ (Instr.busReadSig 2).WellFormed defaultConfig 0 ∧ (Instr.busLoadLo 0xFFFF 0xFF).WellFormed defaultConfig 0 ∧
    (Instr.busUniversal 0xA0 0 0 0).WellFormed defaultConfig 0 ∧ (Instr.busUniversal 0xA0 0 0 0).isBus = true := by decide
/-- FrameLengthFixedByOpcode, first clause. -/
theorem witness_frame_length_fixed : classify defaultConfig 0x74 ≠ .progPage ∧ classify defaultConfig 0xFF ≠ .progPage := by decide
/-- FrameLengthFixedByOpcode, second clause, the longest flash and EEPROM frames. -/
theorem witness_frame_length_page : classify defaultConfig 0x64 = .progPage ∧ defaultConfig.capacityFailConsumes = true ∧
    headerStop defaultConfig (half 0x01 0x00) 0x46 = none ∧ headerStop defaultConfig (half 0xFF 0xFF) 0x45 = none := by decide
/-- StepRunsTheDecodedFrame, in the middle of a command. -/
theorem witness_step_frame :
    let s : State := { State.reset with got := [0x55, 0x10], hostIn := [0x00, 0x20, 0x30] }
    s.cfg.WellFormed ∧ (Instr.setAddr 0x10 0x00 0x20).WellFormed s.cfg s.params.eepromSize ∧ s.busCalls = [] ∧
      s.got ++ s.hostIn = encode s.cfg (.setAddr 0x10 0x00 0x20) ++ [0x30] := by decide
/-- StepRunsTheHandedTransaction. -/
theorem witness_step_transaction :
    let s : State := { State.reset with busCalls := [0xAC530000, 0x4C000000] }
    Instr.busProgEnable.WellFormed s.cfg s.params.eepromSize ∧ s.busCalls = encodeBus s.cfg .busProgEnable :: [0x4C000000] := by
  decide
/-- StallChangesNothing, StepKeepsAtHostRead. -/
theorem witness_stall : State.reset.AtHostRead ∧ State.AtHostRead { State.reset with got := [0x41, 0x81] } ∧
    State.reset.hostIn = [] ∧ State.reset.busCalls = [] := by decide
/-- UnfinishedFrameWritesNoReply. -/
theorem witness_unfinished :
    let s : State := { State.reset with got := [0x64, 0x00], hostIn := [0x02, 0x46, 0xAA, 0x55] }
    s.nextFrame = .incomplete ∧ s.busCalls = [] := by decide
/-- SplitDelivery. -/
theorem witness_split :
    let s : State := { State.reset with hostIn := [0x55, 0x10] }
    s.cfg.WellFormed ∧ s.busCalls = [] ∧ s.nextFrame = .incomplete ∧ ∃ t, step s = .next t :=
  ⟨by decide, rfl, by decide, _, rfl⟩
/-- SignOn, GetSync, SetAddr, LeaveRunsTheExitSequence, Universal, BareEop, EepromRead, ReadSignature, UnsyncedReadPage:
`Ready`, with a bad EOP, in both EOP orders. -/
theorem witness_ready : State.reset.Ready ∧ legacyReset.Ready ∧ (0x21 : Byte) ≠ eopByte ∧ (0x1F : Byte) ≠ eopByte ∧
    legacyReset.cfg.eopOrder = .legacy ∧ State.reset.cfg.eopOrder = .checkFirst := by decide
/-- GetParam, its clauses, next to the table's ends. -/
theorem witness_get_param : defaultConfig.getParam.lookup 0x80 = some 2 ∧ defaultConfig.getParam.lookup 0x93 = some 0x53 ∧
    defaultConfig.getParam.lookup 0x7F = none ∧ defaultConfig.getParam.lookup 0x94 = none := by decide
/-- SetParams, PolarityAndOffsetNine, PolarityRenegotiation, SetExt, LegacyWritesDoNothing (with `witness_ready`). -/
theorem witness_blocks : b64.length = 20 ∧ ([0, 0, 0, 0, 0xFF] : List Byte).length = 5 ∧
    ([1, 2] : List Byte).length = State.reset.cfg.legacyFlashLen ∧ ([1] : List Byte).length = State.reset.cfg.legacyDataLen := by decide
/-- EnterRunsTheEntrySequence (with `witness_ready`). -/
theorem witness_enter : State.reset.mode ≠ .programming ∧ legacyReset.mode ≠ .programming ∧
    ({ State.reset with mode := .ended } : State).mode ≠ .programming := by decide
/-- BitsFollowBusBitOrderAndMode: each bit order, and the bus on in each of the four modes. -/
theorem witness_bit_order_and_mode :
    let s (o : BitOrder) (m : BusMode) : State :=
      { prog 0 64 0 with cfg := { defaultConfig with bitOrder := o, busMode := m } }
    (s .msbFirst ⟨.low, .rising⟩).cfg.bitOrder = .msbFirst ∧ (s .lsbFirst ⟨.low, .rising⟩).cfg.bitOrder = .lsbFirst ∧
      ∀ m ∈ ([⟨.low, .rising⟩, ⟨.low, .falling⟩, ⟨.high, .falling⟩, ⟨.high, .rising⟩] : List BusMode),
        (s .lsbFirst m).busOn = true ∧ (s .lsbFirst m).cfg.busMode = m := by decide
/-- EnterIsIdempotent. -/
theorem witness_programming : (prog 0 64 512).Ready ∧ (prog 0 64 512).mode = .programming := by decide
/-- UnknownOpcode (with `witness_ready`). -/
theorem witness_unknown : (0xFF : Byte) ≠ eopByte ∧ (0xFF : Byte) ∉ defaultConfig.opcodes.toList ∧ (0x00 : Byte) ≠ eopByte ∧
    (0x00 : Byte) ∉ defaultConfig.opcodes.toList := by decide
/-- PageFunction, last clause. -/
theorem witness_page_function : (0 : Half) ≠ 32 ∧ (257 : Half) ≠ 256 ∧ (48 : Half) ≠ 32 ∧ (48 : Half) ≠ 64 ∧ (48 : Half) ≠ 128 ∧
    (48 : Half) ≠ 256 := by decide
/-- FlashWrite, FlashWriteMisframed, at the longest length and at none. -/
theorem witness_flash : (prog 0xFFFF 32 0).Ready ∧ FlashLength 256 ∧ (List.replicate 256 (0xAA : Byte)).length = (256 : Half).toNat ∧
    FlashLength 0 ∧ ([] : List Byte).length = (0 : Half).toNat := by decide +kernel
/-- CommitCount (with `witness_flash`). -/
theorem witness_commit_count : ∃ t, exec (.progPageF 4 [0x11, 0x22, 0x33, 0x44] eopByte) (prog 0xFFFF 32 0) = .next t := ⟨_, rfl⟩
/-- AlignedCommitCount. -/
theorem witness_aligned_count : (4 : Half) ≠ 0 ∧ (prog 0x0040 32 0).currentPage (prog 0x0040 32 0).address = (prog 0x0040 32 0).address ∧
    ∃ t, exec (.progPageF 4 [0x11, 0x22, 0x33, 0x44] eopByte) (prog 0x0040 32 0) = .next t := ⟨by decide, by decide, _, rfl⟩
/-- ProgramPageRefusals, its clauses at their ends. -/
theorem witness_refusals : (0x44 : Byte) ≠ State.reset.cfg.memtagFlash ∧ (0x44 : Byte) ≠ State.reset.cfg.memtagEeprom ∧
    256 < (257 : Half).toNat ∧ 256 < (258 : Half).toNat ∧ (255 : Half).toNat ≤ 256 ∧ (255 : Half).toNat % 2 = 1 ∧
    (1 : Half).toNat % 2 = 1 := by decide
/-- ProgramPageDispatch, both tags, a capacity failure among them. -/
theorem witness_dispatch : FlashLength 2 ∧ ([1, 2] : List Byte).length = (2 : Half).toNat ∧
    ([1, 2] : List Byte).length = eepromPayloadLen (prog 0 0 1).cfg (prog 0 0 1).params.eepromSize 2 := by decide
/-- HoldFrame: a synced header over the EEPROM size, and under Legacy an unknown opcode. -/
theorem witness_hold :
    let s : State := { State.reset with got := [0x64, 0x00], hostIn := [0x02, 0x45] }
    let u : State := { legacyReset with hostIn := [0xFF] }
    s.nextFrame = .incomplete ∧ s.busCalls = [] ∧ s.cfg.eopOrder = .checkFirst ∧ (∃ t, step s = .next t) ∧ ¬s.InEepromPage ∧
      u.nextFrame = .incomplete ∧ u.openCommand.legacyEarly = false ∧ (∃ t, step u = .next t) ∧
      u.openCommand ∉ [.setParams, .setExt, .universal, .progPage] := by
  refine ⟨by decide, rfl, rfl, ⟨_, rfl⟩, ?_, by decide, by decide, ⟨_, rfl⟩, by decide⟩
  rintro ⟨op, lh, ll, data, h, -, ho⟩
  cases h
  cases ho
/-- UnfinishedEepromPage: a whole chunk and a byte of the next. -/
theorem witness_unfinished_eeprom :
    let s : State := { prog 0 64 64 with hostIn := [0x64, 0x00, 0x40, 0x45] ++ List.replicate 33 0xAA }
    s.Ready ∧ s.busCalls = [] ∧ (64 : Half) ≤ s.params.eepromSize ∧ (List.replicate 33 (0xAA : Byte)).length ≤ (64 : Half).toNat ∧
      s.hostIn = pageHeader s.cfg.opcodes.progPage 64 s.cfg.memtagEeprom ++ List.replicate 33 0xAA := by decide
/-- LegacyEffectsBeforeEop. -/
theorem witness_legacy :
    let s : State := { legacyReset with hostIn := [0x50] }
    s.Ready ∧ s.busCalls = [] ∧ s.cfg.eopOrder = .legacy ∧
      (Instr.enterPmode eopByte).WellFormed s.cfg s.params.eepromSize ∧
      s.hostIn ++ [eopByte] = encode s.cfg (.enterPmode eopByte) := by decide
/-- UnfinishedFlashPage. -/
theorem witness_unfinished_flash :
    let s : State := { prog 0 64 0 with hostIn := [0x64, 0x00, 0x02, 0x46, 0xAA, 0x55] }
    s.Ready ∧ s.busCalls = [] ∧ ([0xAA, 0x55] : List Byte).length ≤ (2 : Half).toNat ∧
      s.hostIn = pageHeader s.cfg.opcodes.progPage 2 s.cfg.memtagFlash ++ [0xAA, 0x55] := by decide
/-- EepromWrite, at exactly the EEPROM size. -/
theorem witness_eeprom : (prog 0x8000 0 33).Ready ∧ (33 : Half) ≤ (prog 0x8000 0 33).params.eepromSize ∧
    (List.replicate 33 (0xAA : Byte)).length = (33 : Half).toNat := by decide
/-- CapacityFailure, one byte over the EEPROM size. -/
theorem witness_capacity : (prog 0 0 33).params.eepromSize < (34 : Half) ∧
    (List.replicate 34 (0xAA : Byte)).length = (if (prog 0 0 33).cfg.capacityFailConsumes then (34 : Half).toNat else 0) := by decide
/-- FlashRead, ReadPageDispatch: the parity clauses at their ends. -/
theorem witness_read_lengths : (0xFFFE : Half).toNat % 2 = 0 ∧ (0 : Half).toNat % 2 = 0 ∧ (0xFFFF : Half).toNat % 2 = 1 := by decide
/-- OneReplyPerCommand, ErrorCount, ModeTransitions, RecordWriters, HistoryOnlyGrows, MinimumDurations,
StaleBufferIsUnobservable, CountersSteerNothing: one that ends in success, one in an error, and one that is refused. -/
theorem witness_commands : State.reset.Ready ∧ (Instr.universal 1 2 3 4 eopByte).WellFormed defaultConfig 0 ∧
    (∃ t, exec (.universal 1 2 3 4 eopByte) State.reset = .next t) ∧
    (∃ t, exec (.unknownOpcode 0xFF eopByte) State.reset = .next t) ∧
    (∃ t, exec (.busReadSig 2) State.reset = .next t) ∧
    (Instr.readPage 0 0x58 eopByte).WellFormed defaultConfig 0 ∧
    exec (.readPage 0 0x58 eopByte) State.reset = .refused .unknownMemoryTag :=
  ⟨by decide, by decide, ⟨_, rfl⟩, ⟨_, rfl⟩, ⟨_, rfl⟩, by decide, rfl⟩
/-- StepKeepsLineOwnership, StepKeepsBufferCanonical, StepKeepsPolarity, StaleBufferIsUnobservable. -/
theorem witness_invariants : (prog 0 64 512).LinesOwned ∧ State.reset.LinesOwned ∧ Memory.wf [(0, 0xAA), (255, 0x01)] ∧
    State.PolarityOfDevice { State.reset with resetActiveHigh := true, params := { DeviceParams.zero with deviceCode := 0xE0 } } := by
  decide
/-- The step statements: a step that answers a next state. -/
theorem witness_step : ∃ t, step { prog 0 64 512 with hostIn := [0x51, 0x20] } = .next t := ⟨_, rfl⟩

end Sys2Proof.Tests
end

section
/-! The state after reset (10_state.md). -/

namespace Sys2Proof.Machine

/-- With no byte of a command read, the dispatcher is at `Fetch` (10 R30). -/
theorem State.phase_of_got_nil {s : State} (h : s.got = []) : s.phase = .fetch := by
  simp only [State.phase, h]

/-- Settles O53: each field of `State.reset` is the value 10 R35 and 70 R331 give it; the phase is `Fetch` because no byte
of a command has been read. -/
theorem resetState : Obligations.ResetState := by
  have hphase : State.reset.phase = .fetch := State.phase_of_got_nil rfl
  exact ⟨rfl, rfl, rfl, rfl, rfl, rfl, rfl, rfl, rfl, hphase⟩

end Sys2Proof.Machine
end

section
/-! One reply per command (30 R91). A reply stream is followed through `State.replies`: receiving the bytes before the EOP
position adds nothing to it, and every way a command can end adds one of the four forms. -/

namespace Sys2Proof.Machine

/-! ### What is added to the reply stream -/

@[simp] theorem State.hostRead_replies (b : Byte) (s : State) : (s.hostRead b).replies = s.replies := by
  simp [State.replies, writtenBytes_append, writtenBytes]

@[simp] theorem State.hostWrite_replies (b : Byte) (s : State) : (s.hostWrite b).replies = s.replies ++ [b] := by
  simp [State.replies, writtenBytes_append, writtenBytes]

@[simp] theorem State.endCommand_replies (s : State) : s.endCommand.replies = s.replies := rfl

@[simp] theorem State.countError_replies (s : State) : s.countError.replies = s.replies := rfl

@[simp] theorem State.hostWrites_replies (bs : List Byte) (s : State) : (s.hostWrites bs).replies = s.replies ++ bs := by
  rw [State.hostWrites_eq]
  exact (writtenBytes_append _ _).trans (congrArg _ (writtenBytes_writes bs))

@[simp] theorem State.replyOK_replies (bs : List Byte) (s : State) : (s.replyOK bs).replies = s.replies ++ okReply bs := by
  simp [State.replyOK, okReply]

@[simp] theorem State.answerError_replies (e : ErrorClass) (s : State) :
    (s.answerError e).replies = s.replies ++ errorReply e := by
  simp [State.answerError]

/-- Actions other than `write` leave the reply stream. -/
theorem silent_replies {s t : State} (h : Acts (· ≠ .write) s t) : t.replies = s.replies :=
  acts_replies (fun hw => hw rfl) h

/-- No action takes a byte back from the reply stream. -/
theorem Acts.replies_grow {A : Act → Prop} {s t : State} (h : Acts A s t) : ∃ bs, t.replies = s.replies ++ bs := by
  have silent : ∀ {u v : State}, Acts (· ≠ .write) u v → ∃ bs, v.replies = u.replies ++ bs :=
    fun h => ⟨[], by rw [silent_replies h, List.append_nil]⟩
  induction h with
  | refl s => exact silent (.refl s)
  | trans _ _ ih1 ih2 =>
    obtain ⟨bs, h1⟩ := ih1
    obtain ⟨cs, h2⟩ := ih2
    exact ⟨bs ++ cs, by rw [h2, h1, List.append_assoc]⟩
  | write s b _ => exact ⟨[b], s.hostWrite_replies b⟩
  | read s b _ => exact silent (.read s b (by decide))
  | fill s i v _ => exact silent (.fill s i v (by decide))
  | count s _ => exact silent (.count s (by decide))
  | clear s _ => exact silent (.clear s (by decide))
  | address s a _ => exact silent (.address s a (by decide))
  | params s _ => exact silent (.params s (by decide))
  | bus s w _ => exact silent (.bus s w (by decide))
  | delay s n _ => exact silent (.delay s n (by decide))
  | lamp s on _ => exact silent (.lamp s on (by decide))
  | entry s _ hm => exact silent (.entry s (by decide) hm)
  | exit s _ => exact silent (.exit s (by decide))
  | done s _ => exact silent (.done s (by decide))

/-- A streaming reply is of the success form (46 R284). -/
theorem streamed_replies {A : Act → Prop} {body : State → State} (hbody : ∀ u, Acts A u (body u)) (s : State) :
    ∃ bs, (streamed body s).replies = s.replies ++ okReply bs := by
  obtain ⟨bs, h⟩ := (hbody (s.hostWrite insync)).replies_grow
  exact ⟨bs, by simp [streamed, h, okReply]⟩

/-- No action of a command before its EOP position writes a reply byte. -/
theorem receives_not_write (c : Command) : ¬Command.receives c .write = true := by cases c <;> simp [Command.receives]

/-- The bytes before the EOP position bring no reply, whatever the command (40 R131). -/
theorem receive_replies (bytes : List Byte) (s : State) : (receive bytes s).replies = s.replies := by
  refine silent_replies (acts_receiveAll _ s (by decide) ?_)
  rintro a ha rfl
  exact receives_not_write _ ha

/-! ### Exactly one reply -/

/-- From `s` to `t` exactly one reply has come, of one of the four forms of 30 R91. -/
def OneReply (s t : State) : Prop :=
  ∃ r, t.replies = s.replies ++ r ∧ ((∃ bs, r = okReply bs) ∨ r ∈ errorForms)

variable {s t u : State} {eop : Byte}

/-- What comes before a reply without writing one does not matter. -/
theorem OneReply.of_replies (h : OneReply u t) (hu : u.replies = s.replies) : OneReply s t := by
  rwa [OneReply, ← hu]

theorem oneReply_replyOK (bs : List Byte) (s : State) : OneReply s (s.replyOK bs) :=
  ⟨_, s.replyOK_replies bs, .inl ⟨bs, rfl⟩⟩

theorem oneReply_answerError (e : ErrorClass) (s : State) : OneReply s (s.answerError e) :=
  ⟨_, s.answerError_replies e, .inr (by cases e <;> decide)⟩

theorem oneReply_raise (e : ErrorClass) (s : State) : OneReply s (s.raise e) :=
  (oneReply_answerError e s.countError).of_replies s.countError_replies

theorem oneReply_streamed {A : Act → Prop} {body : State → State} (hbody : ∀ u, Acts A u (body u)) (s : State) :
    OneReply s (streamed body s) := by
  obtain ⟨bs, h⟩ := streamed_replies hbody s
  exact ⟨_, h, .inl ⟨bs, rfl⟩⟩

/-- Behind an EOP check there is one reply if what goes on gives one: a framing error is answered itself. -/
theorem oneReply_checkEop {k : State → Result} (hk : ∀ u v, k u = .next v → OneReply u v)
    (h : checkEop eop k s = .next t) : OneReply s t := by
  rcases checkEop_cases eop k s with ⟨-, hgo⟩ | ⟨-, hbad⟩
  · exact (hk _ _ (hgo ▸ h)).of_replies (s.hostRead_replies eopByte)
  · cases hbad ▸ h
    exact (oneReply_raise .framing _).of_replies (s.hostRead_replies eop)

theorem oneReply_answered {result : State → List Byte} (h : answered eop result s = .next t) : OneReply s t := by
  refine oneReply_checkEop (fun u v hv => ?_) h
  cases hv
  exact oneReply_replyOK _ u

theorem oneReply_framed {effect : State → State} {result : State → List Byte}
    (heffect : ∀ u, Acts (· ≠ .write) u (effect u)) (h : framed eop effect result s = .next t) : OneReply s t := by
  refine oneReply_checkEop (fun u v hv => ?_) h
  cases hv
  split
  · exact oneReply_replyOK _ u
  · exact (oneReply_replyOK _ _).of_replies (silent_replies (heffect u))

theorem oneReply_flashReadPage {len : Half} (h : flashReadPage len s = .next t) : OneReply s t := by
  unfold flashReadPage at h
  split at h
  · cases h
  · cases h
    exact oneReply_streamed (A := fun _ => True) (acts_readWords trivial trivial trivial _) s

theorem oneReply_eepromReadPage {len : Half} (h : eepromReadPage len s = .next t) : OneReply s t := by
  cases h
  exact oneReply_streamed (A := fun _ => True) (acts_readEeprom trivial trivial _ _) s

theorem oneReply_flashProgramPage {len : Half} {data : List Byte} (h : flashProgramPage len data eop s = .next t) :
    OneReply s t := by
  unfold flashProgramPage at h
  split at h
  · cases h
  · refine (oneReply_checkEop (fun u v hv => ?_) h).of_replies (receive_replies _ s)
    cases hv
    have hwrite : Acts (· ≠ .write) u (writeFlashPages len.toNat u) :=
      acts_writeFlashPages (by decide) (by decide) (by decide) (by decide) _ u
    exact (oneReply_replyOK [] _).of_replies (silent_replies hwrite)

theorem oneReply_eepromProgramPage {len : Half} {data : List Byte} (h : eepromProgramPage len data eop s = .next t) :
    OneReply s t := by
  refine (oneReply_checkEop (fun u v hv => ?_) h).of_replies (receive_replies _ s)
  cases hv
  split
  · exact oneReply_answerError .capacity u
  · exact oneReply_replyOK [] u

/-- Every well-formed host command that is not refused gives exactly one reply, from any state. -/
theorem exec_oneReply (i : Instr) {ee : Half} (hwf : i.WellFormed s.cfg ee) (hbus : i.isBus = false)
    (h : exec i s = .next t) : OneReply s t := by
  have received : ∀ {bytes}, OneReply (receive bytes s) t → OneReply s t := fun h => h.of_replies (receive_replies _ s)
  cases i with
  | signOn e =>
    simp only [exec, execSignOn] at h
    exact received (oneReply_framed (fun u => .clear u (by decide)) h)
  | getSync e =>
    simp only [exec, execGetSync] at h
    exact received (oneReply_answered h)
  | getParam sub e =>
    simp only [exec, execGetParam] at h
    exact received (oneReply_answered h)
  | setParams p e =>
    simp only [exec, execSetParams] at h
    exact received (oneReply_framed (fun u => .params u (by decide)) h)
  | setExt x e =>
    simp only [exec, execSetExt] at h
    exact received (oneReply_answered h)
  | enterPmode e =>
    simp only [exec, execEnterPmode] at h
    exact received (oneReply_framed (acts_enterEffect (by decide)) h)
  | leavePmode e =>
    simp only [exec, execLeavePmode] at h
    exact received (oneReply_framed (fun u => .exit u (by decide)) h)
  | setAddr lo hi e =>
    simp only [exec, execSetAddr] at h
    exact received (oneReply_framed (fun u => .address u (half hi lo) (by decide)) h)
  | universal b0 b1 b2 b3 e =>
    simp only [exec, execUniversal] at h
    exact received (oneReply_framed (fun u => .bus u _ (by decide)) h)
  | progFlash d e =>
    simp only [exec, execProgFlash] at h
    exact received (oneReply_answered h)
  | progData d e =>
    simp only [exec, execProgData] at h
    exact received (oneReply_answered h)
  | progPage len tag body =>
    obtain ⟨r, hr⟩ := headerStop_wf _ _ _ _ _ hwf
    simp [exec, execProgPage, hr] at h
  | progPageF len d e => exact oneReply_flashProgramPage h
  | progPageE len d e => exact oneReply_eepromProgramPage h
  | readPage len tag e =>
    simp only [exec, execReadPage] at h
    refine received (oneReply_checkEop (fun u v hv => ?_) h)
    split at hv
    · exact oneReply_flashReadPage hv
    · split at hv
      · exact oneReply_eepromReadPage hv
      · cases hv
  | readPageF len e =>
    simp only [exec, execReadPageF] at h
    exact received (oneReply_checkEop (fun _ _ => oneReply_flashReadPage) h)
  | readPageE len e =>
    simp only [exec, execReadPageE] at h
    exact received (oneReply_checkEop (fun _ _ => oneReply_eepromReadPage) h)
  | readSig e =>
    simp only [exec, execReadSig] at h
    refine received (oneReply_checkEop (fun u v hv => ?_) h)
    cases hv
    exact oneReply_streamed (A := fun _ => True) (acts_readSig trivial trivial) u
  | bareEop =>
    cases h
    exact (oneReply_raise .outOfSync _).of_replies (s.hostRead_replies eopByte)
  | unknownOpcode op b =>
    refine received (bytes := [op]) (OneReply.of_replies ?_ (State.hostRead_replies b _))
    cases h
    split
    · exact oneReply_answerError .unknownOpcode _
    · exact oneReply_answerError .framing _
  | _ => cases hbus

end Sys2Proof.Machine
end

section
/-! The encoding of replies (30_encoding.md). -/

namespace Sys2Proof.Machine

/-- Settles O44: `exec_got` ends the command, no action touches the unread bytes, and `exec_oneReply` says which bytes the
reply stream has gained. -/
theorem oneReplyPerCommand : Obligations.OneReplyPerCommand := by
  intro s t i _ hwf hbus h
  have hphase : t.phase = .fetch := State.phase_of_got_nil (exec_got i s t _ _ rfl hwf hbus h)
  have hrest : t.hostIn = s.hostIn := (exec_acts i s t h).inputs_eq.2.1
  exact ⟨hphase, hrest, exec_oneReply i hwf hbus h⟩

end Sys2Proof.Machine
end

section
/-! How a command ends at its EOP position (40 R131): the synced and the misframed form of `Framed`, and of the EOP check of a
command with no effect of its own, as the statements' `State.synced` and `State.misframed`. -/

namespace Sys2Proof.Machine

/-! ### At the EOP position -/

/-- `s` with the bytes of a command before its EOP position read. -/
def State.atEop (s : State) (bytes : List Byte) : State :=
  { s with got := bytes, history := s.history ++ reads bytes }

@[simp] theorem State.atEop_cfg (s : State) (bytes : List Byte) : (s.atEop bytes).cfg = s.cfg := rfl

/-- Between two commands no byte has been read. -/
theorem State.atEop_nil (s : State) (hg : s.got = []) : s.atEop [] = s := by
  rw [State.atEop, reads_nil, List.append_nil, ← hg]

/-- A success reply behind a synced EOP (40 R131). -/
theorem State.atEop_replyOK (s : State) (bytes reply : List Byte) (hg : s.got = []) :
    ((s.atEop bytes).hostRead eopByte).replyOK reply = s.synced bytes reply := by
  simp [State.atEop, State.replyOK_eq, State.hostRead, State.synced, okReply, reads_append, writes, hg]

/-- An error of a class that is answered `NOSYNC`, raised at the byte `e` (60 R300, R301). -/
theorem State.atEop_raise (s : State) (bytes : List Byte) (e : Byte) (c : ErrorClass) (hg : s.got = [])
    (hc : errorReply c = [nosync]) : ((s.atEop bytes).hostRead e).raise c = s.misframed bytes e := by
  simp [State.atEop, State.raise_eq, State.hostRead, State.misframed, reads_append, writes, hg, hc]

/-- A command with no effect of its own and a fixed reply. -/
theorem answered_atEop (s : State) (bytes reply : List Byte) (e : Byte) (hg : s.got = []) :
    answered eopByte (fun _ => reply) (s.atEop bytes) = .next (s.synced bytes reply) ∧
      (e ≠ eopByte → answered e (fun _ => reply) (s.atEop bytes) = .next (s.misframed bytes e)) := by
  constructor
  · rw [answered, checkEop_synced, State.atEop_replyOK s bytes reply hg]
  · intro he
    rw [answered, checkEop_bad e he, State.atEop_raise s bytes e .framing hg rfl]

/-! ### Effects on the session record -/

/-- An effect that has nothing to do with the bytes read and the events: it makes no difference to it whether it comes before
the EOP byte is read or after. It leaves the parameters. -/
structure RecordEffect (effect : State → State) : Prop where
  cfg : ∀ s, (effect s).cfg = s.cfg
  apart : ∀ (s : State) (got : List Byte) (history : List Event),
    effect { s with got := got, history := history } = { effect s with got := got, history := history }

theorem recordEffect_clearErrors : RecordEffect clearErrors := ⟨fun _ => rfl, fun _ _ _ => rfl⟩

theorem recordEffect_setAddress (lo hi : Byte) : RecordEffect (setAddress lo hi) := ⟨fun _ => rfl, fun _ _ _ => rfl⟩

section
variable {effect : State → State} (h : RecordEffect effect) (s : State)
include h

theorem RecordEffect.got_eq : (effect s).got = s.got :=
  (congrArg State.got (h.apart s s.got s.history) :)

theorem RecordEffect.history_eq : (effect s).history = s.history :=
  (congrArg State.history (h.apart s s.got s.history) :)

theorem RecordEffect.hostRead (b : Byte) : effect (s.hostRead b) = (effect s).hostRead b := by
  rw [State.hostRead, h.apart, State.hostRead, h.got_eq, h.history_eq]

theorem RecordEffect.atEop (bytes : List Byte) : effect (s.atEop bytes) = (effect s).atEop bytes := by
  rw [State.atEop, h.apart, State.atEop, h.history_eq]

/-- What comes early under Legacy is again such an effect. -/
theorem RecordEffect.early : RecordEffect (early effect) := by
  refine ⟨fun t => ?_, fun t got history => ?_⟩
  · unfold Machine.early
    split
    · exact h.cfg t
    · rfl
  · unfold Machine.early
    dsimp only
    split
    · exact h.apart t got history
    · rfl

/-- Behind a synced EOP the effect has come once, in either order of effect and check (40 R131, R132). -/
theorem framed_early_synced (result : State → List Byte) :
    framed eopByte effect result (early effect s) =
      .next (((effect s).hostRead eopByte).replyOK (result ((effect s).hostRead eopByte))) := by
  simp only [framed, checkEop_synced, State.hostRead_cfg, h.early.cfg]
  by_cases hl : s.cfg.eopOrder = .legacy
  · simp [hl, early]
  · simp [hl, early, h.hostRead]

/-- A command in `LEGACY_EARLY` whose effect is on the session record: with a bad EOP the effect has come under Legacy
only. -/
theorem framed_atEop (bytes reply : List Byte) (e : Byte) (hg : s.got = []) :
    framed eopByte effect (fun _ => reply) (early effect (s.atEop bytes)) = .next ((effect s).synced bytes reply) ∧
      (e ≠ eopByte → framed e effect (fun _ => reply) (early effect (s.atEop bytes)) =
        .next ((early effect s).misframed bytes e)) := by
  constructor
  · rw [framed_early_synced h, h.atEop, State.atEop_replyOK _ bytes reply ((h.got_eq s).trans hg)]
  · intro he
    rw [framed, checkEop_bad e he, h.early.atEop,
      State.atEop_raise _ bytes e .framing ((h.early.got_eq s).trans hg) rfl]

end

/-! ### Received up to the EOP position -/

theorem receive_signOn_atEop (s : State) (hg : s.got = []) (hc : s.cfg.WellFormed) :
    receive [s.cfg.opcodes.signOn] s = early clearErrors (s.atEop [s.cfg.opcodes.signOn]) := by
  rw [receive_signOn s hg hc, State.hostRead, hg]
  rfl

theorem receive_setAddr_atEop (s : State) (lo hi : Byte) (hg : s.got = []) (hc : s.cfg.WellFormed) :
    receive [s.cfg.opcodes.setAddr, lo, hi] s =
      early (setAddress lo hi) (s.atEop [s.cfg.opcodes.setAddr, lo, hi]) := by
  rw [receive_setAddr s lo hi hg hc]
  simp [State.hostRead, State.atEop, hg]

theorem receive_setExt_atEop (s : State) (x : List Byte) (hg : s.got = []) (hc : s.cfg.WellFormed) :
    receive (s.cfg.opcodes.setExt :: x) s =
      { s with buffer := Memory.fill s.buffer 0 x }.atEop (s.cfg.opcodes.setExt :: x) :=
  receive_setExt s x hg hc

end Sys2Proof.Machine
end

section
/-! The dispatcher (40_dispatcher.md): sign-on, set-extended-parameters, set-address, and the bytes that are no opcode. -/

namespace Sys2Proof.Machine

/-- Settles O12: the effect of sign-on is on the record, so `framed_atEop` gives both forms. The count of the misframed one
starts from 0 where the effect came early. -/
theorem signOn : Obligations.SignOn := by
  intro s e hready
  obtain ⟨hc, hg, -⟩ := hready
  obtain ⟨hsynced, hbad⟩ := framed_atEop recordEffect_clearErrors s [s.cfg.opcodes.signOn] [] e hg
  simp only [exec, execSignOn, receive_signOn_atEop s hg hc]
  refine ⟨hsynced, fun he => (hbad he).trans ?_⟩
  unfold early
  split <;> rfl

/-- Settles O17: receiving the command fills the buffer from index 0, and the EOP check does nothing but reply. -/
theorem setExt : Obligations.SetExt := by
  intro s x e hready hlen
  obtain ⟨hc, hg, hwf⟩ := hready
  refine ⟨Memory.fill s.buffer 0 x, State.filled_fill s x hwf (by omega), ?_⟩
  simp only [exec, execSetExt, receive_setExt_atEop s x hg hc]
  exact answered_atEop { s with buffer := Memory.fill s.buffer 0 x } (s.cfg.opcodes.setExt :: x) [] e hg

/-- Settles O18: the two bytes are joined high byte first, so the low byte read first weighs 1; `framed_atEop` gives both
forms. -/
theorem setAddr : Obligations.SetAddr := by
  intro s lo hi e hready
  obtain ⟨hc, hg, -⟩ := hready
  have hword : BitVec.ofNat 16 (lo.toNat + 256 * hi.toNat) = half hi lo := by rw [half_ofNat, Nat.add_comm]
  obtain ⟨hsynced, hbad⟩ :=
    framed_atEop (recordEffect_setAddress lo hi) s [s.cfg.opcodes.setAddr, lo, hi] [] e hg
  simp only [exec, execSetAddr, receive_setAddr_atEop s lo hi hg hc, hword]
  refine ⟨hsynced, fun he => (hbad he).trans ?_⟩
  unfold early
  split <;> rfl

/-- Settles O28: the byte is counted as it is received, so what answers it counts nothing. -/
theorem unknownOpcode : Obligations.UnknownOpcode := by
  intro s op b hready hne hmem
  obtain ⟨-, hg, -⟩ := hready
  have hclass : classify s.cfg op = .unknown := classify_unknown s.cfg op hne hmem
  constructor
  · intro ee rest
    simp [decode, hclass, splitFrame]
  · simp only [exec, execUnknownOpcode, receive_unknown s op hg hclass, State.answerError_eq]
    by_cases hb : b = eopByte <;>
      simp [hb, State.hostRead, State.countError, errorReply, hg]

/-- Settles O27: an out-of-sync error is answered as a framing error is, and no byte has been read before it. -/
theorem bareEop : Obligations.BareEop := by
  intro s hready
  obtain ⟨-, hg, -⟩ := hready
  rw [exec, execBareEop, ← State.atEop_raise s [] eopByte .outOfSync hg rfl, State.atEop_nil s hg]

end Sys2Proof.Machine
end

section
/-! The parameter block (42_parameters.md). -/

namespace Sys2Proof.Machine

/-! ### A synced set-parameters -/

/-- `s` with the block `p` in the buffer and decoded (42 R190, R193). -/
def State.withBlock (s : State) (p : List Byte) : State :=
  { s with
    buffer := Memory.fill s.buffer 0 p
    params := decodeBlock p
    resetActiveHigh := polarityOf (decodeBlock p).deviceCode }

theorem recordEffect_decodeParameters : RecordEffect decodeParameters := ⟨fun _ => rfl, fun _ _ _ => rfl⟩

/-- The effect of set-parameters on a state whose buffer the block has filled. -/
theorem decodeParameters_fill (s : State) (p : List Byte) (hwf : Memory.wf s.buffer) (hl : p.length = 20) :
    decodeParameters { s with buffer := Memory.fill s.buffer 0 p } = s.withBlock p :=
  decodeParameters_filled s _ p (State.filled_fill s p hwf (by omega)) hl

/-- A synced set-parameters is a synced command whose only effect is that of the block (40 R136). -/
theorem exec_setParams_synced (s : State) (p : List Byte) (hready : s.Ready) (hl : p.length = 20) :
    exec (.setParams p eopByte) s = .next ((s.withBlock p).synced (s.cfg.opcodes.setParams :: p) []) := by
  obtain ⟨hc, hg, hwf⟩ := hready
  rw [← decodeParameters_fill s p hwf hl]
  simp only [exec, execSetParams, receive_setParams s p hg hc hl]
  exact (framed_atEop recordEffect_decodeParameters { s with buffer := Memory.fill s.buffer 0 p }
    (s.cfg.opcodes.setParams :: p) [] eopByte hg).1

/-! ### What the block leaves in the state -/

/-- Each index of the block is read back from the buffer (42 R192). -/
theorem State.withBlock_memRead (s : State) (p : List Byte) (hwf : Memory.wf s.buffer) (hl : p.length ≤ 256) (i : BitVec 8)
    (hi : i.toNat < p.length) : (s.withBlock p).memRead i = p.getD i.toNat 0 :=
  ((State.filled_fill s p hwf hl).2 i).trans (if_pos hi)

/-- The polarity is the comparison of unsigned bytes (42 R193). -/
theorem polarityOf_eq (d : Byte) : polarityOf d = decide (0xE0 ≤ d.toNat) := rfl

/-- No field is decoded from offset 9 (42 R192). -/
theorem decodeBlock_set_nine (p : List Byte) (v : Byte) : decodeBlock (p.set 9 v) = decodeBlock p := by
  have hother : ∀ k, k ≠ 9 → blockByte (p.set 9 v) k = blockByte p k := fun k hk => by
    simp [blockByte, List.getElem?_set_ne (Ne.symm hk)]
  simp [decodeBlock, hother]

/-- The reply stream of a synced command gains its success reply, whatever bytes were read. -/
theorem State.synced_replies (s : State) (bytes reply : List Byte) :
    (s.synced bytes reply).replies = s.replies ++ okReply reply := by
  simp [State.synced, State.replies, writtenBytes_append]

/-- Settles O16: `exec_setParams_synced` gives both next states. They are made from blocks that decode alike, by
`decodeBlock_set_nine`, so the buffer and the bytes read are all that tells them apart. -/
theorem polarityAndOffsetNine : Obligations.PolarityAndOffsetNine := by
  intro s p v hready hl
  have ⟨_, _, hwf⟩ := hready
  have hl' : (p.set 9 v).length = 20 := by rw [List.length_set, hl]
  refine ⟨_, _, exec_setParams_synced s p hready hl, polarityOf_eq _, ?_,
    exec_setParams_synced s _ hready hl', ?_, ?_, ?_⟩
  · exact s.withBlock_memRead p hwf (by omega) 9 (by simp [hl])
  · have hnine := s.withBlock_memRead (p.set 9 v) hwf (by omega) 9 (by simp [hl])
    exact hnine.trans (by simp [hl])
  · simp only [State.synced, State.withBlock, decodeBlock_set_nine]
  · rw [State.synced_replies, State.synced_replies]
    rfl

end Sys2Proof.Machine
end

section
/-! The flash writer (44_flash_writer.md): the page function, and what program-page refuses at its tag byte. -/

namespace Sys2Proof

/-! ### Where a program-page header stops -/

theorem headerStop_unknownTag (cfg : Config) (len : Half) {tag : Byte} (hf : tag ≠ cfg.memtagFlash)
    (he : tag ≠ cfg.memtagEeprom) : headerStop cfg len tag = some .unknownTag := by
  simp [headerStop, hf, he]

theorem headerStop_lengthOverBuffer (cfg : Config) {len : Half} (h : bufSize < len.toNat) :
    headerStop cfg len cfg.memtagFlash = some .lengthOverBuffer := by
  simp [headerStop, h]

theorem headerStop_oddLength (cfg : Config) {len : Half} (hle : len.toNat ≤ bufSize) (hodd : len.toNat % 2 = 1) :
    headerStop cfg len cfg.memtagFlash = some .oddLength := by
  simp [headerStop, Nat.not_lt.mpr hle, hodd]

namespace Machine

/-! ### The page function -/

/-- The page function is a mask (44 R231). -/
theorem pageOf_eq_and (mode : PageMaskMode) (p a : Half) :
    pageOf mode p a = a &&& BitVec.allOnes 16 <<< pageBits mode p :=
  BitVec.shiftLeft_ushiftRight

/-- A page size that is not in the table clears no bit, in either mode (44 R232). -/
theorem pageBits_other (mode : PageMaskMode) {p : Half} (h32 : p ≠ 32) (h64 : p ≠ 64) (h128 : p ≠ 128) (h256 : p ≠ 256) :
    pageBits mode p = 0 := by
  cases mode <;> simp only [pageBits, if_neg h32, if_neg h64, if_neg h128, if_neg h256]

/-- Settles O29: `pageOf_eq_and` gives the mask of each page size in the table, which evaluates to the literal, and
`pageBits_other` an empty mask for every other size. -/
theorem pageFunction : Obligations.PageFunction := by
  intro p a
  refine ⟨pageOf_eq_and .docMask 32 a, pageOf_eq_and .docMask 64 a, pageOf_eq_and .docMask 128 a,
    pageOf_eq_and .docMask 256 a, pageOf_eq_and .byteSizedPage 32 a, pageOf_eq_and .byteSizedPage 64 a,
    pageOf_eq_and .byteSizedPage 128 a, pageOf_eq_and .byteSizedPage 256 a, fun h32 h64 h128 h256 mode => ?_⟩
  rw [pageOf_eq_and, pageBits_other mode h32 h64 h128 h256, BitVec.shiftLeft_zero, BitVec.and_allOnes]

/-! ### The refusals of program-page -/

/-- A header that stops refuses program-page, whatever follows it. -/
theorem exec_progPage_refused (s : State) (len : Half) (tag : Byte) (body : Option (List Byte × Byte)) {r : HeaderStop}
    (h : headerStop s.cfg len tag = some r) : exec (.progPage len tag body) s = .refused (refusalOf r) := by
  simp only [exec, execProgPage, h]

/-- A header that stops refuses the flash program-page, whatever its payload (44 R239). -/
theorem exec_progPageF_refused (s : State) (len : Half) (data : List Byte) (e : Byte) {r : HeaderStop}
    (h : headerStop s.cfg len s.cfg.memtagFlash = some r) :
    exec (.progPageF len data e) s = .refused (refusalOf r) := by
  simp only [exec, execProgPageF, flashProgramPage, h]

/-- Settles O34: each clause names where the header stops, and both forms of the command refuse what their header does. -/
theorem programPageRefusals : Obligations.ProgramPageRefusals := by
  intro s len tag data e body
  refine ⟨fun hf he => ?_, fun hover => ?_, fun hle hodd => ?_⟩
  · exact exec_progPage_refused s len tag body (headerStop_unknownTag s.cfg len hf he)
  · have hstop := headerStop_lengthOverBuffer s.cfg hover
    exact ⟨exec_progPage_refused s len _ body hstop, exec_progPageF_refused s len data e hstop⟩
  · have hstop := headerStop_oddLength s.cfg hle hodd
    exact ⟨exec_progPage_refused s len _ body hstop, exec_progPageF_refused s len data e hstop⟩

end Machine
end Sys2Proof
end

section
/-! The EEPROM writer (45_eeprom_writer.md): the capacity failure. -/

namespace Sys2Proof.Machine

/-- An error that is counted before the EOP position is only answered behind a synced EOP (60 R302). -/
theorem State.atEop_answerError (s : State) (bytes : List Byte) (c : ErrorClass) (hg : s.got = []) :
    ((s.atEop bytes).hostRead eopByte).answerError c =
      { s with history := s.history ++ reads (bytes ++ [eopByte]) ++ writes (errorReply c) } := by
  simp [State.atEop, State.answerError_eq, State.hostRead, reads_append, writes, hg]

/-- At its EOP position a capacity failure has been counted once, and its payload only read (45 R266). -/
theorem receive_capacity_atEop (s : State) (len : Half) (data : List Byte) (hg : s.got = []) (hc : s.cfg.WellFormed)
    (hlen : s.params.eepromSize < len) :
    receive (pageHeader s.cfg.opcodes.progPage len s.cfg.memtagEeprom ++ data) s =
      s.countError.atEop (pageHeader s.cfg.opcodes.progPage len s.cfg.memtagEeprom ++ data) :=
  receive_capacity s len data hg hc hlen

/-- Settles O38: `receive_capacity_atEop` brings the one count. A synced EOP adds the failed reply, a bad one a framing
error with its own count, whether the payload was read or not. -/
theorem capacityFailure : Obligations.CapacityFailure := by
  intro s len data e hready hlen _
  obtain ⟨hc, hg, -⟩ := hready
  have hover : s.overCapacity len = true := decide_eq_true hlen
  simp only [exec, execProgPageE, eepromProgramPage, receive_capacity_atEop s len data hg hc hlen, hover, if_true]
  by_cases he : e = eopByte
  · subst he
    rw [checkEop_synced, State.atEop_answerError s.countError _ .capacity hg]
    rfl
  · have htwo : s.errorCount + 1 + 1 = s.errorCount + 2 := BitVec.add_assoc _ _ _
    rw [checkEop_bad e he, State.atEop_raise s.countError _ e .framing hg rfl]
    simp only [State.misframed, State.countError, htwo, if_neg he]

end Sys2Proof.Machine
end

section
/-! The readers (46_reader_signature.md): the read-page with a bad EOP. -/

namespace Sys2Proof.Machine

/-- A bad EOP is a framing error, whatever the command would have done behind a synced one (40 R131). -/
theorem checkEop_atEop_bad (s : State) (bytes : List Byte) (e : Byte) (k : State → Result)
    (hg : s.got = []) (he : e ≠ eopByte) :
    checkEop e k (s.atEop bytes) = .next (s.misframed bytes e) := by
  rw [checkEop_bad e he, State.atEop_raise s bytes e .framing hg rfl]

theorem receive_readPage_atEop (s : State) (len : Half) (tag : Byte) (hg : s.got = []) (hc : s.cfg.WellFormed) :
    receive (pageHeader s.cfg.opcodes.readPage len tag) s = s.atEop (pageHeader s.cfg.opcodes.readPage len tag) :=
  receive_readPage s len tag hg hc

/-- Settles O42: the tag and the length only matter to what comes behind a synced EOP, so `checkEop_atEop_bad` gives all
three forms of the command. -/
theorem unsyncedReadPage : Obligations.UnsyncedReadPage := by
  intro s len tag e hready he
  obtain ⟨hc, hg, -⟩ := hready
  refine ⟨?_, ?_, ?_⟩
  · rw [exec, execReadPage, receive_readPage_atEop s len tag hg hc, checkEop_atEop_bad s _ e _ hg he]
  · rw [exec, execReadPageF, receive_readPage_atEop s len _ hg hc, checkEop_atEop_bad s _ e _ hg he]
  · rw [exec, execReadPageE, receive_readPage_atEop s len _ hg hc, checkEop_atEop_bad s _ e _ hg he]

end Sys2Proof.Machine
end

section
/-! Host frames (30_encoding.md sections 1 to 3): a frame is read back as the instruction it encodes, a frame that is read is
that instruction's encoding, and how many bytes a frame needs. -/

namespace Sys2Proof

/-! ### Encoding, then decoding -/

theorem decode_progPage (cfg : Config) (ee len : Half) (tag : Byte) (bs : List Byte) (hc : cfg.WellFormed) :
    decode cfg ee (pageHeader cfg.opcodes.progPage len tag ++ bs) = decodeProgPage cfg ee len tag bs := by
  simp [pageHeader, decode, classify_progPage cfg hc]

theorem decode_readPage (cfg : Config) (ee len : Half) (tag e : Byte) (rest : List Byte) (hc : cfg.WellFormed) :
    decode cfg ee (pageHeader cfg.opcodes.readPage len tag ++ e :: rest) = .frame (decodeReadPage cfg len tag e) rest := by
  simp [pageHeader, decode, classify_readPage cfg hc]

/-- A header that does not stop is followed by the body of its memory (40 R143). -/
theorem decodeProgPage_flash (cfg : Config) (ee len : Half) (bs : List Byte) (h : FlashLength len) :
    decodeProgPage cfg ee len cfg.memtagFlash bs = splitFrame len.toNat bs (.progPageF len) := by
  simp [decodeProgPage, headerStop_flash cfg len h]

theorem decodeProgPage_eeprom (cfg : Config) (ee len : Half) (bs : List Byte) (hc : cfg.WellFormed) :
    decodeProgPage cfg ee len cfg.memtagEeprom bs = splitFrame (eepromPayloadLen cfg ee len) bs (.progPageE len) := by
  have hne : cfg.memtagEeprom ≠ cfg.memtagFlash := Ne.symm hc.2
  simp [decodeProgPage, headerStop_eeprom cfg len hne, hne]

theorem decodeReadPage_flash (cfg : Config) (len : Half) (e : Byte) :
    decodeReadPage cfg len cfg.memtagFlash e = .readPageF len e := if_pos rfl

theorem decodeReadPage_eeprom (cfg : Config) (len : Half) (e : Byte) (hc : cfg.WellFormed) :
    decodeReadPage cfg len cfg.memtagEeprom e = .readPageE len e := (if_neg (Ne.symm hc.2)).trans (if_pos rfl)

theorem decodeReadPage_unknown (cfg : Config) (len : Half) {tag : Byte} (e : Byte) (hf : tag ≠ cfg.memtagFlash)
    (he : tag ≠ cfg.memtagEeprom) : decodeReadPage cfg len tag e = .readPage len tag e := (if_neg hf).trans (if_neg he)

/-- Settles O1: the opcode byte has the class of its command, and the payload has the length that class reads. -/
theorem hostFrameRoundTrip : Obligations.HostFrameRoundTrip := by
  intro cfg ee i rest hc hi hbus
  cases i with
  | signOn e => simp [encode, decode, classify_signOn cfg hc, splitFrame]
  | getSync e => simp [encode, decode, classify_getSync cfg hc, splitFrame]
  | getParam sub e => simp [encode, decode, classify_getParam cfg hc]
  | setParams p e => simp [encode, decode, classify_setParams cfg hc, splitFrame_payload paramLen p rest e _ hi]
  | setExt x e => simp [encode, decode, classify_setExt cfg hc, splitFrame_payload extParamLen x rest e _ hi]
  | enterPmode e => simp [encode, decode, classify_enter cfg hc, splitFrame]
  | leavePmode e => simp [encode, decode, classify_leave cfg hc, splitFrame]
  | setAddr lo hi e => simp [encode, decode, classify_setAddr cfg hc]
  | universal b0 b1 b2 b3 e => simp [encode, decode, classify_universal cfg hc]
  | progFlash d e => simp [encode, decode, classify_progFlash cfg hc, splitFrame_payload _ d rest e _ hi]
  | progData d e => simp [encode, decode, classify_progData cfg hc, splitFrame_payload _ d rest e _ hi]
  | progPage len tag body =>
    obtain ⟨r, hr⟩ := headerStop_wf cfg ee len tag body hi
    obtain ⟨rfl, -, -⟩ := hi
    simp [encode, bodyBytes, decode_progPage cfg ee len tag rest hc, decodeProgPage, hr]
  | progPageF len d e =>
    obtain ⟨hlen, hd⟩ := hi
    simp only [encode, List.append_assoc, List.singleton_append]
    rw [decode_progPage cfg ee len _ _ hc, decodeProgPage_flash cfg ee len _ hlen, splitFrame_payload _ d rest e _ hd]
  | progPageE len d e =>
    simp only [encode, List.append_assoc, List.singleton_append]
    rw [decode_progPage cfg ee len _ _ hc, decodeProgPage_eeprom cfg ee len _ hc, splitFrame_payload _ d rest e _ hi]
  | readPage len tag e =>
    obtain ⟨hf, he⟩ := hi
    simp only [encode, List.append_assoc, List.singleton_append]
    rw [decode_readPage cfg ee len tag e rest hc, decodeReadPage_unknown cfg len e hf he]
  | readPageF len e =>
    simp only [encode, List.append_assoc, List.singleton_append]
    rw [decode_readPage cfg ee len _ e rest hc, decodeReadPage_flash]
  | readPageE len e =>
    simp only [encode, List.append_assoc, List.singleton_append]
    rw [decode_readPage cfg ee len _ e rest hc, decodeReadPage_eeprom cfg len e hc]
  | readSig e => simp [encode, decode, classify_readSig cfg hc, splitFrame]
  | bareEop => simp [encode, decode]
  | unknownOpcode op b => simp [encode, decode, classify_unknown cfg op hi.1 hi.2, splitFrame]
  | _ => cases hbus

/-! ### Decoding, then encoding -/

/-- What is said of an instruction that a frame gives: its bytes are the frame, and it is a well-formed host command. -/
def IsFrameOf (cfg : Config) (ee : Half) (bs rest : List Byte) (i : Instr) : Prop :=
  bs = encode cfg i ++ rest ∧ i.isBus = false ∧ i.WellFormed cfg ee

/-- Which memory a header that does not stop names (40 R143, 44 R239). -/
theorem headerStop_none {cfg : Config} {len : Half} {tag : Byte} (h : headerStop cfg len tag = none) :
    tag = cfg.memtagFlash ∧ FlashLength len ∨ tag ≠ cfg.memtagFlash ∧ tag = cfg.memtagEeprom := by
  unfold headerStop at h
  split at h
  · next hf =>
    refine .inl ⟨hf, ?_⟩
    split at h
    · cases h
    · split at h
      · cases h
      · exact ⟨by omega, by omega⟩
  · next hf =>
    split at h
    · exact .inr ⟨hf, ‹_›⟩
    · cases h

/-- A header that stops is one the decoder leaves as program-page. -/
theorem wellFormed_of_headerStop {cfg : Config} (ee : Half) {len : Half} {tag : Byte} {r : HeaderStop} (hc : cfg.WellFormed)
    (h : headerStop cfg len tag = some r) : (Instr.progPage len tag none).WellFormed cfg ee := by
  refine ⟨rfl, ?_, ?_⟩
  · rintro rfl
    simp [headerStop_eeprom cfg len (Ne.symm hc.2)] at h
  · rintro ⟨rfl, hlen⟩
    simp [headerStop_flash cfg len hlen] at h

theorem decodeProgPage_inv {cfg : Config} {ee len : Half} {tag : Byte} {bs rest : List Byte} {i : Instr}
    (hc : cfg.WellFormed) (h : decodeProgPage cfg ee len tag bs = .frame i rest) :
    IsFrameOf cfg ee (pageHeader cfg.opcodes.progPage len tag ++ bs) rest i := by
  unfold decodeProgPage at h
  split at h
  · next r hr =>
    cases h
    exact ⟨by simp [encode, bodyBytes], rfl, wellFormed_of_headerStop ee hc hr⟩
  · next hnone =>
    rcases headerStop_none hnone with ⟨rfl, hlen⟩ | ⟨hf, rfl⟩
    · rw [if_pos rfl] at h
      obtain ⟨d, e, hd, rfl, rfl⟩ := splitFrame_inv _ _ _ _ _ h
      exact ⟨by simp [encode], rfl, hlen, hd⟩
    · rw [if_neg hf] at h
      obtain ⟨d, e, hd, rfl, rfl⟩ := splitFrame_inv _ _ _ _ _ h
      exact ⟨by simp [encode], rfl, hd⟩

theorem decodeReadPage_inv (cfg : Config) (ee len : Half) (tag e : Byte) (rest : List Byte) (hc : cfg.WellFormed) :
    IsFrameOf cfg ee (pageHeader cfg.opcodes.readPage len tag ++ e :: rest) rest (decodeReadPage cfg len tag e) := by
  by_cases hf : tag = cfg.memtagFlash
  · rw [hf, decodeReadPage_flash]
    exact ⟨by simp [encode], rfl, trivial⟩
  · by_cases he : tag = cfg.memtagEeprom
    · rw [he, decodeReadPage_eeprom cfg len e hc]
      exact ⟨by simp [encode], rfl, trivial⟩
    · rw [decodeReadPage_unknown cfg len e hf he]
      exact ⟨by simp [encode], rfl, hf, he⟩

/-- A header read as bytes is the header of its length. -/
theorem pageHeader_half (op lh ll tag : Byte) : pageHeader op (half lh ll) tag = [op, lh, ll, tag] := by
  simp [pageHeader]

/-- Settles O2: the class of the opcode byte names it, `splitFrame_inv` gives the length of a payload, and the two page
commands are read back by their tag. -/
theorem frameIsItsBytes : Obligations.FrameIsItsBytes := by
  intro cfg ee bs rest i hc h
  show IsFrameOf cfg ee bs rest i
  cases bs with
  | nil => cases h
  | cons op bs =>
    have hop := classify_says cfg op
    cases hclass : classify cfg op <;> rw [hclass] at hop <;> simp only [decode, hclass] at h <;> dsimp only [ClassSays] at hop
    case bareEop => cases h; subst hop; exact ⟨rfl, rfl, trivial⟩
    case unknown =>
      obtain ⟨d, e, hd, rfl, rfl⟩ := splitFrame_inv _ _ _ _ _ h
      obtain rfl := List.length_eq_zero_iff.mp hd
      exact ⟨rfl, rfl, hop⟩
    case getParam =>
      split at h
      · cases h; subst hop; exact ⟨rfl, rfl, trivial⟩
      · cases h
    case setAddr =>
      split at h
      · cases h; subst hop; exact ⟨rfl, rfl, trivial⟩
      · cases h
    case universal =>
      split at h
      · cases h; subst hop; exact ⟨rfl, rfl, trivial⟩
      · cases h
    case progPage =>
      split at h
      · subst hop
        have := decodeProgPage_inv hc h
        rwa [pageHeader_half] at this
      · cases h
    case readPage =>
      split at h
      · next lh ll tag e r =>
        cases h
        subst hop
        have := decodeReadPage_inv cfg ee (half lh ll) tag e rest hc
        rwa [pageHeader_half] at this
      · cases h
    case setParams | setExt | progFlash | progData =>
      obtain ⟨d, e, hd, rfl, rfl⟩ := splitFrame_inv _ _ _ _ _ h
      subst hop
      exact ⟨by simp [encode], rfl, hd⟩
    all_goals
      obtain ⟨d, e, hd, rfl, rfl⟩ := splitFrame_inv _ _ _ _ _ h
      obtain rfl := List.length_eq_zero_iff.mp hd
      subst hop
      exact ⟨rfl, rfl, trivial⟩

/-! ### How many bytes a frame needs -/

/-- Reading `bs` needs `n` bytes, whatever they are. -/
def Needs (n : Nat) (bs : List Byte) (r : Decoded) : Prop :=
  (r = .incomplete ↔ bs.length < n) ∧ ∀ i rest, r = .frame i rest → bs.length = n + rest.length

theorem needs_frame {n : Nat} {bs rest : List Byte} {i : Instr} (h : bs.length = n + rest.length) :
    Needs n bs (.frame i rest) := by
  refine ⟨⟨(fun h => by cases h), fun _ => by omega⟩, fun j r hj => ?_⟩
  cases hj
  exact h

theorem needs_incomplete {n : Nat} {bs : List Byte} (h : bs.length < n) : Needs n bs .incomplete :=
  ⟨⟨fun _ => h, fun _ => rfl⟩, fun _ _ h => by cases h⟩

/-- How many bytes after the opcode a frame of this class needs, program-page excepted (30 R93). -/
def Command.frameBytes (cfg : Config) : Command → Nat
  | .bareEop => 0
  | .getParam => 2
  | .setParams => paramLen + 1
  | .setExt => extParamLen + 1
  | .setAddr => 3
  | .progFlash => cfg.legacyFlashLen + 1
  | .progData => cfg.legacyDataLen + 1
  | .readPage => 4
  | .universal => 5
  | .progPage => 0
  | .signOn => 1
  | .getSync => 1
  | .enter => 1
  | .leave => 1
  | .readSig => 1
  | .unknown => 1

theorem decode_needs (cfg : Config) (op : Byte) (hp : classify cfg op ≠ .progPage) (ee : Half) (bs : List Byte) :
    Needs ((classify cfg op).frameBytes cfg) bs (decode cfg ee (op :: bs)) := by
  cases hclass : classify cfg op <;> simp only [decode, hclass, Command.frameBytes]
  case bareEop => exact needs_frame (by omega)
  case progPage => exact absurd hclass hp
  case getParam =>
    match bs with
    | [] => exact needs_incomplete (by simp)
    | [_] => exact needs_incomplete (by simp)
    | _ :: _ :: r => exact needs_frame (by simp; omega)
  case setAddr =>
    match bs with
    | [] => exact needs_incomplete (by simp)
    | [_] => exact needs_incomplete (by simp)
    | [_, _] => exact needs_incomplete (by simp)
    | _ :: _ :: _ :: r => exact needs_frame (by simp; omega)
  case readPage =>
    match bs with
    | [] => exact needs_incomplete (by simp)
    | [_] => exact needs_incomplete (by simp)
    | [_, _] => exact needs_incomplete (by simp)
    | [_, _, _] => exact needs_incomplete (by simp)
    | _ :: _ :: _ :: _ :: r => exact needs_frame (by simp; omega)
  case universal =>
    match bs with
    | [] => exact needs_incomplete (by simp)
    | [_] => exact needs_incomplete (by simp)
    | [_, _] => exact needs_incomplete (by simp)
    | [_, _, _] => exact needs_incomplete (by simp)
    | [_, _, _, _] => exact needs_incomplete (by simp)
    | _ :: _ :: _ :: _ :: _ :: r => exact needs_frame (by simp; omega)
  all_goals exact splitFrame_len _ bs _

/-- Settles O5: `decode_needs` gives the number for every class but program-page, whose accepted header leaves a payload of
its length. -/
theorem frameLengthFixedByOpcode : Obligations.FrameLengthFixedByOpcode := by
  intro cfg op
  refine ⟨fun hp => ⟨_, decode_needs cfg op hp⟩, fun hp hconsumes ee lh ll tag bs hstop => ?_⟩
  have hlen : (half lh ll).toNat = 256 * lh.toNat + ll.toNat := by
    have := lh.isLt
    have := ll.isLt
    rw [half_ofNat, BitVec.toNat_ofNat]
    omega
  simp only [decode, hp, decodeProgPage, hstop, ← hlen]
  split
  · exact splitFrame_len _ bs _
  · simp only [eepromPayloadLen, hconsumes, Bool.true_eq_false, and_false, if_false]
    exact splitFrame_len _ bs _

end Sys2Proof
end

section
/-! Bus words (30_encoding.md section 4), and frames and words written out from the tables (section 5). -/

namespace Sys2Proof

/-- The bytes of a transaction are those of its word (30 R95). -/
theorem encode_bus (cfg : Config) (i : Instr) (h : i.isBus = true) : encode cfg i = wordBytes (encodeBus cfg i) := by
  cases i
  case busProgEnable | busLoadLo | busLoadHi | busWritePage | busReadLo | busReadHi | busEeWrite | busEeRead | busReadSig |
    busUniversal => rfl
  all_goals cases h

/-- A transaction is not the programming enable where their command bytes differ. -/
theorem ne_progEnable {cfg : Config} {w : Word} (h : byteOf cfg.bus.progEnable 0 ≠ byteOf w 0) : w ≠ cfg.bus.progEnable :=
  fun hw => h (congrArg (byteOf · 0) hw.symm)

theorem busWord_ne_progEnable {cfg : Config} {c : Byte} (h : byteOf cfg.bus.progEnable 0 ≠ c) (a : Half) (d : Byte) :
    busWord c a d ≠ cfg.bus.progEnable :=
  ne_progEnable (by rwa [byteOf_busWord_0])

/-- The word of a well-formed transaction is read back: where the command bytes are distinct no earlier row takes it. -/
theorem decodeBus_encodeBus (cfg : Config) (ee : Half) (i : Instr) (hd : cfg.BusDistinct) (hi : i.WellFormed cfg ee)
    (hbus : i.isBus = true) : decodeBus cfg (encodeBus cfg i) = i := by
  simp only [Config.BusDistinct, BusBytes.toList, List.nodup_cons, List.mem_cons, List.not_mem_nil, or_false, not_or] at hd
  obtain ⟨⟨hpe1, hpe2, hpe3, hpe4, hpe5, hpe6, hpe7, hpe8⟩, hloadLo, hloadHi, hwritePage, hreadLo, hreadHi, heeWrite, heeRead,
    -⟩ := hd
  cases i
  case busProgEnable => simp [decodeBus, encodeBus]
  case busLoadLo a d => simp [decodeBus, encodeBus, busWord_ne_progEnable hpe1]
  case busLoadHi a d => simp [decodeBus, encodeBus, busWord_ne_progEnable hpe2, Ne.symm, hloadLo]
  case busWritePage a => simp [decodeBus, encodeBus, busWord_ne_progEnable hpe3, Ne.symm, hloadLo, hloadHi]
  case busReadLo a => simp [decodeBus, encodeBus, busWord_ne_progEnable hpe4, Ne.symm, hloadLo, hloadHi, hwritePage]
  case busReadHi a =>
    simp [decodeBus, encodeBus, busWord_ne_progEnable hpe5, Ne.symm, hloadLo, hloadHi, hwritePage, hreadLo]
  case busEeWrite a d =>
    simp [decodeBus, encodeBus, busWord_ne_progEnable hpe6, Ne.symm, hloadLo, hloadHi, hwritePage, hreadLo, hreadHi]
  case busEeRead a =>
    simp [decodeBus, encodeBus, busWord_ne_progEnable hpe7, Ne.symm, hloadLo, hloadHi, hwritePage,
      hreadLo, hreadHi, heeWrite]
  case busReadSig k =>
    have hpe : ∀ b1 b2 b3, word4 cfg.bus.readSig b1 b2 b3 ≠ cfg.bus.progEnable := fun _ _ _ =>
      ne_progEnable (by rwa [byteOf_word4_0])
    simp [decodeBus, encodeBus, hpe, Ne.symm, hloadLo, hloadHi, hwritePage, hreadLo, hreadHi, heeWrite, heeRead]
    exact hi
  case busUniversal b0 b1 b2 b3 =>
    obtain ⟨h0, h1, h2, h3, h4, h5, h6, h7, h8⟩ := hi
    simp only [decodeBus, encodeBus, byteOf_word4_0, byteOf_word4_1, byteOf_word4_2, byteOf_word4_3, if_neg, h0, h1, h2, h3,
      h4, h5, h6, h7, h8, not_false_eq_true]
  all_goals cases hbus

/-- Settles O3: `decodeBus_encodeBus`, and the bytes of a word are cut out of it from the top down. -/
theorem busWordRoundTrip : Obligations.BusWordRoundTrip := by
  intro cfg ee i hd hi hbus
  exact ⟨decodeBus_encodeBus cfg ee i hd hi hbus, encode_bus cfg i hbus⟩

/-- What is said of the transaction a word is read as. -/
def IsWordOf (cfg : Config) (ee : Half) (w : Word) (i : Instr) : Prop :=
  i.isBus = true ∧ i.WellFormed cfg ee ∧ encodeBus cfg i = w

/-- Settles O4: one case per row of the table; a word of no row has the bytes of no row. -/
theorem everyWordIsATransaction : Obligations.EveryWordIsATransaction := by
  intro cfg ee w
  show IsWordOf cfg ee w (decodeBus cfg w)
  unfold decodeBus
  refine iteInduction (fun h0 => ⟨rfl, trivial, h0.symm⟩) fun h0 => ?_
  refine iteInduction (fun h1 => ⟨rfl, trivial, ?_⟩) fun h1 => ?_
  · rw [encodeBus, ← h1, busWord_fields]
  refine iteInduction (fun h2 => ⟨rfl, trivial, ?_⟩) fun h2 => ?_
  · rw [encodeBus, ← h2, busWord_fields]
  refine iteInduction (fun h3 => ⟨rfl, trivial, ?_⟩) fun h3 => ?_
  · rw [encodeBus, ← h3.1, ← h3.2, busWord_fields]
  refine iteInduction (fun h4 => ⟨rfl, trivial, ?_⟩) fun h4 => ?_
  · rw [encodeBus, ← h4.1, ← h4.2, busWord_fields]
  refine iteInduction (fun h5 => ⟨rfl, trivial, ?_⟩) fun h5 => ?_
  · rw [encodeBus, ← h5.1, ← h5.2, busWord_fields]
  refine iteInduction (fun h6 => ⟨rfl, trivial, ?_⟩) fun h6 => ?_
  · rw [encodeBus, ← h6, busWord_fields]
  refine iteInduction (fun h7 => ⟨rfl, trivial, ?_⟩) fun h7 => ?_
  · rw [encodeBus, ← h7.1, ← h7.2, busWord_fields]
  refine iteInduction (fun h8 => ⟨rfl, h8.2.2.1, ?_⟩) fun h8 => ?_
  · obtain ⟨hc, hzero, -, hfill⟩ := h8
    have hw := word4_byteOf w
    rwa [hc, hzero, hfill] at hw
  · exact ⟨rfl, ⟨by rwa [word4_byteOf], h1, h2, h3, h4, h5, h6, h7, h8⟩, word4_byteOf w⟩

/-- Settles O6: each sample is decoded by evaluation. -/
theorem sampleEncodings : Obligations.SampleEncodings := by
  unfold Obligations.SampleEncodings
  decide

end Sys2Proof
end

section
/-! The steps of the machine (40_dispatcher.md sections 1 and 10): which instruction a step runs, what it does where the bytes
at hand are no whole frame, and that it does not matter how the bytes of a frame are spread over time. -/

namespace Sys2Proof.Machine

/-! ### Transactions handed over -/

/-- A transaction run alone is one exchange of its word (41 R170). -/
theorem exec_bus (i : Instr) (s : State) (h : i.isBus = true) : exec i s = .next (s.busXfer (encodeBus s.cfg i)) := by
  cases i
  case busProgEnable | busLoadLo | busLoadHi | busWritePage | busReadLo | busReadHi | busEeWrite | busEeRead | busReadSig |
    busUniversal => rfl
  all_goals cases h

/-- Whatever row a word is read as, running it is one exchange of the word. -/
theorem exec_decodeBus (w : Word) (s : State) : exec (decodeBus s.cfg w) s = .next (s.busXfer w) := by
  obtain ⟨hbus, -, hword⟩ := everyWordIsATransaction s.cfg 0 w
  rw [exec_bus _ s hbus, hword]

theorem step_handed (s : State) (w : Word) (ws : List Word) (h : s.busCalls = w :: ws) :
    step s = .next ({ s with busCalls := ws }.busXfer w) := by
  unfold step
  rw [h]
  exact exec_decodeBus w { s with busCalls := ws }

/-- Settles O8: the step and the instruction are both one exchange of the word. -/
theorem stepRunsTheHandedTransaction : Obligations.StepRunsTheHandedTransaction := by
  intro s i ws _ hbus hcalls
  rw [step_handed s _ ws hcalls]
  exact (exec_bus i { s with busCalls := ws } hbus).symm

/-! ### Frames -/

theorem step_frame {s : State} {i : Instr} {rest : List Byte} (hcalls : s.busCalls = []) (h : s.nextFrame = .frame i rest) :
    step s = exec i { s with hostIn := rest } := by
  rw [step_eq s hcalls, h]

theorem step_hold {s : State} (hcalls : s.busCalls = []) (h : s.nextFrame = .incomplete) : step s = .next s.hold := by
  rw [step_eq s hcalls, h]

/-- Settles O7: the bytes at hand are read back as the instruction. -/
theorem stepRunsTheDecodedFrame : Obligations.StepRunsTheDecodedFrame := by
  intro s i rest hc hi hbus hcalls hbytes
  refine step_frame hcalls ?_
  rw [State.nextFrame, hbytes, hostFrameRoundTrip s.cfg _ i rest hc hi hbus]

/-- A frame that is at hand is a well-formed host command's. -/
theorem nextFrame_isFrame {s : State} {i : Instr} {rest : List Byte} (hc : s.cfg.WellFormed)
    (h : s.nextFrame = .frame i rest) :
    s.got ++ s.hostIn = encode s.cfg i ++ rest ∧ i.isBus = false ∧ i.WellFormed s.cfg s.params.eepromSize :=
  frameIsItsBytes s.cfg _ _ rest i hc h

/-! ### Holding -/

theorem State.hold_empty {s : State} (h : s.hostIn = []) : s.hold = s := by
  cases s
  cases h
  rfl

theorem State.hold_acts (s : State) : Acts (fun _ => True) (withIn [] s) s.hold :=
  acts_receiveAll s.hostIn (withIn [] s) trivial fun _ _ => trivial

@[simp] theorem State.hold_cfg (s : State) : s.hold.cfg = s.cfg := s.hold_acts.inputs_eq.1
@[simp] theorem State.hold_hostIn (s : State) : s.hold.hostIn = [] := s.hold_acts.inputs_eq.2.1
@[simp] theorem State.hold_busCalls (s : State) : s.hold.busCalls = s.busCalls := s.hold_acts.inputs_eq.2.2
@[simp] theorem State.hold_got (s : State) : s.hold.got = s.got ++ s.hostIn := receiveAll_got s.hostIn (withIn [] s)

/-- No byte before an EOP position brings a reply (40 R131). -/
theorem State.hold_replies (s : State) : s.hold.replies = s.replies := by
  refine silent_replies (s := withIn [] s) (acts_receiveAll (A := (· ≠ .write)) s.hostIn (withIn [] s) (by decide) ?_)
  rintro a ha rfl
  exact receives_not_write _ ha

/-- Settles O9: with no byte at hand what has been read is all there is, and reading nothing on changes nothing. -/
theorem stallChangesNothing : Obligations.StallChangesNothing := by
  intro s hat hin hcalls
  have hframe : s.nextFrame = .incomplete := by rw [State.nextFrame, hin, List.append_nil]; exact hat
  rw [step_hold hcalls hframe, State.hold_empty hin]

/-- Settles O10: the step holds, and the facts are those of the hold. -/
theorem unfinishedFrameWritesNoReply : Obligations.UnfinishedFrameWritesNoReply := by
  intro s hframe hcalls
  exact ⟨s.hold, step_hold hcalls hframe, s.hold_replies, s.hold_got, s.hold_hostIn⟩

/-- Holding does not change how the bytes of the command in progress are read, however they go on: set-parameters, the one
command whose bytes can change the negotiated size before its end, is read the same with any size. -/
theorem decode_hold (s : State) {more : List Byte} :
    decode s.cfg s.hold.params.eepromSize (s.got ++ s.hostIn ++ more) =
      decode s.cfg s.params.eepromSize (s.got ++ s.hostIn ++ more) := by
  rw [withIn_hold]
  rcases ee_eq s.hostIn s with hee | hset
  · exact congrFun hee _
  · cases hbytes : s.got ++ s.hostIn with
    | nil =>
      obtain ⟨-, hin⟩ := List.append_eq_nil_iff.mp hbytes
      rw [hin]
      rfl
    | cons op pay =>
      rw [hbytes] at hset
      refine decode_other_ee _ _ _ _ ?_
      simp only [List.headD_cons, List.cons_append] at hset ⊢
      rw [hset]
      decide

/-- Of two byte lists one of which goes on as a frame, the one that is no whole frame ends before the frame does. -/
theorem prefix_of_incomplete {cfg : Config} {ee : Half} {bs more rest : List Byte} {i : Instr} (hc : cfg.WellFormed)
    (hi : i.WellFormed cfg ee) (hbus : i.isBus = false) (hsame : bs ++ more = encode cfg i ++ rest)
    (h : decode cfg ee bs = .incomplete) : bs <+: encode cfg i ∧ bs ≠ encode cfg i := by
  have hnot : ¬ encode cfg i <+: bs := by
    rintro ⟨tail, rfl⟩
    rw [hostFrameRoundTrip cfg ee i tail hc hi hbus] at h
    cases h
  rcases List.prefix_or_prefix_of_prefix (List.prefix_append bs more) (hsame ▸ List.prefix_append _ rest) with hle | hge
  · exact ⟨hle, fun heq => hnot (heq ▸ List.prefix_rfl)⟩
  · exact absurd hge hnot

/-- A state that holds and is sent more bytes. -/
theorem hold_hostSend (s : State) (more : List Byte) :
    s.hold.hostSend more = withIn more (s.hostIn.foldl receiveByte s) := by
  rw [withIn_hold]
  rfl

/-- Settles O11: holding leaves open how the bytes go on (`decode_hold`). If they come to a whole frame, `exec_resume` takes
the command up where it was held; if they do not, holding twice reads what holding once does. -/
theorem splitDelivery : Obligations.SplitDelivery := by
  intro s t more hc hcalls hframe ht
  obtain rfl : s.hold = t := Host.Outcome.next.inj ((step_hold hcalls hframe).symm.trans ht)
  have hcalls' : (s.hold.hostSend more).busCalls = [] := s.hold_busCalls.trans hcalls
  have hbytes : (s.hostSend more).got ++ (s.hostSend more).hostIn = s.got ++ s.hostIn ++ more :=
    (List.append_assoc _ _ _).symm
  have hnext : (s.hold.hostSend more).nextFrame = (s.hostSend more).nextFrame := by
    rw [State.nextFrame, State.nextFrame, hbytes]
    simp only [State.hostSend_cfg, State.hostSend_params, State.hostSend_got, State.hostSend_hostIn, s.hold_cfg, s.hold_got,
      s.hold_hostIn, List.nil_append, decode_hold s]
  cases hmore : (s.hostSend more).nextFrame with
  | frame i rest =>
    obtain ⟨hsame, hbus, hi⟩ := nextFrame_isFrame (s := s.hostSend more) hc hmore
    obtain ⟨hp, hne⟩ := prefix_of_incomplete hc hi hbus (hbytes ▸ hsame) hframe
    rw [step_frame hcalls' (hnext.trans hmore), step_frame (s := s.hostSend more) hcalls hmore, hold_hostSend]
    show exec i (withIn rest (s.hostIn.foldl receiveByte s)) = exec i (withIn rest s)
    rw [← foldl_in]
    exact exec_resume i (withIn rest s) s.hostIn _ hc hi hbus hp hne
  | incomplete =>
    rw [step_hold hcalls' (hnext.trans hmore), step_hold (s := s.hostSend more) hcalls hmore, hold_hostSend,
      withIn_hold, withIn_hold]
    show Host.Outcome.next (withIn [] (more.foldl receiveByte (withIn more (s.hostIn.foldl receiveByte s)))) =
      .next (withIn [] ((s.hostIn ++ more).foldl receiveByte (withIn (s.hostIn ++ more) s)))
    rw [foldl_in, foldl_in, List.foldl_append]
    rfl

/-- Settles O52: an exchange and a hold leave what has been read no whole frame, and a command that has run to its end has
left nothing read. -/
theorem stepKeepsAtHostRead : Obligations.StepKeepsAtHostRead := by
  intro s t hc hat h
  cases hcalls : s.busCalls with
  | cons w ws =>
    cases (step_handed s w ws hcalls).symm.trans h
    exact hat
  | nil =>
    cases hframe : s.nextFrame with
    | frame i rest =>
      obtain ⟨-, hbus, hi⟩ := nextFrame_isFrame hc hframe
      have hend := exec_got i { s with hostIn := rest } t s.cfg _ rfl hi hbus ((step_frame hcalls hframe).symm.trans h)
      rw [State.AtHostRead, hend]
      rfl
    | incomplete =>
      cases (step_hold hcalls hframe).symm.trans h
      have hsame := decode_hold s (more := [])
      rw [List.append_nil] at hsame
      rw [State.AtHostRead, s.hold_cfg, s.hold_got, hsame]
      exact hframe

end Sys2Proof.Machine
end

section
/-! The invariants of the machine (10_state.md, 60_exceptions.md): what every action keeps, every step keeps. -/

namespace Sys2Proof.Machine

/-- A relation between the states before and after that every sequence of actions has, and that says nothing of the bytes
and transactions still to come, holds of every step. -/
theorem step_induct {R : State → State → Prop} {s t : State} (hacts : ∀ u v, Acts (fun _ => True) u v → R u v)
    (hcalls : ∀ ws, R { s with busCalls := ws } t → R s t) (hin : ∀ bs, R { s with hostIn := bs } t → R s t)
    (h : step s = .next t) : R s t := by
  obtain ⟨u, hu | hu, hut⟩ := step_acts s t h
  · exact hcalls _ (hu ▸ hacts u t hut)
  · exact hin _ (hu ▸ hacts u t hut)

/-- Settles O48: every action adds its events, if any, at the end. -/
theorem historyOnlyGrows : Obligations.HistoryOnlyGrows := by
  intro s t h
  refine step_induct (R := fun s t => t.cfg = s.cfg ∧ ∃ es, t.history = s.history ++ es) (fun u v huv => ⟨huv.inputs_eq.1, ?_⟩)
    (fun _ hr => hr) (fun _ hr => hr) h
  have same : ∀ s : State, ∃ es, s.history = s.history ++ es := fun s => ⟨[], (List.append_nil _).symm⟩
  induction huv with
  | trans _ _ ih1 ih2 =>
    obtain ⟨es, h1⟩ := ih1
    obtain ⟨fs, h2⟩ := ih2
    exact ⟨es ++ fs, by rw [h2, h1, List.append_assoc]⟩
  | refl s => exact same s
  | read s b _ => exact ⟨_, s.hostRead_history b⟩
  | write s b _ => exact ⟨_, s.hostWrite_history b⟩
  | fill s i v _ => exact same s
  | count s _ => exact same s
  | clear s _ => exact same s
  | address s a _ => exact same s
  | params s _ => exact same s
  | bus s w _ => exact ⟨_, s.busXfer_history w⟩
  | delay s n _ => exact ⟨_, s.delay_history n⟩
  | lamp s on _ => exact same s
  | entry s _ _ => exact ⟨_, entrySequence_history s⟩
  | exit s _ => exact ⟨_, exitSequence_history s⟩
  | done s _ => exact same s

/-- Settles O50: only a write to the buffer changes it, and a write keeps the form. -/
theorem stepKeepsBufferCanonical : Obligations.StepKeepsBufferCanonical := by
  intro s t hwf h
  refine step_induct (R := fun s t => Memory.wf s.buffer → Memory.wf t.buffer) (fun u v huv => ?_) (fun _ hr => hr)
    (fun _ hr => hr) h hwf
  induction huv with
  | trans _ _ ih1 ih2 => exact ih2 ∘ ih1
  | fill s i v _ => exact s.memWrite_wf i v
  | entry s _ _ => exact fun hw => (entrySequence_buffer s).symm ▸ hw
  | exit s _ => exact fun hw => (exitSequence_buffer s).symm ▸ hw
  | _ => exact id

/-- Settles O51: only set-parameters writes the device code or the polarity, and it derives the one from the other. -/
theorem stepKeepsPolarity : Obligations.StepKeepsPolarity := by
  intro s t hpol h
  refine step_induct (R := fun s t => s.PolarityOfDevice → t.PolarityOfDevice) (fun u v huv => ?_) (fun _ hr => hr)
    (fun _ hr => hr) h hpol
  induction huv with
  | trans _ _ ih1 ih2 => exact ih2 ∘ ih1
  | params s _ => exact fun _ => rfl
  | entry s _ _ => exact fun hp => by simpa [State.PolarityOfDevice] using hp
  | exit s _ => exact fun hp => by simpa [State.PolarityOfDevice] using hp
  | _ => exact id

/-- A transaction moves no direction, and with the bus on it leaves `SCK` at its idle level (41 R173). -/
theorem busXfer_linesOwned (s : State) (w : Word) (h : s.LinesOwned) : (s.busXfer w).LinesOwned := by
  by_cases hm : s.mode = .programming
  · simp only [State.LinesOwned, hm, if_true] at h
    obtain ⟨hon, hreset, hsck, hmosi⟩ := h
    have hdir : s.lines.sck.dir = .output := by
      by_contra hne
      simp [State.driven, hne] at hsck
    simp only [State.LinesOwned, State.busXfer_mode, hm, if_true]
    exact ⟨hon, hreset, by simp [State.driven, busLines, Lines.drive, hdir, hon], hmosi⟩
  · simp only [State.LinesOwned, hm, if_false] at h
    simp only [State.LinesOwned, State.busXfer_mode, hm, if_false]
    exact h

/-- The entry sequence leaves the block in possession of the lines (43 R211). -/
theorem entrySequence_linesOwned (s : State) : (entrySequence s).LinesOwned := by
  simp [State.LinesOwned, State.dirOf, State.driven]

/-- The exit sequence leaves no line driven (43 R217). -/
theorem exitSequence_linesOwned (s : State) : (exitSequence s).LinesOwned := by
  simp [State.LinesOwned, State.dirOf]

/-- Settles O49: the two sequences establish the ownership, a transaction keeps it, and nothing else touches the lines, the
bus or the mode. -/
theorem stepKeepsLineOwnership : Obligations.StepKeepsLineOwnership := by
  intro s t hown h
  refine step_induct (R := fun s t => s.LinesOwned → t.LinesOwned) (fun u v huv => ?_) (fun _ hr => hr) (fun _ hr => hr) h hown
  induction huv with
  | trans _ _ ih1 ih2 => exact ih2 ∘ ih1
  | bus s w _ => exact busXfer_linesOwned s w
  | entry s _ _ => exact fun _ => entrySequence_linesOwned s
  | exit s _ => exact fun _ => exitSequence_linesOwned s
  | _ => exact id

/-- Settles O54: the reset state is between commands, in Idle, with no device negotiated. -/
theorem resetInvariants : Obligations.ResetInvariants := by
  unfold Obligations.ResetInvariants
  decide

end Sys2Proof.Machine
end

section
/-! The dispatcher's commands with a reply of their own or none (40_dispatcher.md sections 2, 3 and 6). -/

namespace Sys2Proof.Machine

theorem receive_quiet_atEop (s : State) (op : Byte) (bs : List Byte) {c : Command} (hg : s.got = [])
    (hclass : classify s.cfg op = c) (hop : Command.quietOpcode c = true) (hpay : Command.quietPayload c = true) :
    receive (op :: bs) s = s.atEop (op :: bs) :=
  receive_quiet op bs s hg (hclass ▸ hop) (hclass ▸ hpay)

/-- A command of a class that does nothing before its EOP position, with a reply read off the parameters. -/
theorem answered_quiet (s : State) (op : Byte) (bs : List Byte) (reply : Config → List Byte) (e : Byte) {c : Command}
    (hg : s.got = []) (hclass : classify s.cfg op = c) (hop : Command.quietOpcode c = true) (hpay : Command.quietPayload c = true) :
    answered eopByte (fun t => reply t.cfg) (receive (op :: bs) s) = .next (s.synced (op :: bs) (reply s.cfg)) ∧
      (e ≠ eopByte →
        answered e (fun t => reply t.cfg) (receive (op :: bs) s) = .next (s.misframed (op :: bs) e)) := by
  rw [receive_quiet_atEop s op bs hg hclass hop hpay]
  exact answered_atEop s (op :: bs) (reply s.cfg) e hg

/-- Settles O13: get-sync does nothing before its EOP position, and its reply is the string of the parameters. -/
theorem getSync : Obligations.GetSync := by
  intro s e hready
  obtain ⟨hc, hg, -⟩ := hready
  exact answered_quiet s _ [] (fun cfg => cfg.idString) e hg (classify_getSync _ hc) rfl rfl

/-- Settles O14: the reply is the value `paramValue` looks up, which is the table's or the default. -/
theorem getParam : Obligations.GetParam := by
  intro s sub e hready
  obtain ⟨hc, hg, -⟩ := hready
  obtain ⟨hsynced, hbad⟩ :=
    answered_quiet s _ [sub] (fun cfg => [paramValue cfg sub]) e hg (classify_getParam _ hc) rfl rfl
  refine ⟨fun v hv => ?_, fun hv => ?_, hbad⟩
  · rwa [paramValue, hv] at hsynced
  · rwa [paramValue, hv] at hsynced

/-- Settles O19: both commands do nothing before their EOP position, whatever their payload. -/
theorem legacyWritesDoNothing : Obligations.LegacyWritesDoNothing := by
  intro s d e hready
  obtain ⟨hc, hg, -⟩ := hready
  exact ⟨fun _ => answered_quiet s _ d (fun _ => []) e hg (classify_progFlash _ hc) rfl rfl,
    fun _ => answered_quiet s _ d (fun _ => []) e hg (classify_progData _ hc) rfl rfl⟩

/-- A misframed set-parameters has filled the buffer, and decoded it under Legacy (40 R131, R136). -/
theorem exec_setParams_misframed (s : State) (p : List Byte) (e : Byte) (hready : s.Ready) (hl : p.length = 20)
    (he : e ≠ eopByte) : exec (.setParams p e) s =
      .next ((early decodeParameters { s with buffer := Memory.fill s.buffer 0 p }).misframed
        (s.cfg.opcodes.setParams :: p) e) := by
  obtain ⟨hc, hg, -⟩ := hready
  simp only [exec, execSetParams, receive_setParams s p hg hc hl]
  exact (framed_atEop recordEffect_decodeParameters { s with buffer := Memory.fill s.buffer 0 p }
    (s.cfg.opcodes.setParams :: p) [] e hg).2 he

/-- The block's fields, written out from their offsets (42 R190, R191). -/
theorem decodeBlock_eq (p : List Byte) : decodeBlock p = {
    deviceCode := p.getD 0 0, revision := p.getD 1 0, progType := p.getD 2 0, parMode := p.getD 3 0, polling := p.getD 4 0
    selfTimed := p.getD 5 0, lockBytes := p.getD 6 0, fuseBytes := p.getD 7 0, flashPoll := p.getD 8 0
    eepromPoll := BitVec.ofNat 16 (256 * (p.getD 10 0).toNat + (p.getD 11 0).toNat)
    pageSize := BitVec.ofNat 16 (256 * (p.getD 12 0).toNat + (p.getD 13 0).toNat)
    eepromSize := BitVec.ofNat 16 (256 * (p.getD 14 0).toNat + (p.getD 15 0).toNat)
    flashSize := BitVec.ofNat 32 ((p.getD 16 0).toNat * 2 ^ 24 + (p.getD 17 0).toNat * 2 ^ 16 +
      (p.getD 18 0).toNat * 2 ^ 8 + (p.getD 19 0).toNat) } := by
  simp only [decodeBlock, blockByte, half_ofNat, word4_ofNat]

/-- Settles O15: the synced form is `exec_setParams_synced`, the misframed one has the effect under Legacy only, and
`decodeBlock_eq` gives the fields. -/
theorem setParams : Obligations.SetParams := by
  intro s p e hready hl
  have ⟨_, _, hwf⟩ := hready
  dsimp only
  rw [← decodeBlock_eq p, ← polarityOf_eq]
  refine ⟨Memory.fill s.buffer 0 p, s.filled_fill p hwf (by omega), exec_setParams_synced s p hready hl, fun he => ?_⟩
  rw [exec_setParams_misframed s p e hready hl he]
  by_cases horder : s.cfg.eopOrder = .legacy
  · simp only [early, horder, if_true, decodeParameters_fill s p hwf hl]
    rfl
  · simp only [early, horder, if_false]
    rfl

end Sys2Proof.Machine
end

section
/-! Programming mode (40_dispatcher.md section 4, 43_sequencer.md): the commands whose effect runs a sequence or a transaction,
so that the effect's events stand before the byte at the EOP position or after it. -/

namespace Sys2Proof.Machine

/-! ### An effect with events of its own -/

/-- The state in which the effect of a command in `LEGACY_EARLY` comes: under Legacy before the byte at the EOP position,
else behind a synced one (40 R131, R132). -/
def State.effectAt (s : State) (bytes : List Byte) : State :=
  if s.cfg.eopOrder = .legacy then s.atEop bytes else (s.atEop bytes).hostRead eopByte

/-- It is `s` but for the bytes read. -/
theorem State.effectAt_eq (s : State) (bytes : List Byte) :
    ∃ got history, s.effectAt bytes = { s with got := got, history := history } := by
  unfold State.effectAt
  split <;> exact ⟨_, _, rfl⟩

/-- In its place the effect makes `s` into `after`, but for the bytes read, and adds the events `es`. -/
structure EffectOf (effect : State → State) (s : State) (bytes : List Byte) (after : State) (es : List Event) : Prop where
  got : after.got = []
  eq : effect (s.effectAt bytes) =
    { after with got := (s.effectAt bytes).got, history := (s.effectAt bytes).history ++ es }

section
variable {s after : State} {bytes reply : List Byte} {e : Byte} {es : List Event} {effect : State → State}
  {result : State → List Byte} (h : EffectOf effect s bytes after es)
include h

/-- Behind a synced EOP the effect's events stand where the order of effect and check puts them (40 R131). -/
theorem EffectOf.synced (hcfg : ∀ t, (effect t).cfg = t.cfg)
    (hresult : ∀ t, t.busResult = after.busResult → result t = reply) :
    framed eopByte effect result (early effect (s.atEop bytes)) = .next { after with
      history := s.history ++ effectEvents s.cfg bytes eopByte es ++ writes (okReply reply) } := by
  obtain ⟨hend, hafter⟩ := h
  by_cases horder : s.cfg.eopOrder = .legacy
  · have hlegacy : ((effect (s.atEop bytes)).hostRead eopByte).cfg.eopOrder = .legacy := by
      rw [State.hostRead_cfg, hcfg, State.atEop_cfg, horder]
    simp only [State.effectAt, horder, if_true] at hafter
    simp only [framed, early, State.atEop_cfg, horder, if_true, checkEop_synced, hlegacy]
    rw [hafter, hresult _ (by rfl)]
    simp [State.hostRead, State.replyOK_eq, State.atEop, effectEvents, horder, hend, okReply, writes]
  · simp only [State.effectAt, horder, if_false] at hafter
    simp only [framed, early, State.atEop_cfg, horder, if_false, checkEop_synced, State.hostRead_cfg]
    rw [hafter, hresult _ (by rfl)]
    simp [State.hostRead, State.replyOK_eq, State.atEop, effectEvents, horder, hend, okReply, writes, reads_append]

/-- With a bad EOP the effect has come under Legacy. -/
theorem EffectOf.legacy (he : e ≠ eopByte) (horder : s.cfg.eopOrder = .legacy) :
    framed e effect result (early effect (s.atEop bytes)) = .next { after with
      errorCount := after.errorCount + 1
      history := s.history ++ effectEvents s.cfg bytes e es ++ writes [nosync] } := by
  obtain ⟨hend, hafter⟩ := h
  simp only [State.effectAt, horder, if_true] at hafter
  simp only [framed, early, State.atEop_cfg, horder, if_true, checkEop_bad e he]
  rw [hafter]
  simp [State.hostRead, State.raise_eq, State.atEop, effectEvents, horder, hend, errorReply, writes]

end

/-- With a bad EOP and CheckFirst no effect comes. -/
theorem framed_checkFirst_bad (s : State) (bytes : List Byte) {e : Byte} (effect : State → State)
    (result : State → List Byte) (hg : s.got = []) (he : e ≠ eopByte) (h : s.cfg.eopOrder = .checkFirst) :
    framed e effect result (early effect (s.atEop bytes)) = .next (s.misframed bytes e) := by
  simp only [framed, early, State.atEop_cfg, h, reduceCtorEq, if_false]
  exact checkEop_atEop_bad s bytes e _ hg he

/-! ### Enter and leave -/

theorem State.hostRead_atEop (s : State) (op : Byte) (hg : s.got = []) : s.hostRead op = s.atEop [op] := by
  rw [State.hostRead, hg]
  rfl

theorem exec_enter (s : State) (e : Byte) (hg : s.got = []) (hc : s.cfg.WellFormed) :
    exec (.enterPmode e) s =
      framed e enterEffect (fun _ => []) (early enterEffect (s.atEop [s.cfg.opcodes.enter])) := by
  rw [exec, execEnterPmode, receive_enter s hg hc, State.hostRead_atEop s _ hg]

theorem exec_leave (s : State) (e : Byte) (hg : s.got = []) (hc : s.cfg.WellFormed) :
    exec (.leavePmode e) s =
      framed e exitSequence (fun _ => []) (early exitSequence (s.atEop [s.cfg.opcodes.leave])) := by
  rw [exec, execLeavePmode, receive_leave s hg hc, State.hostRead_atEop s _ hg]

theorem enterEffect_cfg (t : State) : (enterEffect t).cfg = t.cfg := by
  unfold enterEffect
  split
  · rfl
  · exact entrySequence_cfg t

/-- The two levels of `RESET` (43 R210). -/
theorem State.assertLevel_ite (s : State) : s.assertLevel = if s.resetActiveHigh then .high else .low := rfl

theorem State.deassertLevel_ite (s : State) : s.deassertLevel = if s.resetActiveHigh then .low else .high := by
  rw [State.deassertLevel, State.assertLevel_ite]
  split <;> rfl

/-- What the target answers in the entry sequence is an answer to the next transaction. -/
theorem State.mayAnswer_entryAnswer (s : State) : s.MayAnswer (entryAnswer s) := by
  intro a h
  simp [entryAnswer, List.headD_eq_head?_getD, List.head?_eq_getElem?, h]

/-- Outside Programming the effect of enter is the entry sequence (40 R138, 43 R211). -/
theorem effectOf_enter (s : State) (bytes : List Byte) (hg : s.got = []) (hmode : s.mode ≠ .programming) :
    ∃ a mosi d, s.MayAnswer a ∧ EffectOf enterEffect s bytes { s with
      mode := .programming
      busOn := true
      lines := ⟨⟨.output, s.assertLevel⟩, ⟨.output, s.cfg.busMode.idle⟩, ⟨.output, mosi⟩⟩
      busResult := byteOf a 3
      wave := busWave s.cfg s.cfg.bus.progEnable
      targetIn := s.targetIn.tail
      draws := d } (entryLead s ++ [.bus s.cfg.bus.progEnable a]) := by
  obtain ⟨got, history, hat⟩ := s.effectAt_eq bytes
  refine ⟨_, s.cfg.freeMosi (s.draws + 1) (history ++ entryEvents { s with got := got, history := history }), s.draws + 2,
    State.mayAnswer_entryAnswer { s with got := got, history := history }, hg, ?_⟩
  rw [hat]
  exact (if_neg hmode).trans (entrySequence_eq _)

/-- Settles O20: the events of the effect are those of the five steps, with the transaction last. -/
theorem enterRunsTheEntrySequence : Obligations.EnterRunsTheEntrySequence := by
  intro s e hready hmode
  obtain ⟨hc, hg, -⟩ := hready
  obtain ⟨a, mosi, d, ha, heffect⟩ := effectOf_enter s [s.cfg.opcodes.enter] hg hmode
  dsimp only
  rw [← s.assertLevel_ite, ← s.deassertLevel_ite, exec_enter s eopByte hg hc, exec_enter s e hg hc]
  exact ⟨_, mosi, d, ha.answers, heffect.synced enterEffect_cfg fun _ _ => rfl, heffect.legacy,
    framed_checkFirst_bad s _ _ _ hg⟩

/-- Settles O21: in Programming the effect of enter is none, so it adds no event. -/
theorem enterIsIdempotent : Obligations.EnterIsIdempotent := by
  intro s e hready hmode
  obtain ⟨hc, hg, -⟩ := hready
  obtain ⟨got, history, hat⟩ := s.effectAt_eq [s.cfg.opcodes.enter]
  have heffect : EffectOf enterEffect s [s.cfg.opcodes.enter] s [] :=
    ⟨hg, by rw [hat, List.append_nil]; exact if_pos hmode⟩
  have hnone : ∀ b, effectEvents s.cfg [s.cfg.opcodes.enter] b [] = reads [s.cfg.opcodes.enter, b] := fun b => by
    unfold effectEvents
    split <;> rfl
  rw [exec_enter s eopByte hg hc, exec_enter s e hg hc]
  constructor
  · rw [heffect.synced (reply := []) enterEffect_cfg fun _ _ => rfl, hnone]
    rfl
  · intro he
    cases horder : s.cfg.eopOrder with
    | legacy =>
      rw [heffect.legacy he horder, hnone]
      rfl
    | checkFirst => exact framed_checkFirst_bad s _ _ _ hg he horder

/-- Settles O22: the effect of leave is the exit sequence in every mode. -/
theorem leaveRunsTheExitSequence : Obligations.LeaveRunsTheExitSequence := by
  intro s e hready
  obtain ⟨hc, hg, -⟩ := hready
  obtain ⟨got, history, hat⟩ := s.effectAt_eq [s.cfg.opcodes.leave]
  have heffect : EffectOf exitSequence s [s.cfg.opcodes.leave] { s with
      mode := .ended
      busOn := false
      lines := ⟨⟨.input, s.deassertLevel⟩, ⟨.input, s.lines.sck.level⟩, ⟨.input, s.lines.mosi.level⟩⟩ } (exitEvents s) :=
    ⟨hg, by rw [hat]; exact exitSequence_eq { s with got := got, history := history }⟩
  dsimp only
  rw [← s.deassertLevel_ite, exec_leave s eopByte hg hc, exec_leave s e hg hc]
  exact ⟨heffect.synced exitSequence_cfg fun _ _ => rfl, heffect.legacy, framed_checkFirst_bad s _ _ _ hg⟩

/-- A synced leave drives `RESET` to the de-asserted level and releases it (43 R217). -/
theorem exec_leave_reset (s : State) (hready : s.Ready) : ∃ u, exec (.leavePmode eopByte) s = .next u ∧
    Event.drive .reset (if s.resetActiveHigh then .low else .high) ∈ u.history.drop s.history.length ∧
    u.lines.reset.dir = .input := by
  refine ⟨_, (leaveRunsTheExitSequence s eopByte hready).1, ?_, rfl⟩
  rw [List.append_assoc, List.drop_left, effectEvents]
  split <;> simp

/-- Settles O23: set-parameters leaves the lines and the mode and sets the polarity, which the leave after it uses. -/
theorem polarityRenegotiation : Obligations.PolarityRenegotiation := by
  intro s p hready hl
  have ⟨hc, hg, hwf⟩ := hready
  have hthen : State.Ready ((s.withBlock p).synced (s.cfg.opcodes.setParams :: p) []) :=
    ⟨hc, hg, Memory.fill_wf _ _ _ hwf⟩
  obtain ⟨u, hu, hdrive, hdir⟩ := exec_leave_reset _ hthen
  refine ⟨_, u, exec_setParams_synced s p hready hl, rfl, rfl, hu, ?_, hdir⟩
  have hpol : ((s.withBlock p).synced (s.cfg.opcodes.setParams :: p) []).resetActiveHigh =
      decide (0xE0 ≤ (p.getD 0 0).toNat) := polarityOf_eq _
  simpa [hpol] using hdrive

/-! ### Transactions -/

/-- One exchange in one record (41 R170, R171). -/
theorem busXfer_eq (s : State) (w : Word) : s.busXfer w = { s with
    busResult := byteOf (s.nextAnswer w) 3
    wave := (s.busXfer w).wave
    targetIn := s.targetIn.tail
    lines := (s.busXfer w).lines
    draws := s.draws + 1
    history := s.history ++ [.bus w (s.nextAnswer w)] } := by
  simp [State.busXfer]

/-- One exchange changes what an exchange changes, whatever the word (41 R170, R171). -/
theorem transacts_busXfer (s : State) (w : Word) : s.Transacts w (.next (s.busXfer w)) := by
  exact ⟨_, (s.busXfer w).wave, _, _, (s.mayAnswer_nextAnswer w).answers, fun hon => if_pos hon, (did_busXfer w s).lines,
    congrArg _ (busXfer_eq s w)⟩

/-- Settles O24: each kind is one exchange of the word its four bytes make. -/
theorem eachTransactionIsOneExchange : Obligations.EachTransactionIsOneExchange := by
  intro s a d b0 b1 b2 b3
  have hone := transacts_busXfer s
  exact ⟨hone _, hone _, hone _, hone _, hone _, hone _, hone _, hone _, hone _, hone _⟩

/-- Bit `n` of byte `k` of a transaction (30 R95). -/
theorem byteOf_bit (w : Word) (k n : Nat) (h : n < 8) : (byteOf w k).getLsbD n = w.getLsbD (8 * (3 - k) + n) := by
  simp [byteOf, h]

/-- The levels of the 32 clock periods, byte by byte in the bit order. -/
theorem mosiLevels_eq (o : BitOrder) (w : Word) : mosiLevels o w =
    [0, 1, 2, 3].flatMap fun k => [7, 6, 5, 4, 3, 2, 1, 0].map fun n => levelOf (w.getLsbD (8 * (3 - k) + bitIndex o n)) := by
  have hbit : ∀ n < 8, bitIndex o n < 8 := by
    intro n hn
    cases o <;> simp only [bitIndex] <;> omega
  have hbyte : ∀ k, (shiftByte o (byteOf w k) 0).1 =
      [7, 6, 5, 4, 3, 2, 1, 0].map fun n => levelOf (w.getLsbD (8 * (3 - k) + bitIndex o n)) := by
    intro k
    rw [shiftByte, shiftBits_levels]
    refine List.map_congr_left fun n hn => ?_
    rw [byteOf_bit w k _ (hbit n (by simpa using hn))]
  simp only [mosiLevels, wordBytes, List.flatMap_cons, List.flatMap_nil, hbyte]

/-- Settles O25: `mosiLevels_eq` lists the levels, which are the bits in the order stated; the wave puts each over the two
halves of a clock period of the mode. -/
theorem bitsFollowBusBitOrderAndMode : Obligations.BitsFollowBusBitOrderAndMode := by
  intro s out ans
  refine ⟨fun h => ?_, fun h => ?_, receivedWord_eq _ out ans, fun hon => ?_⟩
  · rw [h, mosiLevels_eq]
    rfl
  · rw [h, mosiLevels_eq]
    rfl
  · have hwave : (s.busXfer out).wave = (mosiLevels s.cfg.bitOrder out).flatMap (clockPeriod s.cfg.busMode) := if_pos hon
    rw [hwave]
    refine ⟨fun h => ?_, fun h => ?_, fun h => ?_, fun h => ?_⟩ <;> rw [h] <;> rfl

/-- With the four bytes in the buffer the effect of universal is one exchange of them (40 R145). -/
theorem effectOf_universal (s : State) (bytes : List Byte) (b0 b1 b2 b3 : Byte) (hg : s.got = [])
    (hfilled : s.Filled [b0, b1, b2, b3] s.buffer) :
    ∃ a v l d, s.MayAnswer a ∧ s.WaveOf (word4 b0 b1 b2 b3) v ∧ s.BusLinesOnly l ∧ EffectOf universalEffect s bytes { s with
      busResult := byteOf a 3
      wave := v
      targetIn := s.targetIn.tail
      lines := l
      draws := d } [.bus (word4 b0 b1 b2 b3) a] := by
  obtain ⟨got, history, hat⟩ := s.effectAt_eq bytes
  have hone := did_busXfer (word4 b0 b1 b2 b3) { s with got := got, history := history }
  refine ⟨_, (State.busXfer (word4 b0 b1 b2 b3) { s with got := got, history := history }).wave, _, s.draws + 1,
    State.mayAnswer_nextAnswer { s with got := got, history := history } (word4 b0 b1 b2 b3), fun hon => if_pos hon,
    hone.lines, hg, ?_⟩
  rw [hat]
  exact (universalEffect_filled s { s with got := got, history := history } b0 b1 b2 b3 hfilled).trans (busXfer_eq _ _)

/-- Universal at its EOP position: the four bytes in the buffer, and under Legacy exchanged. -/
theorem receive_universal_atEop (s : State) (b0 b1 b2 b3 : Byte) (hg : s.got = []) (hc : s.cfg.WellFormed) :
    receive [s.cfg.opcodes.universal, b0, b1, b2, b3] s = early universalEffect
      ({ s with buffer := Memory.fill s.buffer 0 [b0, b1, b2, b3] }.atEop [s.cfg.opcodes.universal, b0, b1, b2, b3]) :=
  receive_universal s b0 b1 b2 b3 hg hc

/-- Settles O26: `effectOf_universal`, once the bytes are in the buffer. -/
theorem universal : Obligations.Universal := by
  intro s b0 b1 b2 b3 e hready
  obtain ⟨hc, hg, hwf⟩ := hready
  have hfilled := s.filled_fill [b0, b1, b2, b3] hwf (by simp)
  simp only [exec, execUniversal, receive_universal_atEop s b0 b1 b2 b3 hg hc]
  generalize Memory.fill s.buffer 0 [b0, b1, b2, b3] = m at hfilled
  have hsame : State.Filled { s with buffer := m } [b0, b1, b2, b3] m := by
    refine ⟨hfilled.1, fun i => ?_⟩
    split
    · exact (hfilled.2 i).trans (if_pos ‹_›)
    · rfl
  obtain ⟨a, v, l, d, ha, hv, hl, heffect⟩ := effectOf_universal { s with buffer := m }
    [s.cfg.opcodes.universal, b0, b1, b2, b3] b0 b1 b2 b3 hg hsame
  refine ⟨m, _, v, l, d, hfilled, ha.answers, hv, hl, ?_⟩
  exact ⟨heffect.synced (fun _ => rfl) fun t ht => congrArg (fun r => [r]) ht, heffect.legacy,
    framed_checkFirst_bad { s with buffer := m } _ _ _ hg⟩

end Sys2Proof.Machine
end

section
/-! The flash writer (44_flash_writer.md): its exact events, and how many pages it commits. -/

namespace Sys2Proof.Machine

/-! ### The exact events -/

theorem receive_flash_atEop (s : State) (len : Half) (data : List Byte) (hg : s.got = []) (hc : s.cfg.WellFormed) :
    receive (pageHeader s.cfg.opcodes.progPage len s.cfg.memtagFlash ++ data) s =
      { s with buffer := Memory.fill s.buffer 0 data }.atEop
        (pageHeader s.cfg.opcodes.progPage len s.cfg.memtagFlash ++ data) :=
  receive_flash s len data hg hc

/-- A flash program-page of accepted length is its data in the buffer, the EOP check, and the writer (44 R238). -/
theorem exec_progPageF (s : State) (len : Half) (data : List Byte) (e : Byte) (hg : s.got = []) (hc : s.cfg.WellFormed)
    (hlen : FlashLength len) : exec (.progPageF len data e) s =
      checkEop e (fun t => .next ((writeFlashPages len.toNat t).replyOK []))
        ({ s with buffer := Memory.fill s.buffer 0 data }.atEop
          (pageHeader s.cfg.opcodes.progPage len s.cfg.memtagFlash ++ data)) := by
  simp only [exec, execProgPageF, flashProgramPage, headerStop_flash _ _ hlen, receive_flash_atEop s len data hg hc]

theorem State.filled_flash (s : State) (len : Half) (data : List Byte) (hwf : Memory.wf s.buffer) (hlen : FlashLength len)
    (hd : data.length = len.toNat) : s.Filled data (Memory.fill s.buffer 0 data) :=
  s.filled_fill data hwf (hd ▸ hlen.1)

/-- Settles O30: behind the synced EOP the buffer holds the data, so the writer sends `flashSent` of it. -/
theorem flashWrite : Obligations.FlashWrite := by
  intro s len data hready hlen hd
  obtain ⟨hc, hg, hwf⟩ := hready
  have hfilled := s.filled_flash len data hwf hlen hd
  rw [exec_progPageF s len data eopByte hg hc hlen, checkEop_synced, ← hd]
  generalize hbytes : pageHeader s.cfg.opcodes.progPage len s.cfg.memtagFlash ++ data = bytes
  generalize Memory.fill s.buffer 0 data = m at hfilled
  generalize hu : ({ s with buffer := m }.atEop bytes).hostRead eopByte = u
  have hbuf : ∀ j < data.length, u.bufferAt j = data.getD j 0 := fun j hj =>
    State.bufferAt_filled s u data (by rw [← hu]; exact hfilled) j hj (hd ▸ hlen.1)
  obtain ⟨⟨es, hdid, hsent, hbuffer, hgot⟩, haddr⟩ := sent_writeFlashPages u data (hd ▸ hlen.2) hbuf
  refine ⟨m, reads (bytes ++ [eopByte]) ++ es ++ writes (okReply []), _, hfilled, rfl, ?_, ?_, ?_⟩
  · have hsame : u.flashSent data = s.flashSent data := by rw [← hu]; rfl
    rw [List.map_append, List.map_append, sent_reads, sent_writes, hsent, hsame]
  · have hlines := hdid.lines
    rw [← hu] at hlines ⊢
    exact hlines
  · rw [State.replyOK_eq, hdid.eq, hbuffer, haddr, ← hu]
    simp [State.hostRead, State.atEop, hg, okReply, writes, reads_append, busWords_append, busWords]

/-- Settles O31: a bad EOP ends the command before the writer. -/
theorem flashWriteMisframed : Obligations.FlashWriteMisframed := by
  intro s len data e hready hlen hd he
  obtain ⟨hc, hg, hwf⟩ := hready
  refine ⟨_, s.filled_flash len data hwf hlen hd, ?_⟩
  rw [exec_progPageF s len data e hg hc hlen]
  exact checkEop_atEop_bad { s with buffer := Memory.fill s.buffer 0 data } _ e _ hg he

/-! ### How many pages are committed -/

@[simp] theorem commitCount_reads (cfg : Config) (bs : List Byte) : commitCount cfg (reads bs) = 0 := by
  simp [commitCount]

@[simp] theorem commitCount_writes (cfg : Config) (bs : List Byte) : commitCount cfg (writes bs) = 0 := by
  simp [commitCount]

/-- A commit is one page write (44 R233). -/
@[simp] theorem commitCount_commitSent (cfg : Config) (p : Half) : commitCount cfg (commitSent cfg p) = 1 := by
  simp [commitCount, commitSent, busWords]

/-- A word's loads are no page write, where the command bytes are distinct (log entry 3). -/
theorem commitCount_loads (cfg : Config) (hd : cfg.BusDistinct) (a b : Half) (x y : Byte) : commitCount cfg
    [.bus (busWord cfg.bus.loadLo a x) 0, .bus (busWord cfg.bus.loadHi b y) 0] = 0 := by
  simp only [Config.BusDistinct, BusBytes.toList, List.nodup_cons, List.mem_cons, not_or] at hd
  obtain ⟨-, ⟨-, hlo, -⟩, ⟨hhi, -⟩, -⟩ := hd
  simp [commitCount, busWords, hlo, hhi]

/-- The commits of a list of words are those where a page begins. -/
theorem commitCount_words (s : State) (d : List Byte) (hd : s.cfg.BusDistinct) (ks : List Nat) :
    commitCount s.cfg (ks.flatMap fun k => (if s.turnsPage k then commitSent s.cfg (s.wordPage (k - 1)) else []) ++
      [.bus (busWord s.cfg.bus.loadLo (s.wordAddr k) (d.getD (2 * k) 0)) 0,
        .bus (busWord s.cfg.bus.loadHi (s.wordAddr k) (d.getD (2 * k + 1) 0)) 0]) =
      ks.countP fun k => s.turnsPage k := by
  induction ks with
  | nil => rfl
  | cons k ks ih =>
    rw [List.flatMap_cons, commitCount_append, ih, commitCount_append, commitCount_loads _ hd, List.countP_cons]
    by_cases hk : s.turnsPage k
    · rw [if_pos hk, if_pos (decide_eq_true hk), commitCount_commitSent]
      omega
    · rw [if_neg hk, if_neg (by rw [decide_eq_false hk]; decide)]
      exact Nat.zero_add _

theorem commitCount_flashSent (s : State) (d : List Byte) (hd : s.cfg.BusDistinct) :
    commitCount s.cfg (s.flashSent d) = 1 + (List.range (d.length / 2)).countP fun k => s.turnsPage k := by
  rw [State.flashSent, commitCount_append, commitCount_words s d hd, commitCount_commitSent, Nat.add_comm]

/-- Settles O32: what the command adds to the history is counted as `flashSent` is. -/
theorem commitCount_flash : Obligations.CommitCount := by
  intro s t len data hready hdist hlen hd h
  obtain ⟨m, es, u, -, hu, hsent, -, heq⟩ := flashWrite s len data hready hlen hd
  obtain rfl : u = t := Host.Outcome.next.inj (hu.symm.trans h)
  have hes : commitCount s.cfg es = 1 + (List.range (data.length / 2)).countP fun k => s.turnsPage k := by
    rw [← commitCount_sent, hsent, commitCount_append, commitCount_append, commitCount_reads, commitCount_writes,
      commitCount_flashSent s data hdist, Nat.zero_add, Nat.add_zero]
  have hhist : u.history = s.history ++ es := by rw [heq]
  rw [hhist, commitCount_append, hes, hd, Nat.add_assoc]

/-! ### From an aligned start -/

/-- The page bits are at most 8 (44 R230). -/
theorem pageBits_le (mode : PageMaskMode) (p : Half) : pageBits mode p ≤ 8 := by
  have hdoc : pageBits .docMask p ≤ 8 := by
    simp only [pageBits]
    repeat' split
    all_goals omega
  cases mode with
  | docMask => exact hdoc
  | byteSizedPage => exact Nat.le_trans (Nat.sub_le _ 1) hdoc

/-- The page of an address, as a number: what is left of it by whole pages. -/
theorem pageOf_toNat (mode : PageMaskMode) (p a : Half) :
    (pageOf mode p a).toNat = a.toNat / 2 ^ pageBits mode p * 2 ^ pageBits mode p := by
  have hle : a.toNat / 2 ^ pageBits mode p * 2 ^ pageBits mode p ≤ a.toNat := Nat.div_mul_le_self _ _
  have := a.isLt
  rw [pageOf, BitVec.toNat_shiftLeft, BitVec.toNat_ushiftRight, Nat.shiftRight_eq_div_pow, Nat.shiftLeft_eq,
    Nat.mod_eq_of_lt (by omega)]

/-- In numbers below `n` the multiples of `w` other than 0. -/
theorem countP_multiples (w n : Nat) (hn : n ≠ 0) :
    (List.range n).countP (fun k => decide (k ≠ 0 ∧ w ∣ k)) = (n - 1) / w := by
  induction n with
  | zero => exact absurd rfl hn
  | succ n ih =>
    rw [List.range_succ, List.countP_append]
    by_cases h0 : n = 0
    · simp [h0]
    · obtain ⟨m, rfl⟩ := Nat.exists_eq_succ_of_ne_zero h0
      rw [ih h0, Nat.add_sub_cancel, Nat.succ_sub_one, Nat.succ_eq_add_one, Nat.succ_div]
      by_cases hw : w ∣ m + 1 <;> simp [hw]

/-- Going on by one, what is left over by whole numbers of `w` rises by one, or is 0 again. -/
theorem mod_succ_cases (k w : Nat) (hw : 0 < w) :
    (k + 1) % w = 0 ∧ k % w + 1 = w ∨ (k + 1) % w = k % w + 1 ∧ k % w + 1 < w := by
  have hlt := Nat.mod_lt k hw
  rw [← Nat.mod_add_mod k w 1]
  rcases Nat.lt_or_ge (k % w + 1) w with h | h
  · exact .inr ⟨Nat.mod_eq_of_lt h, h⟩
  · have heq : k % w + 1 = w := by omega
    exact .inl ⟨by rw [heq, Nat.mod_self], heq⟩

/-- A page begins at each whole number of pages from an aligned start, in a transfer that fits the buffer: past the end of the
memory, too, since a page length divides it. -/
theorem turnsPage_aligned (s : State) (k : Nat) (halign : s.currentPage s.address = s.address) :
    s.turnsPage k ↔ k ≠ 0 ∧ 2 ^ pageBits s.cfg.pageMaskMode s.params.pageSize ∣ k := by
  refine and_congr_right fun h0 => ?_
  obtain ⟨j, rfl⟩ := Nat.exists_eq_succ_of_ne_zero h0
  have hpage := pageOf_toNat s.cfg.pageMaskMode s.params.pageSize
  have hp8 := pageBits_le s.cfg.pageMaskMode s.params.pageSize
  generalize pageBits s.cfg.pageMaskMode s.params.pageSize = p at hpage hp8 ⊢
  have hw : 2 ^ p ≤ 2 ^ 8 := Nat.pow_le_pow_right (by omega) hp8
  have hdvd : 2 ^ p ∣ 2 ^ 16 := Nat.pow_dvd_pow 2 (by omega)
  have hstart : 2 ^ p ∣ s.address.toNat := ⟨_, by rw [Nat.mul_comm, ← hpage]; exact (congrArg BitVec.toNat halign).symm⟩
  have hleft : ∀ i, (s.wordAddr i).toNat % 2 ^ p = i % 2 ^ p := fun i => by
    rw [State.wordAddr, BitVec.toNat_add, BitVec.toNat_ofNat, Nat.add_mod_mod, Nat.mod_mod_of_dvd _ hdvd, Nat.add_mod,
      Nat.mod_eq_zero_of_dvd hstart, Nat.zero_add, Nat.mod_mod]
  have hnext : (s.wordAddr (j + 1)).toNat = ((s.wordAddr j).toNat + 1) % 2 ^ 16 := by
    simp only [State.wordAddr, BitVec.toNat_add, BitVec.toNat_ofNat]
    omega
  have hwhole : ∀ i, (s.wordPage i).toNat + i % 2 ^ p = (s.wordAddr i).toNat := fun i => by
    rw [← hleft i, State.wordPage, State.currentPage, hpage, Nat.div_add_mod']
  have h1 := hwhole j
  have h2 := hwhole (j + 1)
  rw [Nat.succ_eq_add_one, Nat.add_sub_cancel, Nat.dvd_iff_mod_eq_zero, Ne, ← BitVec.toNat_inj]
  have := (s.wordPage (j + 1)).isLt
  rcases mod_succ_cases j (2 ^ p) (Nat.two_pow_pos p) with ⟨hzero, hlast⟩ | ⟨hsucc, -⟩ <;> omega

/-- Settles O33: `commitCount_flash` with the page turns of an aligned start, which are the multiples of the page length. -/
theorem alignedCommitCount : Obligations.AlignedCommitCount := by
  intro s t len data hready hdist hlen hd hne halign h
  dsimp only
  have hcount : (List.range (len.toNat / 2)).countP (fun k => s.turnsPage k) = (List.range (len.toNat / 2)).countP
      fun k => decide (k ≠ 0 ∧ 2 ^ pageBits s.cfg.pageMaskMode s.params.pageSize ∣ k) :=
    List.countP_congr fun k _ => by
      simpa using turnsPage_aligned s k halign
  have hpos : len.toNat ≠ 0 := fun h0 => hne (BitVec.eq_of_toNat_eq h0)
  have heven := hlen.2
  have hw : 0 < 2 ^ pageBits s.cfg.pageMaskMode s.params.pageSize := Nat.two_pow_pos _
  rw [commitCount_flash s t len data hready hdist hlen hd h, hcount, countP_multiples _ _ (by omega), Nat.add_assoc]
  congr 1
  rw [show len.toNat / 2 + 2 ^ pageBits s.cfg.pageMaskMode s.params.pageSize - 1 =
    (len.toNat / 2 - 1) + 2 ^ pageBits s.cfg.pageMaskMode s.params.pageSize by omega, Nat.add_div_right _ hw, Nat.add_comm]

end Sys2Proof.Machine
end

section
/-! Program-page and the EEPROM writer (40_dispatcher.md section 7, 45_eeprom_writer.md): the dispatch on the tag, the exact
events, and what a page that is cut short has done. -/

namespace Sys2Proof.Machine

/-! ### The dispatch on the tag -/

/-- The header alone is read, and a capacity failure counted at its tag (45 R266). -/
theorem receive_header (s : State) (len : Half) (tag : Byte) (hg : s.got = []) (hc : s.cfg.WellFormed) :
    receive (pageHeader s.cfg.opcodes.progPage len tag) s = { s with
      got := pageHeader s.cfg.opcodes.progPage len tag
      errorCount :=
        if tag ≠ s.cfg.memtagFlash ∧ tag = s.cfg.memtagEeprom ∧ s.overCapacity len then s.errorCount + 1 else s.errorCount
      history := s.history ++ reads (pageHeader s.cfg.opcodes.progPage len tag) } := by
  have h := receive_pageHeader s len tag [] hg hc
  rwa [List.append_nil, List.foldl_nil] at h

/-- Settles O35: an accepted header does not stop, and goes on with the rule of its tag, which only checks the EOP. -/
theorem programPageDispatch : Obligations.ProgramPageDispatch := by
  intro s len data e hready
  obtain ⟨hc, hg, -⟩ := hready
  have hne : s.cfg.memtagEeprom ≠ s.cfg.memtagFlash := Ne.symm hc.2
  refine ⟨fun hlen _ => ?_, fun _ => ?_⟩
  · have hstop := headerStop_flash s.cfg len hlen
    have hsame : exec (.progPage len s.cfg.memtagFlash (some (data, e))) s = exec (.progPageF len data e) s := by
      simp only [exec, execProgPage, execProgPageF, hstop, if_true]
    refine ⟨hsame, ?_, ?_⟩
    · rw [hsame, exec_progPageF s len data e hg hc hlen]
      exact checkEop_next e _ _
    · simp only [exec, execProgPage, hstop, receive_header s len _ hg hc]
      simp
  · have hstop := headerStop_eeprom s.cfg len hne
    have hsame : exec (.progPage len s.cfg.memtagEeprom (some (data, e))) s = exec (.progPageE len data e) s := by
      simp only [exec, execProgPage, execProgPageE, hstop, hne, if_false]
    refine ⟨hsame, ?_, ?_⟩
    · rw [hsame, exec, execProgPageE, eepromProgramPage]
      exact checkEop_next e _ _
    · simp only [exec, execProgPage, hstop, receive_header s len _ hg hc]
      by_cases hover : s.params.eepromSize < len <;> simp [hne, State.overCapacity, hover]

/-! ### Pages that are cut short -/

/-- At a command's start to hold is to receive the bytes there are. -/
theorem hold_start (s : State) (hg : s.got = []) : s.hold = receive s.hostIn (withIn [] s) :=
  (receive_start s.hostIn (withIn [] s) hg).symm

/-- Settles O36: the data is shorter than a payload with its EOP byte, so the step holds, and holding is receiving. -/
theorem unfinishedFlashPage : Obligations.UnfinishedFlashPage := by
  intro s len data hready hcalls hlen hd hin
  obtain ⟨hc, hg, hwf⟩ := hready
  have hframe : s.nextFrame = .incomplete := by
    rw [State.nextFrame, hg, List.nil_append, hin, decode_progPage _ _ _ _ _ hc, decodeProgPage_flash _ _ _ _ hlen]
    exact (splitFrame_len _ _ _).1.mpr (by omega)
  refine ⟨_, s.filled_fill data hwf (Nat.le_trans hd hlen.1), ?_⟩
  rw [step_hold hcalls hframe, hold_start s hg, hin]
  exact congrArg _ (receive_flash (withIn [] s) len data hg hc)

/-! ### The EEPROM writer -/

variable {s t : State} {sent : List Event} {k b : Nat}

/-- A state of which the EEPROM writer has done `sent` is determined but for the buffer, the lines and the position. -/
theorem Wrote.eq (h : Wrote s t sent k b) : ∃ es, es.map Event.sent = sent ∧ s.BusLinesOnly t.lines ∧ t = { s with
    buffer := t.buffer, history := s.history ++ es, targetIn := s.targetIn.drop k, got := t.got
    busResult := t.busResult, wave := t.wave, lines := t.lines, draws := t.draws } := by
  obtain ⟨es, hdid, hsent, ⟨haddr, hlamp, hcounter⟩, -, -⟩ := h
  have heq := hdid.eq
  rw [haddr, hlamp, hcounter] at heq
  exact ⟨es, hsent, hdid.lines, heq⟩

theorem Wrote.memRead (h : Wrote s t sent k b) {i : BitVec 8} (hi : b ≤ i.toNat) : t.memRead i = s.memRead i := by
  obtain ⟨es, -, -, -, -, hbuf⟩ := h
  exact hbuf i hi

theorem Wrote.wf (h : Wrote s t sent k b) : Memory.wf t.buffer := by
  obtain ⟨es, -, -, -, hwf, -⟩ := h
  exact hwf

theorem overCapacity_of_le {s : State} {len : Half} (h : len ≤ s.params.eepromSize) : s.overCapacity len = false :=
  decide_eq_false (BitVec.not_lt.mpr h)

/-- Settles O37: `wrote_receive_eeprom` gives what came before the EOP position, and the check only replies. -/
theorem eepromWrite : Obligations.EepromWrite := by
  intro s len data e hready hle hd
  have ⟨hc, hg, hwf⟩ := hready
  have hwrote := wrote_receive_eeprom s len data hready hle (.inl hd)
  rw [hd] at hwrote
  simp only [exec, execProgPageE, eepromProgramPage, overCapacity_of_le hle, Bool.false_eq_true, if_false]
  generalize receive _ s = u at hwrote ⊢
  obtain ⟨es, hsent, hlines, heq⟩ := hwrote.eq
  have hread : ∀ i : BitVec 8, min len.toNat 32 ≤ i.toNat → u.memRead i = s.memRead i := fun i => hwrote.memRead
  by_cases he : e = eopByte
  · subst he
    refine ⟨es ++ reads [eopByte] ++ writes (okReply []), _, checkEop_synced _ _, by simp [hsent, Event.sent], hread, hlines, ?_⟩
    rw [State.replyOK_eq, heq]
    simp [State.hostRead, hg, okReply]
  · refine ⟨es ++ reads [e] ++ writes [nosync], _, checkEop_bad e he _ _, by simp [hsent, he, Event.sent], hread, hlines, ?_⟩
    rw [State.raise_eq, heq]
    simp [State.hostRead, hg, he, errorReply]

/-- Fewer than 32 bytes after the last complete chunk are only read (45 R262). -/
theorem wrote_afterChunks (s : State) (len : Half) (pre rest : List Byte) (hc : s.cfg.WellFormed) (hwf : Memory.wf s.buffer)
    (hover : s.overCapacity len = false) (hg : s.got = pageHeader s.cfg.opcodes.progPage len s.cfg.memtagEeprom ++ pre)
    (hpre : pre.length % 32 = 0) (hrest : rest.length < 32) (hd : pre.length + rest.length < len.toNat) :
    Wrote s (rest.foldl receiveByte s) (reads rest) 0 rest.length := by
  rw [receiveAll_inChunk len pre rest s hc hover hg (by omega) hd, hpre]
  refine ⟨reads rest, ⟨rfl, rfl, rfl, rfl, rfl, rfl, rfl, rfl, rfl, rfl, BusLinesOnly.same s⟩, sent_reads rest,
    ⟨rfl, rfl, rfl⟩, Memory.fill_wf _ _ _ hwf, fun i hi => ?_⟩
  rw [State.memRead, Memory.get_fill _ _ _ hwf (by omega), if_neg (by omega)]
  rfl

/-- What the writer leaves alone from one index on, it leaves alone from a later one on. -/
theorem Wrote.mono (h : Wrote s t sent k b) {c : Nat} (hbc : b ≤ c) : Wrote s t sent k c := by
  obtain ⟨es, hdid, hsent, hrecord, hwf, hbuf⟩ := h
  exact ⟨es, hdid, hsent, hrecord, hwf, fun i hi => hbuf i (Nat.le_trans hbc hi)⟩

/-- How many bytes of the data have been written: all, where all have come, else those of the complete chunks. -/
def writtenLength (len : Half) (data : List Byte) : Nat :=
  if data.length = len.toNat then len.toNat else 32 * (data.length / 32)

/-- The data of an unfinished EEPROM page: what is written of it, and the rest only read. -/
theorem wrote_receive_unfinished (s : State) (len : Half) (data : List Byte) (hready : s.Ready)
    (hle : len ≤ s.params.eepromSize) (hd : data.length ≤ len.toNat) :
    Wrote s (receive (pageHeader s.cfg.opcodes.progPage len s.cfg.memtagEeprom ++ data) s)
      (reads (pageHeader s.cfg.opcodes.progPage len s.cfg.memtagEeprom)
        ++ s.eepromEvents (data.take (writtenLength len data)) ++ reads (data.drop (writtenLength len data)))
      (writtenLength len data) (min data.length 32) := by
  have ⟨hc, hg, hwf⟩ := hready
  by_cases hall : data.length = len.toNat
  · have hn : writtenLength len data = data.length := by rw [writtenLength, if_pos hall, hall]
    rw [hn, List.take_length, List.drop_length, reads_nil, List.append_nil]
    exact wrote_receive_eeprom s len data hready hle (.inl hall)
  · have hn : writtenLength len data = 32 * (data.length / 32) := if_neg hall
    generalize writtenLength len data = n at hn ⊢
    have hlen : (data.take n).length = n := by rw [List.length_take]; omega
    have hwrote := wrote_receive_eeprom s len (data.take n) hready hle (.inr (by omega))
    have hgot : (receive (pageHeader s.cfg.opcodes.progPage len s.cfg.memtagEeprom ++ data.take n) s).got =
        pageHeader s.cfg.opcodes.progPage len s.cfg.memtagEeprom ++ data.take n := by
      rw [receive_start _ _ hg, receiveAll_got, hg, List.nil_append]
    have hsplit : receive (pageHeader s.cfg.opcodes.progPage len s.cfg.memtagEeprom ++ data) s =
        (data.drop n).foldl receiveByte
          (receive (pageHeader s.cfg.opcodes.progPage len s.cfg.memtagEeprom ++ data.take n) s) := by
      rw [receive_start _ _ hg, receive_start _ _ hg, ← List.foldl_append, List.append_assoc, List.take_append_drop]
    rw [hsplit]
    generalize receive _ s = u at hwrote hgot ⊢
    obtain ⟨es, -, -, hu⟩ := hwrote.eq
    have hcfg : u.cfg = s.cfg := by rw [hu]
    have hover : u.overCapacity len = false := by
      rw [State.overCapacity, show u.params = s.params by rw [hu]]
      exact overCapacity_of_le hle
    have hrest := wrote_afterChunks u len (data.take n) (data.drop n) (hcfg ▸ hc) hwrote.wf hover (by rw [hgot, hcfg])
      (by omega) (by rw [List.length_drop]; omega) (by rw [List.length_drop]; omega)
    rw [hlen] at hwrote
    have hboth := (hwrote.mono (by omega)).trans (hrest.mono (c := min data.length 32) (by rw [List.length_drop]; omega))
    rwa [Nat.add_zero] at hboth

/-- Settles O59: the step holds, and holding is receiving what there is of the page. -/
theorem unfinishedEepromPage : Obligations.UnfinishedEepromPage := by
  intro s len data hready hcalls hle hd hin
  have ⟨hc, hg, hwf⟩ := hready
  have hpay : eepromPayloadLen s.cfg s.params.eepromSize len = len.toNat :=
    if_neg fun h => absurd h.1 (BitVec.not_lt.mpr hle)
  have hframe : s.nextFrame = .incomplete := by
    rw [State.nextFrame, hg, List.nil_append, hin, decode_progPage _ _ _ _ _ hc, decodeProgPage_eeprom _ _ _ _ hc, hpay]
    exact (splitFrame_len _ _ _).1.mpr (by omega)
  have hwrote := wrote_receive_unfinished (withIn [] s) len data hready hle hd
  have hgot : s.hold.got = s.hostIn := by rw [s.hold_got, hg, List.nil_append]
  have hhold : receive (pageHeader s.cfg.opcodes.progPage len s.cfg.memtagEeprom ++ data) (withIn [] s) = s.hold := by
    rw [hold_start s hg, hin]
  simp only [show (withIn [] s).cfg = s.cfg from rfl, hhold] at hwrote
  obtain ⟨es, hsent, hlines, heq⟩ := hwrote.eq
  rw [hgot] at heq
  exact ⟨es, s.hold, step_hold hcalls hframe, hsent, fun i => hwrote.memRead, hlines, heq⟩

end Sys2Proof.Machine
end

section
/-! The readers (46_reader_signature.md): the exact events of a synced read, and the dispatch on the tag. -/

namespace Sys2Proof.Machine

/-- Behind a synced EOP a read-page of even length streams the words it reads (46 R280). -/
theorem flashReadPage_even (len : Half) (s : State) (h : len.toNat % 2 = 0) :
    flashReadPage len s = .next (streamed (readWords (len.toNat / 2)) s) := if_neg (by omega)

theorem flashReadPage_odd (len : Half) (s : State) (h : len.toNat % 2 = 1) :
    flashReadPage len s = .refused .oddFlashLength := if_pos h

theorem exec_readPageF (s : State) (len : Half) (hg : s.got = []) (hc : s.cfg.WellFormed) :
    exec (.readPageF len eopByte) s = flashReadPage len
      ((s.atEop (pageHeader s.cfg.opcodes.readPage len s.cfg.memtagFlash)).hostRead eopByte) := by
  rw [exec, execReadPageF, receive_readPage_atEop s len _ hg hc, checkEop_synced]

theorem exec_readPageE (s : State) (len : Half) (hg : s.got = []) (hc : s.cfg.WellFormed) :
    exec (.readPageE len eopByte) s = eepromReadPage len
      ((s.atEop (pageHeader s.cfg.opcodes.readPage len s.cfg.memtagEeprom)).hostRead eopByte) := by
  rw [exec, execReadPageE, receive_readPage_atEop s len _ hg hc, checkEop_synced]

theorem exec_readPage (s : State) (len : Half) (tag : Byte) (hg : s.got = []) (hc : s.cfg.WellFormed) :
    exec (.readPage len tag eopByte) s =
      (fun t => if tag = s.cfg.memtagFlash then flashReadPage len t
        else if tag = s.cfg.memtagEeprom then eepromReadPage len t else .refused .unknownMemoryTag)
      ((s.atEop (pageHeader s.cfg.opcodes.readPage len tag)).hostRead eopByte) := by
  rw [exec, execReadPage, receive_readPage_atEop s len _ hg hc, checkEop_synced]
  rfl

/-- Settles O39: the reader is `read_flash`, between the two bytes of the reply. -/
theorem flashRead : Obligations.FlashRead := by
  intro s len hready
  have ⟨hc, hg, _⟩ := hready
  rw [exec_readPageF s len hg hc]
  refine ⟨flashReadPage_odd len _, fun heven => ?_⟩
  have hk : 2 * (len.toNat / 2) = len.toNat := by omega
  obtain ⟨ans, t, hans, ht, hlines, heq⟩ := streamed_reader s hready
    (pageHeader s.cfg.opcodes.readPage len s.cfg.memtagFlash) (readWords (len.toNat / 2))
    (fun u ans => u.flashReadEvents ans (len.toNat / 2)) (2 * (len.toNat / 2)) (BitVec.ofNat 16 (len.toNat / 2))
    (read_flash _) (fun u v ans hcfg haddr => by simp only [State.flashReadEvents, State.wordAddr, hcfg, haddr])
  rw [hk] at heq
  exact ⟨ans, t, hans, (flashReadPage_even len _ heven).trans (congrArg _ ht), hlines, heq⟩

/-- Settles O40: the reader is `read_eeprom`, between the two bytes of the reply. -/
theorem eepromRead : Obligations.EepromRead := by
  intro s len hready
  have ⟨hc, hg, _⟩ := hready
  rw [exec_readPageE s len hg hc]
  obtain ⟨ans, t, hans, ht, hlines, heq⟩ := streamed_reader s hready
    (pageHeader s.cfg.opcodes.readPage len s.cfg.memtagEeprom) (fun u => readEeprom len.toNat (u.eepromAddr 0) u)
    (fun u ans => u.eepromReadEvents ans len.toNat) len.toNat 0#16
    (fun u => by rw [BitVec.add_zero]; exact read_eeprom u len.toNat)
    (fun u v ans hcfg haddr => by simp only [State.eepromReadEvents, hcfg, haddr])
  rw [BitVec.add_zero] at heq
  exact ⟨ans, t, hans, congrArg _ ht, hlines, heq⟩

/-- The signature reader leaves the address alone (46 R283). -/
theorem readSignature_address (s : State) : (readSigByte 2 (readSigByte 1 (readSigByte 0 s))).address = s.address := by
  simp only [readSigByte, forward_address]

/-- Settles O41: the reader is `read_signature`; a bad EOP ends the command before it. -/
theorem readSignature : Obligations.ReadSignature := by
  intro s e hready
  have ⟨hc, hg, _⟩ := hready
  have hrecv := receive_quiet_atEop s s.cfg.opcodes.readSig [] hg (classify_readSig _ hc) rfl rfl
  rw [exec, execReadSig, hrecv, exec, execReadSig, hrecv]
  refine ⟨?_, checkEop_atEop_bad s _ e _ hg⟩
  obtain ⟨ans, t, hans, ht, hlines, heq⟩ := streamed_reader s hready [s.cfg.opcodes.readSig]
    (fun u => readSigByte 2 (readSigByte 1 (readSigByte 0 u))) (fun u ans => signatureEvents u.cfg ans) 3 0#16
    (fun u => by
      obtain ⟨ans, hans, hread⟩ := read_signature u
      exact ⟨ans, hans, hread, by rw [BitVec.add_zero, readSignature_address]⟩)
    (fun u v ans hcfg _ => by rw [hcfg])
  rw [BitVec.add_zero] at heq
  refine ⟨ans, t, hans, (checkEop_synced _ _).trans (congrArg _ ht), hlines, heq.trans ?_⟩
  simp [signatureEvents]

/-- Settles O43: behind a synced EOP the tag alone chooses the reader. -/
theorem readPageDispatch : Obligations.ReadPageDispatch := by
  intro s len tag hready
  obtain ⟨hc, hg, -⟩ := hready
  have hne : s.cfg.memtagEeprom ≠ s.cfg.memtagFlash := Ne.symm hc.2
  have heeprom : exec (.readPage len s.cfg.memtagEeprom eopByte) s = exec (.readPageE len eopByte) s := by
    simp only [exec_readPage s len _ hg hc, exec_readPageE s len hg hc, hne, if_false, if_true]
  have hflash : exec (.readPage len s.cfg.memtagFlash eopByte) s = exec (.readPageF len eopByte) s := by
    simp only [exec_readPage s len _ hg hc, exec_readPageF s len hg hc, if_true]
  refine ⟨heeprom, ⟨_, heeprom.trans (exec_readPageE s len hg hc)⟩, fun heven => ⟨hflash, ?_⟩, fun hodd => ?_, fun hf he => ?_⟩
  · rw [hflash, exec_readPageF s len hg hc, flashReadPage_even len _ heven]
    exact ⟨_, rfl⟩
  · rw [hflash, exec_readPageF s len hg hc, flashReadPage_odd len _ hodd]
    exact ⟨rfl, rfl⟩
  · simp only [exec_readPage s len tag hg hc, hf, he, if_false]

end Sys2Proof.Machine
end

section
/-! Commands held at their EOP position (40_dispatcher.md sections 1 and 10): under Legacy their effect has come. -/

namespace Sys2Proof.Machine

/-- Short of its last byte a frame is no whole frame: read as one it would leave that byte over. -/
theorem decode_shortByOne {cfg : Config} {ee : Half} {i : Instr} {bs : List Byte} {e : Byte} (hc : cfg.WellFormed)
    (hi : i.WellFormed cfg ee) (hbus : i.isBus = false) (h : bs ++ [e] = encode cfg i) : decode cfg ee bs = .incomplete := by
  cases hdec : decode cfg ee bs with
  | incomplete => rfl
  | frame j rest =>
    obtain ⟨rfl, hjbus, hj⟩ := frameIsItsBytes cfg ee bs rest j hc hdec
    have hwhole := hostFrameRoundTrip cfg ee i [] hc hi hbus
    rw [List.append_nil, ← h, List.append_assoc, hostFrameRoundTrip cfg ee j (rest ++ [e]) hc hj hjbus] at hwhole
    have hover : rest ++ [e] = [] := by injection hwhole
    exact absurd hover (by simp)

/-- Under Legacy a synced command in `LEGACY_EARLY` does nothing at its EOP position but read it and reply. -/
theorem framed_held (effect : State → State) (result : State → List Byte) (t : State) (h : t.cfg.eopOrder = .legacy) :
    ∃ u r, framed eopByte effect result t = .next u ∧ t = { u with got := t.got, history := t.history } ∧
      u.history = t.history ++ reads [eopByte] ++ writes (okReply r) := by
  refine ⟨(t.hostRead eopByte).replyOK (result (t.hostRead eopByte)), result (t.hostRead eopByte), ?_, ?_, ?_⟩
  · rw [framed, checkEop_synced]
    exact congrArg _ (congrArg₂ State.replyOK (congrArg result (if_pos h)) (if_pos h))
  · rw [State.replyOK_eq]
    rfl
  · simp [State.replyOK_eq, okReply, writes]

/-- Settles O60: each of the commands is `framed` on what it has received, and holding at its EOP position is receiving it. -/
theorem legacyEffectsBeforeEop : Obligations.LegacyEffectsBeforeEop := by
  intro s i hready hcalls horder hi hearly hin
  obtain ⟨hc, hg, -⟩ := hready
  have hbody : ∀ {body}, s.hostIn ++ [eopByte] = body ++ [eopByte] → s.hostIn = body := List.append_cancel_right
  obtain ⟨effect, result, hbus, hexec⟩ : ∃ effect result, i.isBus = false ∧
      exec i (withIn [] s) = framed eopByte effect result (receive s.hostIn (withIn [] s)) := by
    rcases hearly with rfl | ⟨p, rfl⟩ | rfl | rfl | ⟨a0, a1, rfl⟩ | ⟨b0, b1, b2, b3, rfl⟩
    · exact ⟨clearErrors, fun _ => [], rfl, hbody (body := [s.cfg.opcodes.signOn]) hin ▸ rfl⟩
    · exact ⟨decodeParameters, fun _ => [], rfl, hbody (body := s.cfg.opcodes.setParams :: p) hin ▸ rfl⟩
    · exact ⟨enterEffect, fun _ => [], rfl, hbody (body := [s.cfg.opcodes.enter]) hin ▸ rfl⟩
    · exact ⟨exitSequence, fun _ => [], rfl, hbody (body := [s.cfg.opcodes.leave]) hin ▸ rfl⟩
    · exact ⟨setAddress a0 a1, fun _ => [], rfl, hbody (body := [s.cfg.opcodes.setAddr, a0, a1]) hin ▸ rfl⟩
    · exact ⟨universalEffect, fun t => [t.busResult], rfl,
        hbody (body := [s.cfg.opcodes.universal, b0, b1, b2, b3]) hin ▸ rfl⟩
  have hframe : s.nextFrame = .incomplete := by
    rw [State.nextFrame, hg, List.nil_append]
    exact decode_shortByOne hc hi hbus hin
  have hlegacy : s.hold.cfg.eopOrder = .legacy := by rw [s.hold_cfg, horder]
  rw [← hold_start s hg] at hexec
  obtain ⟨u, r, hu, heq, hhist⟩ := framed_held effect result s.hold hlegacy
  rw [s.hold_got, hg, List.nil_append] at heq
  exact ⟨s.hold, u, r, step_hold hcalls hframe, hexec.trans hu, heq, hhist⟩

end Sys2Proof.Machine
end

section
/-! What steers the block (10_state.md sections 1 and 5, 60_exceptions.md section 7). Two states that differ only in what no
rule looks at (`Blind`) answer alike. The relation is indexed by how many bytes at the front of the buffer the two states
agree on, since a command reads only bytes that it has filled itself (10 R33). -/

namespace Sys2Proof.Machine

/-- `R n s t` relates states that agree on all that a rule looks at, `n` bytes of the buffer among it, and every action that a
rule can take keeps it so. -/
structure Blind (R : Nat → State → State → Prop) : Prop where
  cfg : ∀ {n s t}, R n s t → t.cfg = s.cfg
  params : ∀ {n s t}, R n s t → t.params = s.params
  address : ∀ {n s t}, R n s t → t.address = s.address
  mode : ∀ {n s t}, R n s t → t.mode = s.mode
  got : ∀ {n s t}, R n s t → t.got = s.got
  busResult : ∀ {n s t}, R n s t → t.busResult = s.busResult
  bufferAt : ∀ {n s t}, R n s t → ∀ x < n, t.bufferAt x = s.bufferAt x
  mono : ∀ {n s t}, R n s t → ∀ {m}, m ≤ n → R m s t
  hostRead : ∀ {n s t}, R n s t → ∀ b, R n (s.hostRead b) (t.hostRead b)
  hostWrite : ∀ {n s t}, R n s t → ∀ b, R n (s.hostWrite b) (t.hostWrite b)
  endCommand : ∀ {n s t}, R n s t → R n s.endCommand t.endCommand
  countError : ∀ {n s t}, R n s t → R n s.countError t.countError
  clearErrors : ∀ {n s t}, R n s t → R n (clearErrors s) (clearErrors t)
  withAddress : ∀ {n s t}, R n s t → ∀ a, R n { s with address := a } { t with address := a }
  busXfer : ∀ {n s t}, R n s t → ∀ w, R n (s.busXfer w) (t.busXfer w)
  delay : ∀ {n s t}, R n s t → ∀ k, R n (s.delay k) (t.delay k)
  lamp : ∀ {n s t}, R n s t → ∀ on, R n (s.lamp on) (t.lamp on)
  entrySequence : ∀ {n s t}, R n s t → R n (entrySequence s) (entrySequence t)
  exitSequence : ∀ {n s t}, R n s t → R n (exitSequence s) (exitSequence t)
  decodeParameters : ∀ {n s t}, R n s t → paramLen ≤ n → R n (decodeParameters s) (decodeParameters t)
  fillAt : ∀ {n s t}, R n s t → ∀ {x}, x ≤ n → ∀ v, R (x + 1) (s.fillAt x v) (t.fillAt x v)

/-- Two answers alike: related next states, or the same refusal. -/
def Alike (R : State → State → Prop) : Result → Result → Prop
  | .next s, .next t => R s t
  | .refused a, .refused b => a = b
  | _, _ => False

section
variable {R : Nat → State → State → Prop} (hR : Blind R) {n : Nat} {s t : State}
include hR

/-! ### Replies -/

theorem Blind.hostWrites (bs : List Byte) (h : R n s t) : R n (s.hostWrites bs) (t.hostWrites bs) := by
  unfold State.hostWrites
  induction bs generalizing s t with
  | nil => exact h
  | cons b bs ih => exact ih (hR.hostWrite h b)

theorem Blind.answerError (e : ErrorClass) (h : R n s t) : R n (s.answerError e) (t.answerError e) :=
  hR.endCommand (hR.hostWrites _ h)

theorem Blind.raise (e : ErrorClass) (h : R n s t) : R n (s.raise e) (t.raise e) := hR.answerError e (hR.countError h)

theorem Blind.replyOK (bs : List Byte) (h : R n s t) : R n (s.replyOK bs) (t.replyOK bs) :=
  hR.endCommand (hR.hostWrite (hR.hostWrites bs (hR.hostWrite h _)) _)

/-! ### Effects -/

theorem Blind.early {f : State → State} (h : R n s t) (hf : R n (f s) (f t)) :
    R n (Machine.early f s) (Machine.early f t) := by
  unfold Machine.early
  rw [hR.cfg h]
  split
  · exact hf
  · exact h

theorem Blind.enterEffect (h : R n s t) : R n (enterEffect s) (enterEffect t) := by
  unfold Machine.enterEffect
  rw [hR.mode h]
  split
  · exact h
  · exact hR.entrySequence h

theorem Blind.universalEffect (h : R n s t) (hn : 4 ≤ n) : R n (universalEffect s) (universalEffect t) := by
  unfold Machine.universalEffect
  rw [hR.bufferAt h 0 (by omega), hR.bufferAt h 1 (by omega), hR.bufferAt h 2 (by omega), hR.bufferAt h 3 (by omega)]
  exact hR.busXfer h _

theorem Blind.overCapacity (h : R n s t) (len : Half) : t.overCapacity len = s.overCapacity len := by
  simp only [State.overCapacity, hR.params h]

theorem Blind.eepromAddr (h : R n s t) (j : Nat) : t.eepromAddr j = s.eepromAddr j := by
  simp only [State.eepromAddr, hR.address h]

/-! ### Receiving -/

theorem Blind.writeEepromBytes : ∀ (k x : Nat) (e : Half) {s t : State}, R n s t → x + k ≤ n →
    R n (writeEepromBytes k x e s) (writeEepromBytes k x e t)
  | 0, _, _, _, _, h, _ => h
  | k + 1, x, e, s, t, h, hx => by
    refine Blind.writeEepromBytes k (x + 1) (e + 1) ?_ (by omega)
    unfold writeEepromByte
    rw [hR.cfg h, hR.bufferAt h x (by omega)]
    exact hR.delay (hR.busXfer h _) _

theorem Blind.afterEepromByte (len : Half) (j : Nat) (b : Byte) (h : R (j % eeChunk) s t) :
    R ((j + 1) % eeChunk) (afterEepromByte len j b s) (afterEepromByte len j b t) := by
  have hfill := hR.fillAt h (Nat.le_refl _) b
  have hle : (j + 1) % eeChunk ≤ j % eeChunk + 1 := by
    simp only [eeChunk]
    omega
  unfold Machine.afterEepromByte
  dsimp only
  rw [hR.eepromAddr h]
  split
  · exact hR.mono (Blind.writeEepromBytes hR _ 0 _ hfill (by omega)) hle
  · exact hR.mono hfill hle

theorem Blind.afterOpcode (op : Byte) (h : R n s t) : R n (afterOpcode op s) (afterOpcode op t) := by
  unfold Machine.afterOpcode
  rw [hR.cfg h]
  split
  · exact hR.countError h
  · exact hR.early h (hR.clearErrors h)
  · exact hR.early h (hR.enterEffect h)
  · exact hR.early h (hR.exitSequence h)
  all_goals exact h

omit hR in
/-- How many bytes of the buffer the payload `pay` of a command has filled from index 0: of an accepted EEPROM page, those
of its current chunk. `ee` is the negotiated EEPROM size. -/
def filledBy (cfg : Config) (ee : Half) (c : Command) (pay : List Byte) : Nat :=
  match c, pay with
  | .setParams, pay => pay.length
  | .setExt, pay => pay.length
  | .universal, pay => pay.length
  | .progPage, lh :: ll :: tag :: data =>
    if tag = cfg.memtagFlash then data.length else if ee < half lh ll then 0 else data.length % eeChunk
  | _, _ => 0

/-- A byte of a program-page: its header only counts, and its data fills what it is then written from. -/
theorem Blind.afterPageByte (pay : List Byte) (b : Byte) (h : R (filledBy s.cfg s.params.eepromSize .progPage pay) s t) :
    R (filledBy s.cfg s.params.eepromSize .progPage (pay ++ [b])) (afterPageByte pay b s) (afterPageByte pay b t) := by
  unfold Machine.afterPageByte
  simp only [hR.cfg h, hR.overCapacity h]
  match pay with
  | [] => exact h
  | [_] => exact h
  | [lh, ll] =>
    have hzero : filledBy s.cfg s.params.eepromSize .progPage [lh, ll, b] = 0 := by
      simp [filledBy, eeChunk]
    rw [List.cons_append, List.cons_append, List.nil_append, hzero]
    have h0 : R 0 s t := h
    dsimp only
    split
    · exact hR.countError h0
    · exact h0
  | lh :: ll :: tag :: data =>
    simp only [filledBy, List.cons_append, List.length_append, List.length_singleton, State.overCapacity] at h ⊢
    by_cases hf : tag = s.cfg.memtagFlash
    · simp only [hf, if_true] at h ⊢
      exact hR.fillAt h (Nat.le_refl _) b
    · by_cases ho : s.params.eepromSize < half lh ll
      · simp only [hf, ho, if_true, if_false, decide_true] at h ⊢
        exact h
      · simp only [hf, ho, if_false, decide_false, Bool.false_eq_true] at h ⊢
        exact hR.afterEepromByte _ _ b h

/-- A payload byte: a command's effect under Legacy reads what its payload has filled. -/
theorem Blind.afterPayload (op : Byte) (pay : List Byte) (b : Byte)
    (h : R (filledBy s.cfg s.params.eepromSize (classify s.cfg op) pay) s t) :
    R (filledBy s.cfg s.params.eepromSize (classify s.cfg op) (pay ++ [b])) (afterPayload op pay b s)
      (afterPayload op pay b t) := by
  unfold Machine.afterPayload
  rw [hR.cfg h]
  have hlen : (pay ++ [b]).length = pay.length + 1 := List.length_append
  cases hclass : classify s.cfg op <;> rw [hclass] at h <;> dsimp only
  case setParams =>
    have hfill := hR.fillAt h (Nat.le_refl _) b
    rw [filledBy, hlen]
    split
    · exact hR.early hfill (hR.decodeParameters hfill (Nat.le_of_eq (Eq.symm ‹_›)))
    · exact hfill
  case setExt =>
    rw [filledBy, hlen]
    exact hR.fillAt h (Nat.le_refl _) b
  case universal =>
    have hfill := hR.fillAt h (Nat.le_refl _) b
    rw [filledBy, hlen]
    split
    · exact hR.early hfill (hR.universalEffect hfill (Nat.le_of_eq (Eq.symm ‹_›)))
    · exact hfill
  case setAddr =>
    split
    · exact hR.early h (hR.withAddress h _)
    · exact h
  case progPage => exact hR.afterPageByte pay b h
  all_goals exact h

omit hR in
/-- How many bytes of the buffer the command in progress has filled, `got` being what has been read of it. -/
def filledIn (cfg : Config) (ee : Half) : List Byte → Nat
  | [] => 0
  | op :: pay => filledBy cfg ee (classify cfg op) pay

omit hR in
/-- The EEPROM size matters inside a program-page only. -/
theorem filledBy_ee {cfg : Config} (ee ee' : Half) {c : Command} (h : c = .progPage → ee = ee') (pay : List Byte) :
    filledBy cfg ee c pay = filledBy cfg ee' c pay := by
  by_cases hc : c = .progPage
  · rw [h hc]
  · cases c <;> first | rfl | exact absurd rfl hc

theorem Blind.receiveByte (ee : Half) (b : Byte) (hee : classify s.cfg (opcodeAt s b) = .progPage → s.params.eepromSize = ee)
    (h : R (filledIn s.cfg ee s.got) s t) :
    R (filledIn s.cfg ee (s.got ++ [b])) (receiveByte s b) (receiveByte t b) := by
  unfold Machine.receiveByte
  rw [hR.got h]
  cases hgot : s.got with
  | nil =>
    rw [hgot] at h
    exact hR.mono (hR.afterOpcode b (hR.hostRead h b)) (by cases hc : classify s.cfg b <;> simp [filledIn, filledBy, hc])
  | cons op pay =>
    rw [hgot] at h
    simp only [opcodeAt, hgot, List.headD_cons] at hee
    simp only [List.cons_append, filledIn, ← filledBy_ee _ ee hee] at h ⊢
    exact hR.afterPayload (s := s.hostRead b) (t := t.hostRead b) op pay b (hR.hostRead h b)

theorem Blind.receiveAll (ee : Half) (bs : List Byte)
    (hee : classify s.cfg ((s.got ++ bs).headD 0) = .progPage → s.params.eepromSize = ee)
    (h : R (filledIn s.cfg ee s.got) s t) :
    R (filledIn s.cfg ee (s.got ++ bs)) (bs.foldl Machine.receiveByte s) (bs.foldl Machine.receiveByte t) := by
  induction bs generalizing s t with
  | nil => rwa [List.append_nil]
  | cons b bs ih =>
    have hop : (s.got ++ b :: bs).headD 0 = opcodeAt s b := by
      unfold opcodeAt
      cases s.got <;> rfl
    have hop' : (s.got ++ [b]).headD 0 = opcodeAt s b := by
      unfold opcodeAt
      cases s.got <;> rfl
    rw [hop] at hee
    have hcfg : (Machine.receiveByte s b).cfg = s.cfg :=
      (acts_receiveByte (A := fun _ => True) s b trivial fun _ _ => trivial).inputs_eq.1
    have hnext := hR.receiveByte ee b hee h
    rw [← receiveByte_got, ← hcfg] at hnext
    have hall := ih (s := Machine.receiveByte s b) (t := Machine.receiveByte t b) (fun hp => ?_) hnext
    · rwa [receiveByte_got, hcfg, List.append_assoc] at hall
    · rw [receiveByte_got, hcfg, List.append_assoc, List.singleton_append, hop] at hp
      rw [← hee hp]
      exact congrArg _ (hold_params [b] s (by rw [hop', hp]; decide))

/-! ### The writers and readers -/

theorem Blind.commit (p : Half) (h : R n s t) : R n (commit p s) (commit p t) := by
  unfold Machine.commit
  rw [hR.cfg h]
  exact hR.lamp (hR.delay (hR.busXfer (hR.lamp h _) _) _) _

theorem Blind.loadWord {x : Nat} (h : R n s t) (hx : x + 1 < n) : R n (loadWord x s) (loadWord x t) := by
  unfold Machine.loadWord
  dsimp only
  rw [hR.cfg h, hR.address h, hR.bufferAt h x (by omega)]
  have hlo := hR.busXfer h (busWord s.cfg.bus.loadLo s.address (s.bufferAt x))
  rw [hR.cfg hlo, hR.address hlo, hR.bufferAt hlo (x + 1) hx]
  have hhi := hR.busXfer hlo
  rw [hR.address (hhi _)]
  exact hR.withAddress (hhi _) _

theorem Blind.currentPage (h : R n s t) (a : Half) : t.currentPage a = s.currentPage a := by
  simp only [State.currentPage, hR.cfg h, hR.params h]

theorem Blind.writeWords : ∀ (k x : Nat) (page : Half) {s t : State}, R n s t → x + 2 * k ≤ n →
    (writeWords k x page t).1 = (writeWords k x page s).1 ∧ R n (writeWords k x page s).2 (writeWords k x page t).2
  | 0, _, _, _, _, h, _ => ⟨rfl, h⟩
  | k + 1, x, page, s, t, h, hx => by
    unfold Machine.writeWords
    dsimp only
    rw [hR.address h, hR.currentPage h]
    refine Blind.writeWords k (x + 2) _ (hR.loadWord ?_ (by omega)) (by omega)
    split
    · exact hR.commit page h
    · exact h

theorem Blind.writeFlashPages {len : Nat} (h : R n s t) (hn : len ≤ n) : R n (writeFlashPages len s) (writeFlashPages len t) := by
  unfold Machine.writeFlashPages
  dsimp only
  rw [hR.address h, hR.currentPage h]
  obtain ⟨hpage, hwords⟩ := hR.writeWords (len / 2) 0 (s.currentPage s.address) h (by omega)
  rw [hpage]
  exact hR.commit _ hwords

theorem Blind.forward (w : Word) (h : R n s t) : R n (forward w s) (forward w t) := by
  have hbus := hR.busXfer h w
  unfold Machine.forward
  dsimp only
  rw [hR.busResult hbus]
  exact hR.hostWrite hbus _

theorem Blind.readWord (h : R n s t) : R n (readWord s) (readWord t) := by
  unfold Machine.readWord
  dsimp only
  rw [hR.cfg h, hR.address h]
  have hlo := hR.forward (busWord s.cfg.bus.readLo s.address 0) h
  rw [hR.cfg hlo, hR.address hlo]
  have hhi := fun w => hR.forward w hlo
  rw [hR.address (hhi _)]
  exact hR.withAddress (hhi _) _

theorem Blind.readWords : ∀ (k : Nat) {s t : State}, R n s t → R n (readWords k s) (readWords k t)
  | 0, _, _, h => h
  | k + 1, _, _, h => Blind.readWords k (hR.readWord h)

theorem Blind.readEeprom : ∀ (k : Nat) (e : Half) {s t : State}, R n s t → R n (readEeprom k e s) (readEeprom k e t)
  | 0, _, _, _, h => h
  | k + 1, e, s, t, h => by
    unfold Machine.readEeprom
    rw [hR.cfg h]
    exact Blind.readEeprom k (e + 1) (hR.forward _ h)

theorem Blind.readSigByte (i : Byte) (h : R n s t) : R n (readSigByte i s) (readSigByte i t) := by
  unfold Machine.readSigByte
  rw [hR.cfg h]
  exact hR.forward _ h

theorem Blind.streamed {f : State → State} (h : R n s t) (hf : ∀ {s t}, R n s t → R n (f s) (f t)) :
    R n (streamed f s) (streamed f t) :=
  hR.endCommand (hR.hostWrite (hf (hR.hostWrite h _)) _)

theorem Blind.flashReadPage (len : Half) (h : R n s t) : Alike (R n) (flashReadPage len s) (flashReadPage len t) := by
  unfold Machine.flashReadPage
  split
  · exact rfl
  · exact hR.streamed h (hR.readWords _)

theorem Blind.eepromReadPage (len : Half) (h : R n s t) : Alike (R n) (eepromReadPage len s) (eepromReadPage len t) := by
  unfold Machine.eepromReadPage
  rw [hR.eepromAddr h]
  exact hR.streamed h (hR.readEeprom _ _)

/-! ### The EOP check and the instructions -/

theorem Blind.checkEop {k l : State → Result} (e : Byte) (h : R n s t)
    (hk : ∀ {s t}, R n s t → Alike (R n) (k s) (l t)) : Alike (R n) (checkEop e k s) (checkEop e l t) := by
  unfold Machine.checkEop
  dsimp only
  split
  · exact hk (hR.hostRead h e)
  · exact hR.raise _ (hR.hostRead h e)

theorem Blind.framed {f : State → State} {r : State → List Byte} (e : Byte) (h : R n s t)
    (hf : ∀ {s t}, R n s t → R n (f s) (f t)) (hr : ∀ {s t}, R n s t → r t = r s) :
    Alike (R n) (framed e f r s) (framed e f r t) := by
  refine hR.checkEop e h fun {s t} h => ?_
  dsimp only
  rw [hR.cfg h]
  split
  · rw [hr h]
    exact hR.replyOK _ h
  · rw [hr (hf h)]
    exact hR.replyOK _ (hf h)

theorem Blind.answered {r : State → List Byte} (e : Byte) (h : R n s t) (hr : ∀ {s t}, R n s t → r t = r s) :
    Alike (R n) (answered e r s) (answered e r t) := by
  refine hR.checkEop e h fun {s t} h => ?_
  rw [hr h]
  exact hR.replyOK _ h

omit hR in
/-- How many bytes of the buffer an instruction reads after its last payload byte. -/
def bufferRead : Instr → Nat
  | .setParams _ _ => paramLen
  | .universal .. => 4
  | .progPage len _ (some _) => len.toNat
  | .progPageF len _ _ => len.toNat
  | _ => 0

theorem Blind.flashProgramPage (len : Half) (d : List Byte) (e : Byte) (hst : t.cfg = s.cfg)
    (h : R len.toNat (receive (pageHeader s.cfg.opcodes.progPage len s.cfg.memtagFlash ++ d) s)
      (receive (pageHeader s.cfg.opcodes.progPage len s.cfg.memtagFlash ++ d) t)) :
    Alike (R len.toNat) (flashProgramPage len d e s) (flashProgramPage len d e t) := by
  unfold Machine.flashProgramPage
  rw [hst]
  split
  · exact rfl
  · exact hR.checkEop e h fun h => hR.replyOK _ (hR.writeFlashPages h (Nat.le_refl _))

theorem Blind.eepromProgramPage (len : Half) (d : List Byte) (e : Byte) (hst : t.cfg = s.cfg) (hp : t.params = s.params)
    (h : R n (receive (pageHeader s.cfg.opcodes.progPage len s.cfg.memtagEeprom ++ d) s)
      (receive (pageHeader s.cfg.opcodes.progPage len s.cfg.memtagEeprom ++ d) t)) :
    Alike (R n) (eepromProgramPage len d e s) (eepromProgramPage len d e t) := by
  unfold Machine.eepromProgramPage
  rw [hst, show t.overCapacity len = s.overCapacity len by simp only [State.overCapacity, hp]]
  refine hR.checkEop e h fun h => ?_
  split
  · exact hR.answerError _ h
  · exact hR.replyOK _ h

/-- An instruction answers alike from two related states, if the bytes before its EOP position are received so that what it
then reads of the buffer is the same. -/
theorem Blind.exec (i : Instr) (h : ∀ bytes, R 0 (receive bytes s) (receive bytes t))
    (hfill : ∀ bytes e, encode s.cfg i = bytes ++ [e] → R (bufferRead i) (receive bytes s) (receive bytes t)) :
    Alike (R 0) (exec i s) (exec i t) := by
  have h0 : R 0 s t := by simpa [receive] using h []
  have hcfg := hR.cfg h0
  have weaken : ∀ {n} {r q : Result}, Alike (R n) r q → Alike (R 0) r q := by
    intro n r q hrq
    cases r <;> cases q <;> first | exact hrq | exact hR.mono hrq (Nat.zero_le _)
  by_cases hbus : i.isBus = true
  · rw [exec_bus i s hbus, exec_bus i t hbus, hcfg]
    exact hR.busXfer h0 _
  cases i with
  | signOn e =>
    simp only [Machine.exec, execSignOn, hcfg]
    exact hR.framed e (h _) hR.clearErrors fun _ => rfl
  | getSync e =>
    simp only [Machine.exec, execGetSync, hcfg]
    exact hR.answered e (h _) fun h => by rw [hR.cfg h]
  | getParam sub e =>
    simp only [Machine.exec, execGetParam, hcfg]
    exact hR.answered e (h _) fun h => by rw [hR.cfg h]
  | setParams p e =>
    simp only [Machine.exec, execSetParams, hcfg]
    exact weaken (hR.framed e (hfill _ e rfl) (fun h => hR.decodeParameters h (Nat.le_refl _)) fun _ => rfl)
  | setExt x e =>
    simp only [Machine.exec, execSetExt, hcfg]
    exact hR.answered e (h _) fun _ => rfl
  | enterPmode e =>
    simp only [Machine.exec, execEnterPmode, hcfg]
    exact hR.framed e (h _) hR.enterEffect fun _ => rfl
  | leavePmode e =>
    simp only [Machine.exec, execLeavePmode, hcfg]
    exact hR.framed e (h _) hR.exitSequence fun _ => rfl
  | setAddr lo hi e =>
    simp only [Machine.exec, execSetAddr, hcfg]
    exact hR.framed e (h _) (fun h => hR.withAddress h _) fun _ => rfl
  | universal b0 b1 b2 b3 e =>
    simp only [Machine.exec, execUniversal, hcfg]
    exact weaken (hR.framed e (hfill _ e rfl) (fun h => hR.universalEffect h (Nat.le_refl _)) fun h => by
      rw [hR.busResult h])
  | progFlash d e =>
    simp only [Machine.exec, execProgFlash, hcfg]
    exact hR.answered e (h _) fun _ => rfl
  | progData d e =>
    simp only [Machine.exec, execProgData, hcfg]
    exact hR.answered e (h _) fun _ => rfl
  | progPage len tag body =>
    simp only [Machine.exec, execProgPage, hcfg]
    split
    · exact rfl
    · split
      · next d e =>
        split
        · next htag =>
          subst htag
          exact weaken (hR.flashProgramPage len d e hcfg (hfill _ e (by simp [encode, bodyBytes])))
        · exact hR.eepromProgramPage len d e hcfg (hR.params h0) (h _)
      · exact h _
  | progPageF len d e =>
    exact weaken (hR.flashProgramPage len d e hcfg (hfill _ e (List.append_assoc _ _ _).symm))
  | progPageE len d e => exact hR.eepromProgramPage len d e hcfg (hR.params h0) (h _)
  | readPage len tag e =>
    simp only [Machine.exec, execReadPage, hcfg]
    refine hR.checkEop e (h _) fun {s t} h => ?_
    rw [hR.cfg h]
    split
    · exact hR.flashReadPage len h
    · split
      · exact hR.eepromReadPage len h
      · exact rfl
  | readPageF len e =>
    simp only [Machine.exec, execReadPageF, hcfg]
    exact hR.checkEop e (h _) (hR.flashReadPage len)
  | readPageE len e =>
    simp only [Machine.exec, execReadPageE, hcfg]
    exact hR.checkEop e (h _) (hR.eepromReadPage len)
  | readSig e =>
    simp only [Machine.exec, execReadSig, hcfg]
    exact hR.checkEop e (h _) fun h => hR.streamed h fun h => hR.readSigByte 2 (hR.readSigByte 1 (hR.readSigByte 0 h))
  | bareEop => exact hR.raise _ (hR.hostRead h0 _)
  | unknownOpcode op b =>
    simp only [Machine.exec, execUnknownOpcode]
    have hread := hR.hostRead (h [op]) b
    split
    · exact hR.answerError _ hread
    · exact hR.answerError _ hread
  | _ => exact absurd rfl hbus

end

end Sys2Proof.Machine
end

section
/-! The two readings of `Blind`: the stale buffer (10 R33), and error_count with the indicator (10 R24, R27). -/

namespace Sys2Proof.Machine

theorem Alike.of_next {R : State → State → Prop} {s : State} {r : Result} (h : Alike R (.next s) r) :
    ∃ t, r = .next t ∧ R s t := by
  cases r with
  | next t => exact ⟨t, rfl, h⟩
  | refused b => exact absurd h id
  | fault f => exact absurd h id

theorem Alike.of_refused {R : State → State → Prop} {why : Refusal} {r : Result} (h : Alike R (.refused why) r) :
    r = .refused why := by
  cases r with
  | refused b => exact congrArg _ (Eq.symm h)
  | next t => exact absurd h id
  | fault f => exact absurd h id

/-! ### The counters and the indicator -/

/-- `t` is `s` but for error_count, the progress counter and the indicator. -/
def SameButCounters (_ : Nat) (s t : State) : Prop :=
  ∃ c p l, t = { s with errorCount := c, progressCounter := p, lampOn := l }

theorem blind_sameButCounters : Blind SameButCounters where
  cfg := by rintro _ _ _ ⟨c, p, l, rfl⟩; rfl
  params := by rintro _ _ _ ⟨c, p, l, rfl⟩; rfl
  address := by rintro _ _ _ ⟨c, p, l, rfl⟩; rfl
  mode := by rintro _ _ _ ⟨c, p, l, rfl⟩; rfl
  got := by rintro _ _ _ ⟨c, p, l, rfl⟩; rfl
  busResult := by rintro _ _ _ ⟨c, p, l, rfl⟩; rfl
  bufferAt := by rintro _ _ _ ⟨c, p, l, rfl⟩ _ _; rfl
  mono h _ _ := h
  hostRead := by rintro _ _ _ ⟨c, p, l, rfl⟩ _; exact ⟨c, p, l, rfl⟩
  hostWrite := by rintro _ _ _ ⟨c, p, l, rfl⟩ _; exact ⟨c, p, l, rfl⟩
  endCommand := by rintro _ _ _ ⟨c, p, l, rfl⟩; exact ⟨c, p, l, rfl⟩
  countError := by rintro _ _ _ ⟨c, p, l, rfl⟩; exact ⟨_, p, l, rfl⟩
  clearErrors := by rintro _ _ _ ⟨c, p, l, rfl⟩; exact ⟨_, p, l, rfl⟩
  withAddress := by rintro _ _ _ ⟨c, p, l, rfl⟩ _; exact ⟨c, p, l, rfl⟩
  busXfer := by rintro _ _ _ ⟨c, p, l, rfl⟩ _; exact ⟨c, p, l, rfl⟩
  delay := by rintro _ _ _ ⟨c, p, l, rfl⟩ _; exact ⟨c, p, l, rfl⟩
  lamp := by rintro _ _ _ ⟨c, p, l, rfl⟩ _; exact ⟨c, _, _, rfl⟩
  entrySequence := by rintro _ _ _ ⟨c, p, l, rfl⟩; exact ⟨c, p, l, rfl⟩
  exitSequence := by rintro _ _ _ ⟨c, p, l, rfl⟩; exact ⟨c, p, l, rfl⟩
  decodeParameters := by rintro _ _ _ ⟨c, p, l, rfl⟩ _; exact ⟨c, p, l, rfl⟩
  fillAt := by rintro _ _ _ ⟨c, p, l, rfl⟩ _ _ _; exact ⟨c, p, l, rfl⟩

theorem SameButCounters.receive {n m : Nat} {s t : State} (h : SameButCounters n s t) (bytes : List Byte) :
    SameButCounters m (receive bytes s) (receive bytes t) := by
  have hgot := blind_sameButCounters.got h
  unfold Machine.receive
  rw [hgot]
  generalize bytes.drop s.got.length = bs
  clear hgot
  induction bs generalizing s t with
  | nil => exact h
  | cons b bs ih => exact ih (blind_sameButCounters.receiveByte s.params.eepromSize b (fun _ => rfl) h)

/-- Settles O56: states that differ in the counters and the indicator are related by `SameButCounters`, which every rule keeps. -/
theorem countersSteerNothing : Obligations.CountersSteerNothing := by
  intro s c p l i
  have h : SameButCounters 0 s { s with errorCount := c, progressCounter := p, lampOn := l } := ⟨c, p, l, rfl⟩
  have halike := blind_sameButCounters.exec i (fun bytes => h.receive bytes) (fun bytes _ _ => h.receive bytes)
  refine ⟨fun t ht => ?_, fun r hr => ?_⟩
  · rw [ht] at halike
    obtain ⟨u, hu, c', p', l', rfl⟩ := halike.of_next
    exact ⟨c', p', l', hu⟩
  · rw [hr] at halike
    exact halike.of_refused

/-! ### The stale buffer -/

/-- `t` is `s` but for its buffer, which agrees with that of `s` in its first `n` bytes. -/
def SameButBuffer (n : Nat) (s t : State) : Prop :=
  (∃ m, t = { s with buffer := m }) ∧ Memory.wf s.buffer ∧ Memory.wf t.buffer ∧ ∀ x < n, t.bufferAt x = s.bufferAt x

/-- What leaves the buffers alone keeps the relation. -/
theorem SameButBuffer.keep {n : Nat} {s t s' t' : State} (h : SameButBuffer n s t) (hm : ∃ m, t' = { s' with buffer := m })
    (hs : s'.buffer = s.buffer) (ht : t'.buffer = t.buffer) : SameButBuffer n s' t' := by
  obtain ⟨-, hsw, htw, hagree⟩ := h
  refine ⟨hm, hs ▸ hsw, ht ▸ htw, fun x hx => ?_⟩
  have hx := hagree x hx
  simp only [State.bufferAt, State.memRead] at hx ⊢
  rw [hs, ht, hx]

theorem blind_sameButBuffer : Blind SameButBuffer where
  cfg := by rintro _ _ _ ⟨⟨m, rfl⟩, -⟩; rfl
  params := by rintro _ _ _ ⟨⟨m, rfl⟩, -⟩; rfl
  address := by rintro _ _ _ ⟨⟨m, rfl⟩, -⟩; rfl
  mode := by rintro _ _ _ ⟨⟨m, rfl⟩, -⟩; rfl
  got := by rintro _ _ _ ⟨⟨m, rfl⟩, -⟩; rfl
  busResult := by rintro _ _ _ ⟨⟨m, rfl⟩, -⟩; rfl
  bufferAt := by rintro _ _ _ ⟨-, -, -, h⟩; exact h
  mono := by rintro _ _ _ ⟨hm, hs, ht, h⟩ _ hle; exact ⟨hm, hs, ht, fun x hx => h x (by omega)⟩
  hostRead h _ := h.keep (by obtain ⟨⟨m, rfl⟩, -⟩ := h; exact ⟨m, rfl⟩) rfl rfl
  hostWrite h _ := h.keep (by obtain ⟨⟨m, rfl⟩, -⟩ := h; exact ⟨m, rfl⟩) rfl rfl
  endCommand h := h.keep (by obtain ⟨⟨m, rfl⟩, -⟩ := h; exact ⟨m, rfl⟩) rfl rfl
  countError h := h.keep (by obtain ⟨⟨m, rfl⟩, -⟩ := h; exact ⟨m, rfl⟩) rfl rfl
  clearErrors h := h.keep (by obtain ⟨⟨m, rfl⟩, -⟩ := h; exact ⟨m, rfl⟩) rfl rfl
  withAddress h _ := h.keep (by obtain ⟨⟨m, rfl⟩, -⟩ := h; exact ⟨m, rfl⟩) rfl rfl
  busXfer h _ := h.keep (by obtain ⟨⟨m, rfl⟩, -⟩ := h; exact ⟨m, rfl⟩) rfl rfl
  delay h _ := h.keep (by obtain ⟨⟨m, rfl⟩, -⟩ := h; exact ⟨m, rfl⟩) rfl rfl
  lamp h _ := h.keep (by obtain ⟨⟨m, rfl⟩, -⟩ := h; exact ⟨m, rfl⟩) rfl rfl
  entrySequence h := h.keep (by obtain ⟨⟨m, rfl⟩, -⟩ := h; exact ⟨m, rfl⟩) (entrySequence_buffer _) (entrySequence_buffer _)
  exitSequence h := h.keep (by obtain ⟨⟨m, rfl⟩, -⟩ := h; exact ⟨m, rfl⟩) (exitSequence_buffer _) (exitSequence_buffer _)
  decodeParameters := by
    rintro n s _ ⟨⟨m, rfl⟩, hs, ht, h⟩ hn
    have hblock : State.bufferBytes { s with buffer := m } 0 paramLen = s.bufferBytes 0 paramLen :=
      List.map_congr_left fun k hk => h (0 + k) (by have := List.mem_range.1 hk; omega)
    refine ⟨⟨m, ?_⟩, hs, ht, h⟩
    unfold Machine.decodeParameters
    rw [hblock]
  fillAt := by
    rintro n s _ ⟨⟨m, rfl⟩, hs, ht, h⟩ x hx v
    refine ⟨⟨_, rfl⟩, State.fillAt_wf _ _ _ hs, State.fillAt_wf _ _ _ ht, fun y hy => ?_⟩
    unfold State.bufferAt State.fillAt
    rw [State.memRead_memWrite _ _ _ _ hs, State.memRead_memWrite _ _ _ _ ht]
    split
    · rfl
    · next hne => exact h y (by have : y ≠ x := fun he => hne (he ▸ rfl); omega)

theorem SameButBuffer.receive {s t : State} (h : SameButBuffer 0 s t) (hgot : s.got = []) (bytes : List Byte) :
    SameButBuffer (filledIn s.cfg s.params.eepromSize bytes) (receive bytes s) (receive bytes t) := by
  have hall := blind_sameButBuffer.receiveAll s.params.eepromSize bytes (s := s) (fun _ => rfl) (by rwa [hgot])
  rwa [hgot, List.nil_append, ← receive_start _ _ hgot, ← receive_start _ _ ((blind_sameButBuffer.got h).trans hgot)] at hall

/-- A well-formed command has filled, before its EOP position, all that it then reads of the buffer. -/
theorem bufferRead_le {cfg : Config} {ee : Half} {i : Instr} (hc : cfg.WellFormed) (hw : i.WellFormed cfg ee) {bytes : List Byte}
    {e : Byte} (h : encode cfg i = bytes ++ [e]) : bufferRead i ≤ filledIn cfg ee bytes := by
  cases i with
  | setParams p e' =>
    obtain ⟨rfl, -⟩ := List.append_inj' (s₁ := cfg.opcodes.setParams :: p) (t₁ := [e']) h rfl
    simp only [filledIn, classify_setParams cfg hc, filledBy, bufferRead]
    exact Nat.le_of_eq hw.symm
  | universal b0 b1 b2 b3 e' =>
    obtain ⟨rfl, -⟩ := List.append_inj' (s₁ := [cfg.opcodes.universal, b0, b1, b2, b3]) (t₁ := [e']) h rfl
    simp [filledIn, classify_universal cfg hc, filledBy, bufferRead]
  | progPage len tag body =>
    obtain ⟨rfl, -⟩ := hw
    exact Nat.zero_le _
  | progPageF len d e' =>
    obtain ⟨-, hd⟩ := hw
    obtain ⟨rfl, -⟩ := List.append_inj' ((List.append_assoc _ d [e']).trans h) rfl
    simp [pageHeader, filledIn, classify_progPage cfg hc, filledBy, bufferRead, hd]
  | _ => exact Nat.zero_le _

/-- Settles O55: a command fills what it then reads of the buffer, so two buffers agree there whatever they held before. -/
theorem staleBufferIsUnobservable : Obligations.StaleBufferIsUnobservable := by
  intro s m i hs hm hw
  obtain ⟨hc, hgot, hbuf⟩ := hs
  have h : SameButBuffer 0 s { s with buffer := m } := ⟨⟨m, rfl⟩, hbuf, hm, fun _ hx => absurd hx (Nat.not_lt_zero _)⟩
  have hrecv := h.receive hgot
  have halike := blind_sameButBuffer.exec i (fun bytes => blind_sameButBuffer.mono (hrecv bytes) (Nat.zero_le _))
    fun bytes e he => blind_sameButBuffer.mono (hrecv bytes) (bufferRead_le hc hw he)
  refine ⟨fun t ht => ?_, fun r hr => ?_⟩
  · rw [ht] at halike
    obtain ⟨u, hu, hsame, -⟩ := halike.of_next
    obtain ⟨m', rfl⟩ := hsame
    exact ⟨m', hu⟩
  · rw [hr] at halike
    exact halike.of_refused

end Sys2Proof.Machine
end

section
/-! Who writes what (10_state.md section 6, 60_exceptions.md sections 5 and 7): what each kind of action leaves alone, and from
that what an instruction leaves alone that does not take it. -/

namespace Sys2Proof.Machine

/-! ### What the actions leave alone -/

section
variable {A : Act → Prop} {s t : State}

theorem Acts.params_eq (hp : ¬A .params) (h : Acts A s t) :
    t.params = s.params ∧ t.resetActiveHigh = s.resetActiveHigh := by
  refine h.induct (fun s t => t.params = s.params ∧ t.resetActiveHigh = s.resetActiveHigh) (fun _ => ⟨rfl, rfl⟩)
    (fun _ _ _ h1 h2 => ⟨h2.1.trans h1.1, h2.2.trans h1.2⟩) ?_ ?_ ?_ ?_ ?_ ?_ ?_ ?_ ?_ ?_ ?_ ?_ ?_ <;> intros <;>
    first | contradiction | simp

theorem Acts.address_eq (ha : ¬A .address) (h : Acts A s t) : t.address = s.address := by
  refine h.induct (fun s t => t.address = s.address) (fun _ => rfl) (fun _ _ _ h1 h2 => h2.trans h1) ?_ ?_ ?_ ?_ ?_ ?_ ?_ ?_
    ?_ ?_ ?_ ?_ ?_ <;> intros <;> first | contradiction | simp

theorem Acts.buffer_eq (hf : ¬A .fill) (h : Acts A s t) : t.buffer = s.buffer := by
  refine h.induct (fun s t => t.buffer = s.buffer) (fun _ => rfl) (fun _ _ _ h1 h2 => h2.trans h1) ?_ ?_ ?_ ?_ ?_ ?_ ?_ ?_
    ?_ ?_ ?_ ?_ ?_ <;> intros <;> first | contradiction | simp

theorem Acts.mode_eq (hentry : ¬A .entry) (hexit : ¬A .exit) (h : Acts A s t) : t.mode = s.mode := by
  refine h.induct (fun s t => t.mode = s.mode) (fun _ => rfl) (fun _ _ _ h1 h2 => h2.trans h1) ?_ ?_ ?_ ?_ ?_ ?_ ?_ ?_
    ?_ ?_ ?_ ?_ ?_ <;> intros <;> first | contradiction | simp

/-- `t` has the bus enable, the `RESET` line and the directions of `s`. -/
def SameControl (s t : State) : Prop :=
  t.busOn = s.busOn ∧ t.lines.reset = s.lines.reset ∧ t.lines.sck.dir = s.lines.sck.dir ∧ t.lines.mosi.dir = s.lines.mosi.dir

theorem SameControl.trans {u : State} (h : SameControl s t) (h' : SameControl t u) : SameControl s u := by
  obtain ⟨h1, h2, h3, h4⟩ := h
  obtain ⟨h1', h2', h3', h4'⟩ := h'
  exact ⟨h1'.trans h1, h2'.trans h2, h3'.trans h3, h4'.trans h4⟩

theorem sameControl_busXfer (w : Word) (s : State) : SameControl s (s.busXfer w) := by
  obtain ⟨hreset, hsck, hmosi, -⟩ := (did_busXfer w s).lines
  exact ⟨s.busXfer_busOn w, hreset, hsck, hmosi⟩

theorem Acts.control_eq (hentry : ¬A .entry) (hexit : ¬A .exit) (h : Acts A s t) : SameControl s t := by
  refine h.induct SameControl (fun _ => ⟨rfl, rfl, rfl, rfl⟩) (fun _ _ _ => SameControl.trans) ?_ ?_ ?_ ?_ ?_ ?_ ?_
    (fun _ s w => sameControl_busXfer w s) ?_ ?_ ?_ ?_ ?_ <;> intros <;> first | contradiction | exact ⟨rfl, rfl, rfl, rfl⟩

theorem Acts.minMicros_eq (hdelay : ¬A .delay) (hentry : ¬A .entry) (h : Acts A s t) :
    minMicros t.history = minMicros s.history := by
  refine h.induct (fun s t => minMicros t.history = minMicros s.history) (fun _ => rfl) (fun _ _ _ h1 h2 => h2.trans h1)
    ?_ ?_ ?_ ?_ ?_ ?_ ?_ ?_ ?_ ?_ ?_ ?_ ?_ <;> intros <;>
    first | contradiction | simp [minMicros_append, minMicros, exitEvents]

end

/-! ### What an instruction does not do -/

theorem does_params {i : Instr} (h : ∀ p e, i ≠ .setParams p e) : ¬Instr.does i .params = true := by
  cases i <;> first | exact Bool.false_ne_true | exact absurd rfl (h _ _)

theorem does_sequence {i : Instr} (henter : ∀ e, i ≠ .enterPmode e) (hleave : ∀ e, i ≠ .leavePmode e) :
    ¬Instr.does i .entry = true ∧ ¬Instr.does i .exit = true := by
  cases i <;> first
    | exact ⟨Bool.false_ne_true, Bool.false_ne_true⟩
    | exact absurd rfl (henter _)
    | exact absurd rfl (hleave _)

/-- A well-formed program-page read to its header only is refused (40 R143). -/
theorem exec_progPage_wf {s t : State} {len : Half} {tag : Byte} {body : Option (List Byte × Byte)} {ee : Half}
    (hw : (Instr.progPage len tag body).WellFormed s.cfg ee) : exec (.progPage len tag body) s ≠ .next t := by
  obtain ⟨r, hr⟩ := headerStop_wf _ _ _ _ _ hw
  rw [exec_progPage_refused s len tag body hr]
  nofun

/-- A well-formed read-page of neither memory that is not refused is misframed (40 R144). -/
theorem exec_readPage_wf {s t : State} {len : Half} {tag e : Byte} (hready : s.Ready) {ee : Half}
    (hw : (Instr.readPage len tag e).WellFormed s.cfg ee) (h : exec (.readPage len tag e) s = .next t) :
    t = s.misframed (pageHeader s.cfg.opcodes.readPage len tag) e := by
  obtain ⟨hf, hee⟩ := hw
  by_cases he : e = eopByte
  · subst he
    obtain ⟨-, -, -, -, hrefused⟩ := readPageDispatch s len tag hready
    rw [hrefused hf hee] at h
    cases h
  · rw [(unsyncedReadPage s len tag e hready he).1] at h
    exact (Host.Outcome.next.inj h).symm

/-- Settles O47: an instruction leaves what none of its actions writes. Read-page of neither memory and program-page without a
body could write `address` and the buffer by their actions, but the one is misframed or refused and the other refused. -/
theorem recordWriters : Obligations.RecordWriters := by
  intro s t i hready hw h
  obtain ⟨hc, hg, -⟩ := id hready
  have hdoes := exec_does i s t hg hc hw h
  refine ⟨fun hparams => hdoes.params_eq (does_params hparams), fun haddr hflash hread => ?_, fun hp hx hu hf he => ?_,
    fun henter hleave => hdoes.control_eq (does_sequence henter hleave).1 (does_sequence henter hleave).2⟩
  · cases i with
    | setAddr lo hi e => exact absurd rfl (haddr _ _ _)
    | progPage len tag body => exact absurd h (exec_progPage_wf hw)
    | progPageF len d e => exact absurd rfl (hflash _ _ _)
    | readPage len tag e => rw [exec_readPage_wf hready hw h, State.misframed]
    | readPageF len e => exact absurd rfl (hread _ _)
    | _ => exact hdoes.address_eq Bool.false_ne_true
  · cases i with
    | setParams p e => exact absurd rfl (hp _ _)
    | setExt x e => exact absurd rfl (hx _ _)
    | universal b0 b1 b2 b3 e => exact absurd rfl (hu _ _ _ _ _)
    | progPage len tag body => exact absurd h (exec_progPage_wf hw)
    | progPageF len d e => exact absurd rfl (hf _ _ _)
    | progPageE len d e => exact absurd rfl (he _ _ _)
    | _ => exact hdoes.buffer_eq Bool.false_ne_true

/-! ### Enter and leave -/

/-- The actions of reading a frame's end and of replying. -/
def Act.frames (a : Act) : Prop := a = .read ∨ a = .count ∨ a = .write ∨ a = .done

theorem Act.frames_count : Act.frames .count := .inr (.inl rfl)
theorem Act.frames_write : Act.frames .write := .inr (.inr (.inl rfl))
theorem Act.frames_done : Act.frames .done := .inr (.inr (.inr rfl))

/-- From `s` to `t` the effect takes place once where the byte `e` at the EOP position is good or under Legacy, else not at
all; all other actions are reading and replying. -/
structure FramedOnce (effect : State → State) (e : Byte) (s t : State) : Prop where
  effective : e = eopByte ∨ s.cfg.eopOrder = .legacy → ∃ v, Acts Act.frames s v ∧ Acts Act.frames (effect v) t
  ineffective : ¬(e = eopByte ∨ s.cfg.eopOrder = .legacy) → Acts Act.frames s t

/-- A command in `LEGACY_EARLY` at its EOP position (40 R131, R132). -/
theorem framedOnce_framed {effect : State → State} {result : State → List Byte} {e : Byte} {s u t : State}
    (hcfg : ∀ v, (effect v).cfg = v.cfg) (hu : Acts Act.frames s u) (h : framed e effect result (early effect u) = .next t) :
    FramedOnce effect e s t := by
  have hread : ∀ v, Acts Act.frames v (v.hostRead e) := fun v => .read v e (.inl rfl)
  have hraise : ∀ v, Acts Act.frames v (v.raise .framing) :=
    acts_raise Act.frames_count Act.frames_write Act.frames_done _
  have hreply : ∀ v, Acts Act.frames v (v.replyOK (result v)) := fun v =>
    acts_replyOK Act.frames_write Act.frames_done _ v
  have horder_eq : u.cfg.eopOrder = s.cfg.eopOrder := by rw [hu.inputs_eq.1]
  unfold framed early at h
  by_cases he : e = eopByte
  · subst he
    refine ⟨fun _ => ?_, fun hno => absurd (.inl rfl) hno⟩
    rw [checkEop_synced] at h
    cases horder : u.cfg.eopOrder with
    | legacy =>
      simp only [horder, if_true, State.hostRead_cfg, hcfg] at h
      cases h
      exact ⟨u, hu, .trans (hread _) (hreply _)⟩
    | checkFirst =>
      simp only [horder, State.hostRead_cfg, reduceCtorEq, if_false] at h
      cases h
      exact ⟨_, .trans hu (hread u), hreply _⟩
  · rw [checkEop_bad e he] at h
    cases h
    refine ⟨fun hyes => ?_, fun hno => ?_⟩
    · rw [if_pos (horder_eq.trans (hyes.resolve_left he))]
      exact ⟨u, hu, .trans (hread _) (hraise _)⟩
    · rw [if_neg fun horder => hno (.inr (horder_eq.symm.trans horder))]
      exact .trans hu (.trans (hread _) (hraise _))

theorem framedOnce_enter {s t : State} {e : Byte} (hready : s.Ready) (h : exec (.enterPmode e) s = .next t) :
    FramedOnce enterEffect e s t := by
  obtain ⟨hc, hg, -⟩ := hready
  rw [exec, execEnterPmode, receive_enter s hg hc] at h
  exact framedOnce_framed enterEffect_cfg (.read s _ (.inl rfl)) h

theorem framedOnce_leave {s t : State} {e : Byte} (hready : s.Ready) (h : exec (.leavePmode e) s = .next t) :
    FramedOnce exitSequence e s t := by
  obtain ⟨hc, hg, -⟩ := hready
  rw [exec, execLeavePmode, receive_leave s hg hc] at h
  exact framedOnce_framed exitSequence_cfg (.read s _ (.inl rfl)) h

/-- After the effect of enter the mode is Programming, from whatever mode. -/
theorem enterEffect_mode (s : State) : (enterEffect s).mode = .programming := by
  unfold enterEffect
  split
  · assumption
  · simp

theorem Acts.frames_mode {s t : State} (h : Acts Act.frames s t) : t.mode = s.mode :=
  h.mode_eq (by simp [Act.frames]) (by simp [Act.frames])

theorem Acts.frames_minMicros {s t : State} (h : Acts Act.frames s t) : minMicros t.history = minMicros s.history :=
  h.minMicros_eq (by simp [Act.frames]) (by simp [Act.frames])

/-- An effect that leaves one mode behind, taken once. -/
theorem FramedOnce.mode {effect : State → State} {e : Byte} {s t : State} (h : FramedOnce effect e s t) {m : Mode}
    (hm : ∀ v, (effect v).mode = m) : t.mode = if e = eopByte ∨ s.cfg.eopOrder = .legacy then m else s.mode := by
  split
  · obtain ⟨v, -, ht⟩ := h.effective ‹_›
    exact ht.frames_mode.trans (hm v)
  · exact (h.ineffective ‹_›).frames_mode

/-- Settles O46: the effects of enter and leave set the mode, each taking place once where the statement says; no other
instruction runs a sequence. -/
theorem modeTransitions : Obligations.ModeTransitions := by
  intro s t i hready hw h
  obtain ⟨hc, hg, -⟩ := id hready
  cases i with
  | enterPmode e => exact (framedOnce_enter hready h).mode enterEffect_mode
  | leavePmode e => exact (framedOnce_leave hready h).mode exitSequence_mode
  | _ => exact (exec_does _ s t hg hc hw h).mode_eq Bool.false_ne_true Bool.false_ne_true

/-! ### Durations -/

/-- The entry sequence lasts 70100 microseconds at least (70 R342). -/
theorem minMicros_entrySequence (s : State) : minMicros (entrySequence s).history = minMicros s.history + 70100 := by
  simp [entryEvents, entryLead, minMicros_append, minMicros, tSckDischarge, tResetPulse, tResetSettle]

theorem minMicros_enter {s t : State} {e : Byte} (h : FramedOnce enterEffect e s t) :
    minMicros t.history = minMicros s.history +
      if s.mode ≠ .programming ∧ (e = eopByte ∨ s.cfg.eopOrder = .legacy) then 70100 else 0 := by
  by_cases heff : e = eopByte ∨ s.cfg.eopOrder = .legacy
  · obtain ⟨v, hv, ht⟩ := h.effective heff
    rw [ht.frames_minMicros, ← hv.frames_minMicros, ← hv.frames_mode, enterEffect]
    by_cases hmode : v.mode = .programming
    · rw [if_pos hmode, if_neg (fun hand => hand.1 hmode), Nat.add_zero]
    · rw [if_neg hmode, if_pos ⟨hmode, heff⟩, minMicros_entrySequence]
  · rw [if_neg (fun hand => heff hand.2), (h.ineffective heff).frames_minMicros, Nat.add_zero]

/-- A list of words lasts as long as the commits among it. -/
theorem minMicros_words (s : State) (d : List Byte) (ks : List Nat) :
    minMicros (ks.flatMap fun k => (if s.turnsPage k then commitSent s.cfg (s.wordPage (k - 1)) else []) ++
      [.bus (busWord s.cfg.bus.loadLo (s.wordAddr k) (d.getD (2 * k) 0)) 0,
        .bus (busWord s.cfg.bus.loadHi (s.wordAddr k) (d.getD (2 * k + 1) 0)) 0]) =
      20000 * ks.countP fun k => s.turnsPage k := by
  induction ks with
  | nil => rfl
  | cons k ks ih =>
    rw [List.flatMap_cons, minMicros_append, ih, minMicros_append, List.countP_cons]
    by_cases hk : s.turnsPage k
    · rw [if_pos hk, if_pos (decide_eq_true hk), Nat.mul_add, Nat.add_comm]
      rfl
    · rw [if_neg hk, if_neg (by rw [decide_eq_false hk]; decide)]
      exact Nat.zero_add _

theorem minMicros_flashSent (s : State) (d : List Byte) (hd : s.cfg.BusDistinct) :
    minMicros (s.flashSent d) = 20000 * commitCount s.cfg (s.flashSent d) := by
  rw [commitCount_flashSent s d hd, State.flashSent, minMicros_append, minMicros_words, Nat.mul_add, Nat.add_comm]
  rfl

theorem minMicros_progPageF {s t : State} {len : Half} {d : List Byte} {e : Byte} (hready : s.Ready) (hdist : s.cfg.BusDistinct)
    (hlen : FlashLength len) (hd : d.length = len.toNat) (h : exec (.progPageF len d e) s = .next t) :
    minMicros t.history =
      minMicros s.history + 20000 * (commitCount s.cfg t.history - commitCount s.cfg s.history) := by
  by_cases he : e = eopByte
  · subst he
    obtain ⟨m, es, u, -, hu, hsent, -, heq⟩ := flashWrite s len d hready hlen hd
    obtain rfl : u = t := Host.Outcome.next.inj (hu.symm.trans h)
    have hhist : u.history = s.history ++ es := by rw [heq]
    have hmicros : minMicros es = minMicros (s.flashSent d) := by
      rw [← minMicros_sent, hsent, minMicros_append, minMicros_append, minMicros_reads, minMicros_writes, Nat.zero_add,
        Nat.add_zero]
    have hcount : commitCount s.cfg es = commitCount s.cfg (s.flashSent d) := by
      rw [← commitCount_sent, hsent, commitCount_append, commitCount_append, commitCount_reads, commitCount_writes,
        Nat.zero_add, Nat.add_zero]
    rw [hhist, minMicros_append, commitCount_append, Nat.add_sub_cancel_left, hmicros, hcount,
      minMicros_flashSent s d hdist]
  · obtain ⟨m, -, hu⟩ := flashWriteMisframed s len d e hready hlen hd he
    obtain rfl := Host.Outcome.next.inj (hu.symm.trans h)
    simp only [State.misframed, minMicros_append, minMicros_reads, minMicros_writes, commitCount_append, commitCount_reads,
      commitCount_writes, Nat.add_zero, Nat.sub_self, Nat.mul_zero]

/-- A chunk lasts 45000 microseconds for each of its bytes (45 R263). -/
theorem minMicros_chunkEvents (s : State) (d : List Byte) (c : Nat) :
    minMicros (s.chunkEvents d c) = 45000 * min 32 (d.length - 32 * c) := by
  have hwrites : ∀ n, minMicros ((List.range n).flatMap fun i => s.eepromSent (32 * c + i) (d.getD (32 * c + i) 0)) =
      45000 * n := by
    intro n
    induction n with
    | zero => rfl
    | succ n ih =>
      rw [List.range_succ, List.flatMap_append, minMicros_append, ih, Nat.mul_add]
      rfl
  rw [State.chunkEvents, minMicros_append, minMicros_reads, hwrites, Nat.zero_add, List.length_take, List.length_drop]

theorem minMicros_eepromEvents (s : State) (d : List Byte) : minMicros (s.eepromEvents d) = 45000 * d.length := by
  have hchunks : ∀ m, minMicros ((List.range m).flatMap (s.chunkEvents d)) = 45000 * min (32 * m) d.length := by
    intro m
    induction m with
    | zero => rw [Nat.mul_zero, Nat.zero_min]; rfl
    | succ m ih =>
      rw [List.range_succ, List.flatMap_append, minMicros_append, ih, List.flatMap_singleton, minMicros_chunkEvents]
      omega
  rw [State.eepromEvents_chunks, hchunks]
  omega

theorem eepromPayloadLen_accepted {cfg : Config} {ee len : Half} (h : len ≤ ee) :
    eepromPayloadLen cfg ee len = len.toNat := if_neg fun hover => BitVec.not_lt.mpr h hover.1

theorem eepromPayloadLen_over {cfg : Config} {ee len : Half} (h : ee < len) :
    eepromPayloadLen cfg ee len = if cfg.capacityFailConsumes then len.toNat else 0 := by
  unfold eepromPayloadLen
  cases cfg.capacityFailConsumes <;> simp [h]

theorem minMicros_progPageE {s t : State} {len : Half} {d : List Byte} {e : Byte} (hready : s.Ready)
    (hd : d.length = eepromPayloadLen s.cfg s.params.eepromSize len) (h : exec (.progPageE len d e) s = .next t) :
    minMicros t.history = minMicros s.history + if len ≤ s.params.eepromSize then 45000 * len.toNat else 0 := by
  by_cases hle : len ≤ s.params.eepromSize
  · have hlen : d.length = len.toNat := hd.trans (eepromPayloadLen_accepted hle)
    obtain ⟨es, u, hu, hsent, -, -, heq⟩ := eepromWrite s len d e hready hle hlen
    obtain rfl : u = t := Host.Outcome.next.inj (hu.symm.trans h)
    have hhist : u.history = s.history ++ es := by rw [heq]
    rw [hhist, minMicros_append, ← minMicros_sent es, hsent, if_pos hle, ← hlen, ← minMicros_eepromEvents s d]
    simp only [minMicros_append, minMicros_reads, minMicros_writes, Nat.zero_add, Nat.add_zero]
  · have hlt : s.params.eepromSize < len := BitVec.not_le.mp hle
    rw [capacityFailure s len d e hready hlt (hd.trans (eepromPayloadLen_over hlt))] at h
    cases h
    simp only [minMicros_append, minMicros_reads, minMicros_writes, if_neg hle, Nat.add_zero]

/-- Settles O57: the entry sequence comes once, where enter takes effect; the flash writer delays once per commit, the EEPROM writer
once per byte; no other instruction delays. -/
theorem minimumDurations : Obligations.MinimumDurations := by
  intro s t i hready hdist hw h
  obtain ⟨hc, hg, -⟩ := id hready
  cases i with
  | enterPmode e => exact minMicros_enter (framedOnce_enter hready h)
  | progPage len tag body => exact absurd h (exec_progPage_wf hw)
  | progPageF len d e => exact minMicros_progPageF hready hdist hw.1 hw.2 h
  | progPageE len d e => exact minMicros_progPageE hready hw h
  | _ => exact (exec_does _ s t hg hc hw h).minMicros_eq Bool.false_ne_true Bool.false_ne_true

end Sys2Proof.Machine
end

section
/-! error_count against the reply (10_state.md R24, 60_exceptions.md sections 1 and 2): a success reply comes with no count, a
framing error with one. -/

namespace Sys2Proof.Machine

theorem Acts.errorCount_eq {A : Act → Prop} {s t : State} (hcount : ¬A .count) (hclear : ¬A .clear) (h : Acts A s t) :
    t.errorCount = s.errorCount := by
  refine h.induct (fun s t => t.errorCount = s.errorCount) (fun _ => rfl) (fun _ _ _ h1 h2 => h2.trans h1) ?_ ?_ ?_ ?_ ?_
    ?_ ?_ ?_ ?_ ?_ ?_ ?_ ?_ <;> intros <;> first | contradiction | simp

/-- The actions that neither reply nor touch error_count. -/
abbrev Act.quiet (a : Act) : Prop := a ≠ .write ∧ a ≠ .count ∧ a ≠ .clear

/-- The reply from `s` to `t` is a success and error_count stands. -/
def Succeeds (s t : State) : Prop := (∃ bs, t.replies = s.replies ++ okReply bs) ∧ t.errorCount = s.errorCount

/-- The reply from `s` to `t` is none of success and error_count is `n` more. -/
def Fails (n : Half) (s t : State) : Prop :=
  (∃ r ∈ errorForms, t.replies = s.replies ++ r) ∧ t.errorCount = s.errorCount + n

section
variable {s t u : State} {e : Byte}

theorem Succeeds.of_quiet (hu : Acts Act.quiet s u) (h : Succeeds u t) : Succeeds s t := by
  obtain ⟨⟨bs, hreply⟩, hcount⟩ := h
  refine ⟨⟨bs, ?_⟩, hcount.trans (hu.errorCount_eq (by decide) (by decide))⟩
  rw [hreply, acts_replies (by decide) hu]

theorem succeeds_replyOK (bs : List Byte) (s : State) : Succeeds s (s.replyOK bs) :=
  ⟨⟨bs, s.replyOK_replies bs⟩, by rw [State.replyOK_eq]⟩

theorem succeeds_streamed {body : State → State} (hbody : ∀ v, Acts (fun a => a ≠ .count ∧ a ≠ .clear) v (body v)) (s : State) :
    Succeeds s (streamed body s) :=
  ⟨streamed_replies hbody s,
    (acts_streamed (by decide) (by decide) hbody s).errorCount_eq (by simp) (by simp)⟩

theorem succeeds_flashReadPage {len : Half} (h : flashReadPage len s = .next t) : Succeeds s t := by
  unfold flashReadPage at h
  split at h
  · cases h
  · cases h
    exact succeeds_streamed (acts_readWords (by decide) (by decide) (by decide) _) s

theorem succeeds_eepromReadPage {len : Half} (h : eepromReadPage len s = .next t) : Succeeds s t := by
  cases h
  exact succeeds_streamed (acts_readEeprom (by decide) (by decide) _ _) s

/-- A framing error, with nothing else (60 R301). -/
theorem fails_misframed (s : State) (bytes : List Byte) (e : Byte) : Fails 1 s (s.misframed bytes e) :=
  ⟨⟨[nosync], by decide, by
    simp only [State.misframed, State.replies, writtenBytes_append, writtenBytes_reads, writtenBytes_writes, List.append_nil]⟩, rfl⟩

/-- No reply has been given from `s` to `u`, and no error counted. -/
def Silent (s u : State) : Prop := u.replies = s.replies ∧ u.errorCount = s.errorCount

/-- Behind an EOP check: what goes on succeeds, a bad EOP fails with one count (40 R131). -/
theorem accounted_checkEop {k : State → Result} (hu : Silent s u) (hk : ∀ v w, k v = .next w → Succeeds v w)
    (h : checkEop e k u = .next t) : Succeeds s t ∨ Fails 1 s t := by
  obtain ⟨hreplies, hcount⟩ := hu
  rcases checkEop_cases e k u with ⟨-, hgo⟩ | ⟨-, hbad⟩
  · obtain ⟨⟨bs, hreply⟩, hstands⟩ := hk _ _ (hgo ▸ h)
    exact .inl ⟨⟨bs, by rw [hreply, State.hostRead_replies, hreplies]⟩, hstands.trans hcount⟩
  · cases hbad ▸ h
    refine .inr ⟨⟨[nosync], by decide, ?_⟩, ?_⟩
    · rw [State.raise, State.answerError_replies, State.countError_replies, State.hostRead_replies, hreplies]
      rfl
    · rw [State.raise_eq, State.hostRead_errorCount, hcount]

theorem accounted_answered {result : State → List Byte} (hu : Silent s u) (h : answered e result u = .next t) :
    Succeeds s t ∨ Fails 1 s t := by
  refine accounted_checkEop hu (fun v w hv => ?_) h
  cases hv
  exact succeeds_replyOK _ v

theorem accounted_framed {effect : State → State} {result : State → List Byte} (hu : Silent s u)
    (heffect : ∀ v, Acts Act.quiet v (effect v)) (h : framed e effect result u = .next t) : Succeeds s t ∨ Fails 1 s t := by
  refine accounted_checkEop hu (fun v w hv => ?_) h
  cases hv
  split
  · exact succeeds_replyOK _ v
  · exact (succeeds_replyOK _ _).of_quiet (heffect v)

/-- What a command of a class that counts nothing before its EOP position has received. -/
theorem silent_receive {op : Byte} {c : Command} (bs : List Byte) (hg : s.got = []) (hclass : classify s.cfg op = c)
    (hcount : ¬Command.receives c .count = true) (hclear : ¬Command.receives c .clear = true) :
    Silent s (receive (op :: bs) s) := by
  have hacts : Acts (fun a => a = .read ∨ Command.receives c a = true) s (receive (op :: bs) s) :=
    acts_receive op bs s hg (.inl rfl) fun a ha => .inr (hclass ▸ ha)
  exact ⟨receive_replies _ s, hacts.errorCount_eq (by simpa using hcount) (by simpa using hclear)⟩

/-- An EEPROM program-page: a capacity failure has counted before its EOP position (45 R266). -/
theorem accounted_progPageE {len : Half} {d : List Byte} (hready : s.Ready)
    (hd : d.length = eepromPayloadLen s.cfg s.params.eepromSize len) (h : exec (.progPageE len d e) s = .next t) :
    Succeeds s t ∨ Fails (if s.params.eepromSize < len ∧ e ≠ eopByte then 2 else 1) s t := by
  by_cases hlt : s.params.eepromSize < len
  · rw [capacityFailure s len d e hready hlt (hd.trans (eepromPayloadLen_over hlt))] at h
    cases h
    refine .inr ⟨⟨if e = eopByte then [insync, failedByte] else [nosync], by split <;> decide, ?_⟩, ?_⟩
    · simp only [State.replies, writtenBytes_append, writtenBytes_reads, writtenBytes_writes, List.append_nil]
    · by_cases he : e = eopByte <;> simp [hlt, he]
  · have hle : len ≤ s.params.eepromSize := BitVec.not_lt.mp hlt
    obtain ⟨es, hdid, -⟩ := wrote_receive_eeprom s len d hready hle (.inl (hd.trans (eepromPayloadLen_accepted hle)))
    rw [if_neg fun hand => hlt hand.1]
    refine accounted_checkEop (k := fun t => .next (if s.overCapacity len then t.answerError .capacity else t.replyOK []))
      ⟨receive_replies _ s, hdid.errorCount⟩ (fun v w hv => ?_) h
    rw [overCapacity_of_le hle] at hv
    cases hv
    exact succeeds_replyOK [] v

/-- A flash program-page has no way to count but at its EOP position. -/
theorem accounted_progPageF {len : Half} {d : List Byte} (hready : s.Ready) (hlen : FlashLength len)
    (h : exec (.progPageF len d e) s = .next t) : Succeeds s t ∨ Fails 1 s t := by
  obtain ⟨hc, hg, -⟩ := hready
  rw [exec_progPageF s len d e hg hc hlen] at h
  refine accounted_checkEop (s := s) (u := { s with buffer := Memory.fill s.buffer 0 d }.atEop _) ⟨?_, rfl⟩ (fun v w hv => ?_) h
  · simp only [State.atEop, State.replies, writtenBytes_append, writtenBytes_reads, List.append_nil]
  · cases hv
    have hquiet : Acts Act.quiet v (writeFlashPages len.toNat v) :=
      acts_writeFlashPages (by decide) (by decide) (by decide) (by decide) _ v
    exact (succeeds_replyOK [] _).of_quiet hquiet

end

/-- Settles O45: behind the EOP check there is success or one framing error; a capacity failure and an unknown opcode have
counted before it. -/
theorem errorCount : Obligations.ErrorCount := by
  intro s t i hready hw hbus hsign h
  obtain ⟨hc, hg, -⟩ := id hready
  have received : ∀ {op : Byte} {c : Command} (bs : List Byte), classify s.cfg op = c → Command.receives c .count = false →
      Command.receives c .clear = false → Silent s (receive (op :: bs) s) := fun bs hclass hcount hclear =>
    silent_receive bs hg hclass (by rw [hcount]; exact Bool.false_ne_true) (by rw [hclear]; exact Bool.false_ne_true)
  cases i with
  | signOn e => exact absurd rfl (hsign e)
  | getSync e =>
    simp only [exec, execGetSync] at h
    exact accounted_answered (received [] (classify_getSync _ hc) rfl rfl) h
  | getParam sub e =>
    simp only [exec, execGetParam] at h
    exact accounted_answered (received [sub] (classify_getParam _ hc) rfl rfl) h
  | setParams p e =>
    simp only [exec, execSetParams] at h
    exact accounted_framed (received p (classify_setParams _ hc) rfl rfl) (fun v => .params v (by decide)) h
  | setExt x e =>
    simp only [exec, execSetExt] at h
    exact accounted_answered (received x (classify_setExt _ hc) rfl rfl) h
  | enterPmode e =>
    simp only [exec, execEnterPmode] at h
    exact accounted_framed (received [] (classify_enter _ hc) rfl rfl) (acts_enterEffect (by decide)) h
  | leavePmode e =>
    simp only [exec, execLeavePmode] at h
    exact accounted_framed (received [] (classify_leave _ hc) rfl rfl) (fun v => .exit v (by decide)) h
  | setAddr lo hi e =>
    simp only [exec, execSetAddr] at h
    exact accounted_framed (received [lo, hi] (classify_setAddr _ hc) rfl rfl) (fun v => .address v (half hi lo) (by decide)) h
  | universal b0 b1 b2 b3 e =>
    simp only [exec, execUniversal] at h
    exact accounted_framed (received [b0, b1, b2, b3] (classify_universal _ hc) rfl rfl)
      (fun v => .bus v _ (by decide)) h
  | progFlash d e =>
    simp only [exec, execProgFlash] at h
    exact accounted_answered (received d (classify_progFlash _ hc) rfl rfl) h
  | progData d e =>
    simp only [exec, execProgData] at h
    exact accounted_answered (received d (classify_progData _ hc) rfl rfl) h
  | progPage len tag body => exact absurd h (exec_progPage_wf hw)
  | progPageF len d e => exact accounted_progPageF hready hw.1 h
  | progPageE len d e => exact accounted_progPageE hready hw h
  | readPage len tag e =>
    rw [exec_readPage_wf hready hw h]
    exact .inr (fails_misframed s _ e)
  | readPageF len e =>
    simp only [exec, execReadPageF] at h
    exact accounted_checkEop (received _ (classify_readPage _ hc) rfl rfl) (fun _ _ => succeeds_flashReadPage) h
  | readPageE len e =>
    simp only [exec, execReadPageE] at h
    exact accounted_checkEop (received _ (classify_readPage _ hc) rfl rfl) (fun _ _ => succeeds_eepromReadPage) h
  | readSig e =>
    simp only [exec, execReadSig] at h
    refine accounted_checkEop (received [] (classify_readSig _ hc) rfl rfl) (fun v w hv => ?_) h
    cases hv
    exact succeeds_streamed (acts_readSig (by decide) (by decide)) v
  | bareEop =>
    rw [bareEop s hready] at h
    cases h
    exact .inr (fails_misframed s [] eopByte)
  | unknownOpcode op b =>
    rw [(unknownOpcode s op b hready hw.1 hw.2).2] at h
    cases h
    refine .inr ⟨⟨if b = eopByte then [insync, unknownByte] else [nosync], by split <;> decide, ?_⟩, rfl⟩
    simp only [State.replies, writtenBytes_append, writtenBytes_reads, writtenBytes_writes, List.append_nil]
  | _ => cases hbus

end Sys2Proof.Machine
end

section
/-! What a hold leaves alone (40_dispatcher.md R149, 60_exceptions.md R308): outside the effects of `LEGACY_EARLY` a byte read
inside a command does no more than fill the buffer, count an error and, inside an accepted EEPROM page, write a chunk. -/

namespace Sys2Proof.Machine

/-- The bytes read are inside an accepted EEPROM program-page, past its header. -/
def State.InPage (s : State) (bytes : List Byte) : Prop :=
  ∃ op lh ll data, bytes = op :: lh :: ll :: s.cfg.memtagEeprom :: data ∧ classify s.cfg op = .progPage ∧
    s.overCapacity (half lh ll) = false

/-- The bytes read are of a command whose effects do not come before its EOP position and whose header, if it has one, names a
memory. -/
structure Holdable (cfg : Config) (bytes : List Byte) : Prop where
  notEarly : cfg.eopOrder = .checkFirst ∨ (classify cfg (bytes.headD 0)).legacyEarly = false
  memory : ∀ op lh ll tag data, bytes = op :: lh :: ll :: tag :: data → classify cfg op = .progPage →
    tag = cfg.memtagFlash ∨ tag = cfg.memtagEeprom

/-- What is held of a command is held of each beginning of it. -/
theorem Holdable.of_append {cfg : Config} {pre rest : List Byte} (h : Holdable cfg (pre ++ rest)) (hne : pre ≠ []) :
    Holdable cfg pre where
  notEarly := by
    obtain ⟨op, pay, rfl⟩ := List.exists_cons_of_ne_nil hne
    exact h.notEarly
  memory op lh ll tag data hbytes := h.memory op lh ll tag (data ++ rest) (by rw [hbytes]; rfl)

theorem State.InPage.append {s : State} {pre : List Byte} (h : s.InPage pre) (rest : List Byte) : s.InPage (pre ++ rest) := by
  obtain ⟨op, lh, ll, data, rfl, hclass, hover⟩ := h
  exact ⟨op, lh, ll, data ++ rest, rfl, hclass, hover⟩

theorem State.InPage.congr {s t : State} {bytes : List Byte} (h : t.InPage bytes) (hcfg : t.cfg = s.cfg)
    (hparams : t.params = s.params) : s.InPage bytes := by
  simpa only [State.InPage, State.overCapacity, hcfg, hparams] using h

/-- A frame that is not whole names a memory: any other tag ends it. -/
theorem memory_of_incomplete {cfg : Config} {ee : Half} {op lh ll tag : Byte} {data : List Byte}
    (h : decode cfg ee (op :: lh :: ll :: tag :: data) = .incomplete) (hclass : classify cfg op = .progPage) :
    tag = cfg.memtagFlash ∨ tag = cfg.memtagEeprom := by
  simp only [decode, hclass, decodeProgPage] at h
  split at h
  · cases h
  · next hnone => exact (headerStop_none hnone).imp And.left And.right

theorem holdable_of_incomplete {s : State} (h : s.nextFrame = .incomplete)
    (hearly : s.cfg.eopOrder = .checkFirst ∨ s.openCommand.legacyEarly = false) : Holdable s.cfg (s.got ++ s.hostIn) where
  notEarly := hearly
  memory op lh ll tag data hbytes hclass := by
    rw [State.nextFrame, hbytes] at h
    exact memory_of_incomplete h hclass

/-! ### One byte -/

/-- The actions of a hold, transactions and delays only where `page` holds. -/
def Act.held (page : Prop) (a : Act) : Prop := a = .fill ∨ a = .count ∨ (a = .bus ∨ a = .delay) ∧ page

theorem early_checkFirst {f : State → State} {s : State} (h : s.cfg.eopOrder = .checkFirst) : early f s = s :=
  if_neg (by rw [h]; decide)

section
variable {s : State}

theorem acts_afterOpcode_held {op : Byte} {page : Prop}
    (h : s.cfg.eopOrder = .checkFirst ∨ (classify s.cfg op).legacyEarly = false) :
    Acts (Act.held page) s (afterOpcode op s) := by
  unfold afterOpcode
  split <;> rename_i hclass <;> simp only [hclass, Command.legacyEarly, Bool.true_eq_false, or_false] at h
  · exact .count s (.inr (.inl rfl))
  · rw [early_checkFirst h]
    exact .refl s
  · rw [early_checkFirst h]
    exact .refl s
  · rw [early_checkFirst h]
    exact .refl s
  all_goals exact .refl s

theorem acts_afterPageByte_held {pay : List Byte} {b : Byte} (op : Byte) (hclass : classify s.cfg op = .progPage)
    (h : Holdable s.cfg (op :: (pay ++ [b]))) :
    Acts (Act.held (s.InPage (op :: (pay ++ [b])))) s (afterPageByte pay b s) := by
  unfold afterPageByte
  split
  · split
    · exact .count s (.inr (.inl rfl))
    · exact .refl s
  · next lh ll tag data =>
    split
    · exact .fill s _ _ (.inl rfl)
    · next hflash =>
      split
      · exact .refl s
      · next hover =>
        obtain rfl := (h.memory op lh ll tag (data ++ [b]) rfl hclass).resolve_left hflash
        have hpage : s.InPage (op :: (lh :: ll :: s.cfg.memtagEeprom :: data ++ [b])) :=
          ⟨op, lh, ll, data ++ [b], rfl, hclass, Bool.eq_false_of_not_eq_true hover⟩
        exact acts_afterEepromByte (.inl rfl) (.inr (.inr ⟨.inl rfl, hpage⟩)) (.inr (.inr ⟨.inr rfl, hpage⟩)) _ _ _ s
  · exact .refl s

theorem acts_afterPayload_held {op : Byte} {pay : List Byte} {b : Byte} (h : Holdable s.cfg (op :: (pay ++ [b]))) :
    Acts (Act.held (s.InPage (op :: (pay ++ [b])))) s (afterPayload op pay b s) := by
  have hfill : Acts (Act.held (s.InPage (op :: (pay ++ [b])))) s (s.fillAt pay.length b) := .fill s _ _ (.inl rfl)
  have hearly := h.notEarly
  unfold afterPayload
  split <;> rename_i hclass <;> simp only [List.headD_cons, hclass, Command.legacyEarly, Bool.true_eq_false, or_false] at hearly
  · dsimp only
    rw [early_checkFirst (s := s.fillAt pay.length b) hearly, ite_self]
    exact hfill
  · exact hfill
  · dsimp only
    rw [early_checkFirst (s := s.fillAt pay.length b) hearly, ite_self]
    exact hfill
  · split
    · rw [early_checkFirst hearly]
      exact .refl s
    · exact .refl s
  · exact acts_afterPageByte_held op hclass h
  all_goals exact .refl s

theorem acts_receiveByte_held (b : Byte) (h : Holdable s.cfg (s.got ++ [b])) :
    Acts (Act.held (s.InPage (s.got ++ [b]))) (s.hostRead b) (receiveByte s b) := by
  unfold receiveByte
  split
  · next hgot =>
    rw [hgot] at h
    exact acts_afterOpcode_held h.notEarly
  · next op pay hgot =>
    rw [hgot] at h ⊢
    exact acts_afterPayload_held (s := s.hostRead b) h

/-! ### error_count -/

/-- The errors that reading `more` after `got` counts. -/
def State.newErrors (s : State) (got more : List Byte) : Half := BitVec.ofNat 16 (s.counted (got ++ more) - s.counted got)

theorem State.newErrors_cons (s : State) (got : List Byte) (b : Byte) (bs : List Byte) :
    s.newErrors got (b :: bs) = s.newErrors got [b] + s.newErrors (got ++ [b]) bs := by
  have h1 := s.counted_append_le got [b]
  have h2 := s.counted_append_le (got ++ [b]) bs
  have hsum : s.counted (got ++ b :: bs) - s.counted got =
      s.counted (got ++ [b]) - s.counted got + (s.counted (got ++ [b] ++ bs) - s.counted (got ++ [b])) := by
    rw [show got ++ b :: bs = got ++ [b] ++ bs by simp]
    omega
  rw [State.newErrors, hsum, BitVec.ofNat_add]
  rfl

theorem afterOpcode_errorCount {op : Byte}
    (h : s.cfg.eopOrder = .checkFirst ∨ (classify s.cfg op).legacyEarly = false) :
    (afterOpcode op s).errorCount = s.errorCount + s.newErrors [] [op] := by
  have hacts : classify s.cfg op ≠ .unknown → (afterOpcode op s).errorCount = s.errorCount := by
    intro hknown
    unfold afterOpcode
    split <;> rename_i hclass <;> simp only [hclass, Command.legacyEarly, Bool.true_eq_false, or_false] at h
    · exact absurd hclass hknown
    · rw [early_checkFirst h]
    · rw [early_checkFirst h]
    · rw [early_checkFirst h]
    all_goals rfl
  by_cases hclass : classify s.cfg op = .unknown
  · simp [afterOpcode, State.newErrors, State.counted, hclass]
  · rw [hacts hclass]
    cases hc : classify s.cfg op <;> first | exact absurd hc hclass | simp [State.newErrors, State.counted, hc]

theorem afterPageByte_errorCount (op : Byte) (pay : List Byte) (b : Byte) (hclass : classify s.cfg op = .progPage) :
    (afterPageByte pay b s).errorCount = s.errorCount + s.newErrors (op :: pay) [b] := by
  match pay with
  | [] => simp [afterPageByte, State.newErrors, State.counted, hclass]
  | [lh] => simp [afterPageByte, State.newErrors, State.counted, hclass]
  | [lh, ll] =>
    simp only [afterPageByte, State.newErrors, State.counted, hclass, List.cons_append, List.nil_append]
    split
    · rfl
    · simp
  | lh :: ll :: tag :: data =>
    have hnone : s.newErrors (op :: lh :: ll :: tag :: data) [b] = 0 := by
      simp [State.newErrors, State.counted, hclass]
    rw [hnone, add_zero]
    simp only [afterPageByte]
    split
    · rfl
    · split
      · rfl
      · exact (acts_afterEepromByte (A := fun a => a ≠ .count ∧ a ≠ .clear) (by decide) (by decide) (by decide) _ _ _
          s).errorCount_eq (by simp) (by simp)

theorem afterPayload_errorCount (op : Byte) (pay : List Byte) (b : Byte) :
    (afterPayload op pay b s).errorCount = s.errorCount + s.newErrors (op :: pay) [b] := by
  by_cases hpage : classify s.cfg op = .progPage
  · simp only [afterPayload, hpage]
    exact afterPageByte_errorCount op pay b hpage
  · have hnone : s.newErrors (op :: pay) [b] = 0 := by
      cases hclass : classify s.cfg op <;> first | exact absurd hclass hpage | simp [State.newErrors, State.counted, hclass]
    rw [hnone, add_zero]
    have hquiet : ∀ {f : State → State} (u : State), (∀ v, Acts Act.quiet v (f v)) → (early f u).errorCount = u.errorCount :=
      fun u hf => (acts_early hf u).errorCount_eq (by decide) (by decide)
    unfold afterPayload
    split
    · dsimp only
      split
      · exact hquiet _ fun v => .params v (by decide)
      · rfl
    · rfl
    · dsimp only
      split
      · exact hquiet _ fun v => .bus v _ (by decide)
      · rfl
    · split
      · exact hquiet s fun v => .address v (half b _) (by decide)
      · rfl
    · next hclass => exact absurd hclass hpage
    all_goals rfl

theorem receiveByte_errorCount (b : Byte) (h : Holdable s.cfg (s.got ++ [b])) :
    (receiveByte s b).errorCount = s.errorCount + s.newErrors s.got [b] := by
  unfold receiveByte
  split
  · next hgot =>
    rw [hgot] at h ⊢
    exact afterOpcode_errorCount (s := s.hostRead b) h.notEarly
  · next op pay hgot =>
    rw [hgot]
    exact afterPayload_errorCount (s := s.hostRead b) op pay b

end

/-! ### All the bytes -/

/-- From `s` to `t` the events `es` have come, and nothing has been exchanged with the target. -/
def Heard (s t : State) (es : List Event) : Prop :=
  t.history = s.history ++ es ∧ t.targetIn = s.targetIn ∧ t.busResult = s.busResult ∧ t.wave = s.wave ∧ t.lines = s.lines ∧
    t.draws = s.draws

theorem Heard.trans {s t u : State} {es fs : List Event} (h : Heard s t es) (h' : Heard t u fs) : Heard s u (es ++ fs) := by
  obtain ⟨h1, h2, h3, h4, h5, h6⟩ := h
  obtain ⟨k1, k2, k3, k4, k5, k6⟩ := h'
  exact ⟨by rw [k1, h1, List.append_assoc], k2.trans h2, k3.trans h3, k4.trans h4, k5.trans h5, k6.trans h6⟩

theorem heard_refl (s : State) : Heard s s [] := ⟨(List.append_nil _).symm, rfl, rfl, rfl, rfl, rfl⟩

/-- Outside a page the actions of a hold cause no event. -/
theorem Acts.heard {s t : State} {page : Prop} (hpage : ¬page) (h : Acts (Act.held page) s t) : Heard s t [] := by
  have hno : ∀ a, a ≠ .fill → a ≠ .count → ¬Act.held page a := by
    rintro a hf hc (h | h | ⟨-, h⟩)
    exacts [hf h, hc h, hpage h]
  refine h.induct (fun s t => Heard s t []) heard_refl (fun _ _ _ => Heard.trans) ?_ ?_ (fun _ s i v => heard_refl s)
    (fun _ s => heard_refl s) ?_ ?_ ?_ ?_ ?_ ?_ ?_ ?_ ?_
  all_goals exact fun ha => absurd ha (hno _ (by decide) (by decide))

theorem Acts.lamp_eq {A : Act → Prop} {s t : State} (hlamp : ¬A .lamp) (h : Acts A s t) :
    t.lampOn = s.lampOn ∧ t.progressCounter = s.progressCounter := by
  refine h.induct (fun s t => t.lampOn = s.lampOn ∧ t.progressCounter = s.progressCounter) (fun _ => ⟨rfl, rfl⟩)
    (fun _ _ _ h1 h2 => ⟨h2.1.trans h1.1, h2.2.trans h1.2⟩) ?_ ?_ ?_ ?_ ?_ ?_ ?_ ?_ ?_ ?_ ?_ ?_ ?_ <;> intros <;>
    first | contradiction | simp

/-- The actions of reading on and holding. -/
abbrev Act.holds (a : Act) : Prop := a = .read ∨ a = .fill ∨ a = .count ∨ a = .bus ∨ a = .delay

/-- `t` is `s` with `bs` read into the command in progress, where no effect comes early. -/
structure Held (s : State) (bs : List Byte) (t : State) : Prop where
  acts : Acts Act.holds s t
  errorCount : t.errorCount = s.errorCount + s.newErrors s.got bs
  heard : ¬s.InPage (s.got ++ bs) → Heard s t (reads bs)

theorem held_receiveByte {s : State} (b : Byte) (h : Holdable s.cfg (s.got ++ [b])) : Held s [b] (receiveByte s b) where
  acts := .trans (.read s b (.inl rfl)) ((acts_receiveByte_held b h).mono (by
    rintro a (rfl | rfl | ⟨rfl | rfl, -⟩) <;> decide))
  errorCount := receiveByte_errorCount b h
  heard hpage := Heard.trans (show Heard s (s.hostRead b) (reads [b]) from ⟨rfl, rfl, rfl, rfl, rfl, rfl⟩)
    ((acts_receiveByte_held b h).heard hpage)

theorem held_receiveAll (bs : List Byte) {s : State} (h : Holdable s.cfg (s.got ++ bs)) :
    Held s bs (bs.foldl receiveByte s) := by
  induction bs generalizing s with
  | nil =>
    refine ⟨.refl s, ?_, fun _ => heard_refl s⟩
    simp [State.newErrors]
  | cons b bs ih =>
    have hsplit : s.got ++ b :: bs = s.got ++ [b] ++ bs := by simp
    rw [hsplit] at h
    obtain ⟨hacts, hcount, hheard⟩ := held_receiveByte b (h.of_append (by simp))
    have hcfg := hacts.inputs_eq.1
    have hparams := (hacts.params_eq (by decide)).1
    obtain ⟨hacts', hcount', hheard'⟩ := ih (s := receiveByte s b) (by rwa [hcfg, receiveByte_got])
    refine ⟨.trans hacts hacts', ?_, fun hpage => ?_⟩
    · have hcongr : (receiveByte s b).newErrors (s.got ++ [b]) bs = s.newErrors (s.got ++ [b]) bs := by
        simp only [State.newErrors, State.counted_congr hcfg hparams]
      rw [List.foldl_cons, hcount', hcount, receiveByte_got, hcongr, State.newErrors_cons s s.got b bs, BitVec.add_assoc]
    · rw [hsplit] at hpage
      have hlater : ¬(receiveByte s b).InPage ((receiveByte s b).got ++ bs) := by
        rw [receiveByte_got]
        exact fun hp => hpage (hp.congr hcfg hparams)
      exact (hheard fun hp => hpage (hp.append bs)).trans (hheard' hlater)

/-- The buffer belongs to the filling commands (10 R21). -/
theorem receives_not_fill {c : Command} (h : c ∉ [.setParams, .setExt, .universal, .progPage]) :
    ¬Command.receives c .fill = true := by
  revert h
  cases c <;> decide

/-- Settles O58: the hold is `held_receiveAll` of the bytes at hand; which fields stand is read off its actions, the buffer's off
the class of the command. -/
theorem holdFrame : Obligations.HoldFrame := by
  intro s t hframe hcalls hearly h
  obtain rfl : s.hold = t := Host.Outcome.next.inj ((step_hold hcalls hframe).symm.trans h)
  have hheld : Held (withIn [] s) s.hostIn s.hold := held_receiveAll s.hostIn (holdable_of_incomplete hframe hearly)
  obtain ⟨hacts, hcount, hheard⟩ := hheld
  refine ⟨?_, hheard, fun hclass => ?_⟩
  · obtain ⟨hcfg, hin, hbus⟩ := hacts.inputs_eq
    obtain ⟨hparams, hpol⟩ := hacts.params_eq (by decide)
    obtain ⟨hlamp, hprogress⟩ := hacts.lamp_eq (by decide)
    have haddress := hacts.address_eq (by decide)
    have hmode := hacts.mode_eq (by decide) (by decide)
    obtain ⟨hon, -⟩ := hacts.control_eq (by decide) (by decide)
    exact State.ext_fields hcfg rfl hparams haddress hcount hmode hpol hprogress hlamp rfl hon s.hold_got rfl hin rfl hbus rfl
      rfl rfl
  · have hreceived : Acts (fun a => a ≠ .fill) (withIn [] s) s.hold := by
      refine acts_receiveAll s.hostIn (withIn [] s) (by decide) ?_
      rintro a ha rfl
      exact receives_not_fill hclass ha
    have hbuffer := hreceived.buffer_eq (by decide)
    exact hbuffer

end Sys2Proof.Machine
end
